-- ==== Sys2Proof/Word.lean ====
section
/-! DEFINITION. The word types of the block and nothing else. -/

namespace Sys2Proof

/-- A byte of FB or SNAP (10_state.md R25, R26). -/
abbrev Byte := BitVec 8

/-- A coordinate operand, a 16-bit unsigned integer (00_scope.md R11, `COORD_BITS = 16`). -/
abbrev Coord := BitVec 16

/-- STATUS and RESULT are 32-bit registers (10_state.md R23, R24). -/
abbrev Word32 := BitVec 32

/-- A command word (30_encoding.md R60). -/
abbrev CmdWord := BitVec 64

/-- A byte offset as the display-memory port carries it, `fb_off[12:0]` (20_memory.md R42). -/
abbrev PortOffset := BitVec 13

end Sys2Proof
end

