-- ==== Sys2Proof/Syntax.lean ====
section
/-! DEFINITION. The command set PYSE-LIFE-CMD v1 (30_encoding.md), and the lines of its assembler. -/

namespace Sys2Proof

/-- The commands, one constructor per row of the opcode map (30_encoding.md R64). -/
inductive Instr where
  /-- 43_control.md R150. -/
  | nop
  /-- 40_translate_access.md R89. -/
  | xlate (x y : Coord)
  /-- 40_translate_access.md R87. -/
  | get (x y : Coord)
  /-- 40_translate_access.md R86. -/
  | set (x y : Coord) (v : Bool)
  /-- 41_snapshot_mask.md R100. -/
  | snapshot
  /-- 41_snapshot_mask.md R103. -/
  | buildMask
  /-- 42_stepper.md R123. -/
  | step
  /-- 42_stepper.md R133. -/
  | tick
  /-- 40_translate_access.md R88. -/
  | sget (x y : Coord)
  /-- 41_snapshot_mask.md R105; i and j are region-local. -/
  | mget (i j : Coord)
  /-- 43_control.md R151. -/
  | clrstat
deriving DecidableEq, Repr

/-- The three operand formats (30_encoding.md R62). -/
inductive Format where
  /-- uses no operand field -/
  | n
  /-- uses X and Y -/
  | xy
  /-- uses X, Y and V -/
  | xyv
deriving DecidableEq, Repr

/-- One line of assembly: the mnemonics of 30_encoding.md R68 and the pseudo-instructions of R69,
with the operands as they are written, before their range is checked. -/
inductive AsmLine where
  | nop
  | xlate (x y : Int)
  | get (x y : Int)
  | set (x y v : Int)
  | snapshot
  | buildMask
  | step
  | tick
  | sget (x y : Int)
  | mget (i j : Int)
  | clrstat
  | plot (x y : Int)
  | unplot (x y : Int)
  | ticks (n : Int)
  | tick3
deriving DecidableEq, Repr

end Sys2Proof
end

