-- ==== Sys2Proof/WellFormed.lean ====
section
/-! DEFINITION. What makes a command word legal (30_encoding.md R61, R62, R65, R66) and an assembly
line admissible (R68). Every `Instr` is well formed by its type: its operands are exactly the
fields R61 gives them. -/

namespace Sys2Proof

/-- The fields of the command word (30_encoding.md R61). -/
structure Fields where
  op  : BitVec 4
  rsv : BitVec 27
  v   : Bool
  y   : Coord
  x   : Coord
deriving DecidableEq, Repr

/-- 30_encoding.md R61, R63: cut a command word into its fields. -/
def Fields.ofWord (w : CmdWord) : Fields :=
  { op := w.extractLsb' 60 4, rsv := w.extractLsb' 33 27, v := w.getLsbD 32,
    y := w.extractLsb' 16 16, x := w.extractLsb' 0 16 }

/-- The format of each opcode, `none` for a reserved one (30_encoding.md R64, R65). -/
def Format.ofOpcode (op : BitVec 4) : Option Format :=
  match op.toNat with
  | 0x0 => some .n
  | 0x1 => some .xy
  | 0x2 => some .xy
  | 0x3 => some .xyv
  | 0x4 => some .n
  | 0x5 => some .n
  | 0x6 => some .n
  | 0x7 => some .n
  | 0x8 => some .xy
  | 0x9 => some .xy
  | 0xA => some .n
  | _ => none

/-- 30_encoding.md R66, first case: OP is not reserved. -/
def Fields.opOk (f : Fields) : Bool := (Format.ofOpcode f.op).isSome

/-- 30_encoding.md R66, second case: RSV is 0. -/
def Fields.rsvOk (f : Fields) : Bool := f.rsv == 0

/-- 30_encoding.md R66, third and fourth case: an operand field the format does not use is 0. -/
def Fields.unusedOk (f : Fields) : Bool :=
  match Format.ofOpcode f.op with
  | some .n => f.x == 0 && f.y == 0 && !f.v
  | some .xy => !f.v
  | some .xyv => true
  | none => true

/-- A legal command word: none of the cases of 30_encoding.md R66 holds. -/
def Fields.wellFormed (f : Fields) : Bool := f.opOk && f.rsvOk && f.unusedOk

/-- A coordinate operand of an assembly line fits in 16 bits; -1 may be written for 0xFFFF
(30_encoding.md R68). -/
def asmCoordOk (n : Int) : Bool := decide (-1 ≤ n ∧ n ≤ 0xFFFF)

/-- v must be 0 or 1 (30_encoding.md R68). -/
def asmBitOk (v : Int) : Bool := v == 0 || v == 1

/-- The operands an assembler admits (30_encoding.md R68; R69: n ≥ 0 for TICKS). -/
def AsmLine.wellFormed : AsmLine → Bool
  | .nop | .snapshot | .buildMask | .step | .tick | .clrstat | .tick3 => true
  | .xlate x y => asmCoordOk x && asmCoordOk y
  | .get x y => asmCoordOk x && asmCoordOk y
  | .set x y v => asmCoordOk x && asmCoordOk y && asmBitOk v
  | .sget x y => asmCoordOk x && asmCoordOk y
  | .mget i j => asmCoordOk i && asmCoordOk j
  | .plot x y => asmCoordOk x && asmCoordOk y
  | .unplot x y => asmCoordOk x && asmCoordOk y
  | .ticks n => decide (0 ≤ n)

end Sys2Proof
end

