-- ==== Sys2Proof/Decode.lean ====
section
/-! DEFINITION. The decoder, total on every 64-bit word (30_encoding.md R67), the encoder (R61, R64),
and the opcode map of R64 as rows. -/

namespace Sys2Proof

/-- Why a word is illegal (30_encoding.md R66), in the order R67 checks. Every one raises ILL. -/
inductive Illegal where
  /-- OP is 0xB to 0xF (R65) -/
  | reservedOpcode
  /-- `w[59:33] ≠ 0` -/
  | reservedBits
  /-- an operand field that the format does not use is not 0 -/
  | unusedField
deriving DecidableEq, Repr

/-- The command an opcode names, with the operand fields its format uses (30_encoding.md R63, R64). -/
def Fields.command (f : Fields) : Option Instr :=
  match f.op.toNat with
  | 0x0 => some .nop
  | 0x1 => some (.xlate f.x f.y)
  | 0x2 => some (.get f.x f.y)
  | 0x3 => some (.set f.x f.y f.v)
  | 0x4 => some .snapshot
  | 0x5 => some .buildMask
  | 0x6 => some .step
  | 0x7 => some .tick
  | 0x8 => some (.sget f.x f.y)
  | 0x9 => some (.mget f.x f.y)
  | 0xA => some .clrstat
  | _ => none

/-- 30_encoding.md R67. -/
def decode (w : CmdWord) : Except Illegal Instr :=
  let f := Fields.ofWord w
  if !f.opOk then .error .reservedOpcode
  else if !f.rsvOk then .error .reservedBits
  else if !f.unusedOk then .error .unusedField
  else
    match f.command with
    | some i => .ok i
    | none => .error .reservedOpcode

/-- `OP << 60 | V << 32 | Y << 16 | X` with RSV = 0 (30_encoding.md R61, R68). -/
def packWord (op : BitVec 4) (x y : Coord) (v : Bool) : CmdWord :=
  op ++ 0#27 ++ BitVec.ofBool v ++ y ++ x

/-- The opcode of a command (30_encoding.md R64). -/
def Instr.opcode : Instr → BitVec 4
  | .nop => 0x0
  | .xlate _ _ => 0x1
  | .get _ _ => 0x2
  | .set _ _ _ => 0x3
  | .snapshot => 0x4
  | .buildMask => 0x5
  | .step => 0x6
  | .tick => 0x7
  | .sget _ _ => 0x8
  | .mget _ _ => 0x9
  | .clrstat => 0xA

/-- The word of a command (30_encoding.md R61, R64). -/
def encode (i : Instr) : CmdWord :=
  match i with
  | .xlate x y => packWord i.opcode x y false
  | .get x y => packWord i.opcode x y false
  | .set x y v => packWord i.opcode x y v
  | .sget x y => packWord i.opcode x y false
  | .mget a b => packWord i.opcode a b false
  | .nop => packWord i.opcode 0 0 false
  | .snapshot => packWord i.opcode 0 0 false
  | .buildMask => packWord i.opcode 0 0 false
  | .step => packWord i.opcode 0 0 false
  | .tick => packWord i.opcode 0 0 false
  | .clrstat => packWord i.opcode 0 0 false

/-- A row of the opcode map: a word decodes as the row's command iff `(w & mask) == value`
(30_encoding.md R64). -/
structure OpcodeRow where
  value : CmdWord
  mask  : CmdWord
deriving DecidableEq, Repr

/-- The row of a command, transcribed from the table of 30_encoding.md R64. -/
def Instr.row : Instr → OpcodeRow
  | .nop => ⟨0x0000000000000000, 0xFFFFFFFFFFFFFFFF⟩
  | .xlate _ _ => ⟨0x1000000000000000, 0xFFFFFFFF00000000⟩
  | .get _ _ => ⟨0x2000000000000000, 0xFFFFFFFF00000000⟩
  | .set _ _ _ => ⟨0x3000000000000000, 0xFFFFFFFE00000000⟩
  | .snapshot => ⟨0x4000000000000000, 0xFFFFFFFFFFFFFFFF⟩
  | .buildMask => ⟨0x5000000000000000, 0xFFFFFFFFFFFFFFFF⟩
  | .step => ⟨0x6000000000000000, 0xFFFFFFFFFFFFFFFF⟩
  | .tick => ⟨0x7000000000000000, 0xFFFFFFFFFFFFFFFF⟩
  | .sget _ _ => ⟨0x8000000000000000, 0xFFFFFFFF00000000⟩
  | .mget _ _ => ⟨0x9000000000000000, 0xFFFFFFFF00000000⟩
  | .clrstat => ⟨0xA000000000000000, 0xFFFFFFFFFFFFFFFF⟩

/-- The eleven rows of the opcode map, in the table's order (30_encoding.md R64). -/
def opcodeRows : List OpcodeRow :=
  [Instr.nop, .xlate 0 0, .get 0 0, .set 0 0 false, .snapshot, .buildMask, .step, .tick,
    .sget 0 0, .mget 0 0, .clrstat].map Instr.row

/-- 30_encoding.md R64: the word matches the row. -/
def OpcodeRow.hits (r : OpcodeRow) (w : CmdWord) : Bool := (w &&& r.mask) == r.value

/-- The command the decoder reads from the low `nbits` bits of `w`, the bits above them 0. A command
is one 64-bit word delivered whole (30_encoding.md R60), so the table's bit 0 is the word's bit 0. -/
def decodeTableWord (nbits w : Nat) : Option Instr :=
  match decode (BitVec.ofNat 64 (w % 2 ^ nbits)) with
  | .ok i => some i
  | .error _ => none

end Sys2Proof
end

