-- ==== Sys2Proof/Config.lean ====
section
/-! DEFINITION. What a build of the block fixes (00_scope.md section 4), and the free values: the
values the spec leaves open, as constants without a body. -/

namespace Sys2Proof.Config

/-- 00_scope.md R7. -/
abbrev width : Nat := 256

/-- 00_scope.md R7. -/
abbrev height : Nat := 192

/-- 00_scope.md R8: WIDTH/8 × HEIGHT, the size of FB and of SNAP in bytes. -/
abbrev fbBytes : Nat := 6144

/-- The greatest R (00_scope.md R9), and so the number of rows and columns MASK storage needs. -/
abbrev maxSide : Nat := 192

/-- 00_scope.md R12: FB_BASE, an open parameter outside the block. No value is given (C5, D25). -/
opaque fbBase : Nat

/-! Free values. The first argument is the draw (State's counter `draws`, or any number the display
chooses), the second the byte offset or mask row. -/

/-- A byte of SNAP after reset (10_state.md R31: "unspecified"; 93_implementation_defined.md I1). -/
opaque resetSnapByte : Nat → Nat → Byte

/-- A row of MASK after reset (10_state.md R31: "unspecified"; 93_implementation_defined.md I2). -/
opaque resetMaskRow : Nat → Nat → BitVec maxSide

/-- A byte of FB after power-up (93_implementation_defined.md I3: "a draw per byte"). -/
opaque powerUpFbByte : Nat → Nat → Byte

/-- Which bits of a byte the command abandoned by a reset has already written
(70_reset_and_hazards.md R182; 93_implementation_defined.md I5). -/
opaque resetWritten : Nat → Nat → Byte

/-- Which bits of a byte the display sees changed while a command runs (20_memory.md R47;
93_implementation_defined.md I4). -/
opaque displayChanged : Nat → Nat → Byte

end Sys2Proof.Config

namespace Sys2Proof

/-- The build-time parameter R: even and 2 ≤ R ≤ 192 (00_scope.md R9). It carries its own check, so
an odd or oversized R, which the spec does not support (93_implementation_defined.md I12), cannot
be built. -/
structure Build where
  R : Nat
  legal : R % 2 = 0 ∧ 2 ≤ R ∧ R ≤ Config.maxSide
deriving DecidableEq, Repr

/-- A build for a requested side length; refuses what 00_scope.md R9 does not admit. -/
def Build.ofSide (n : Nat) : Option Build :=
  if h : n % 2 = 0 ∧ 2 ≤ n ∧ n ≤ Config.maxSide then some ⟨n, h⟩ else none

/-- The default build, R = 32 (00_scope.md R9). -/
def Build.standard : Build := ⟨32, by decide⟩

/-- 00_scope.md R10: X0 = WIDTH/2 − R/2. -/
def Build.x0 (b : Build) : Nat := Config.width / 2 - b.R / 2

/-- 00_scope.md R10: Y0 = HEIGHT/2 − R/2. -/
def Build.y0 (b : Build) : Nat := Config.height / 2 - b.R / 2

end Sys2Proof
end

