-- ==== Sys2Proof/Machine/State.lean ====
section
/-! DEFINITION. The state of the block, of the display memory and of the host's side of the port, as
plain data; the faults and refusals; the state after reset. -/

namespace Sys2Proof.Machine

/-- A byte array in canonical form (FB or SNAP): offsets strictly rising, no entry 0x00, which is
what an unlisted offset reads as (`unlistedByte`; DESIGN CHOICE, unsafe: log entries 1 and 2). -/
abbrev Memory := List Host.Cell

/-- MASK (10_state.md R27): bit i of row j is MASK[j][i]. Storage for the greatest R; the bits
outside R × R do not exist in the block and stay 0 (log entry 11). -/
abbrev DirtyMask := Vector (BitVec Config.maxSide) Config.maxSide

/-- The error causes (60_exceptions.md R160). Neither stops the machine: each sets a STATUS bit. -/
inductive Cause where
  /-- an illegal command word -/
  | ill
  /-- a sequence precondition does not hold -/
  | seqErr
deriving DecidableEq, Repr

/-- How far an executing command has come: the next thing its rule's pseudocode does. -/
inductive Phase where
  /-- decode the latched word, check the precondition -/
  | start
  /-- SNAPSHOT body: copy byte `counter` (41_snapshot_mask.md R100) -/
  | copy
  /-- BUILD_MASK body: visit the cell at the cursor (41_snapshot_mask.md R103) -/
  | flag
  /-- STEP body: test the flag at the cursor, count neighbours (42_stepper.md R123) -/
  | eval
  /-- read-modify-write, the read (40_translate_access.md R84) -/
  | readByte
  /-- read-modify-write, the write (40_translate_access.md R84) -/
  | writeBack
deriving DecidableEq, Repr

/-- The transient state of an executing command (10_state.md R29). -/
structure InFlight where
  /-- the latched command word -/
  word    : CmdWord
  phase   : Phase
  /-- the byte counter of SNAPSHOT -/
  counter : PortOffset
  /-- the visit cursor, column -/
  i       : Nat
  /-- the visit cursor, row -/
  j       : Nat
  /-- the cell's snapshot bit -/
  alive   : Bool
  /-- the neighbour count n -/
  count   : BitVec 4
  /-- the read-modify-write byte latch -/
  latch   : Byte
  /-- FB when the command was accepted: the model's own, for 70_reset_and_hazards.md R182 (log
  entry 8) -/
  fbBefore : Memory
deriving DecidableEq, Repr

/-- What the host does at one point of the run (60_exceptions.md R172; log entry 6). -/
inductive HostInput where
  /-- offer a command word; the block executes it as one atomic step (00_scope.md R15) -/
  | command (w : CmdWord)
  /-- offer a command word; the block executes it one visit a step (10_state.md R29) -/
  | issue (w : CmdWord)
  /-- do nothing during one step -/
  | quiet
  /-- assert and release `rst` (70_reset_and_hazards.md R180, R182) -/
  | reset
  /-- switch the power off and on (60_exceptions.md R171) -/
  | powerCycle
deriving DecidableEq, Repr

/-- The whole state (10_state.md; INVENTORY.md, State). -/
structure State where
  /-- the build-time parameter R (00_scope.md R9) -/
  build  : Build
  /-- the FrameBuffer (10_state.md R25) -/
  fb     : Memory
  /-- the Snapshot store (10_state.md R26) -/
  snap   : Memory
  /-- the DirtyMask (10_state.md R27) -/
  mask   : DirtyMask
  /-- STATUS (10_state.md R23) -/
  status : Word32
  /-- RESULT (10_state.md R24) -/
  result : Word32
  /-- the transient state of the executing command; `none` at a command boundary (10_state.md R29) -/
  flight : Option InFlight
  /-- the host's acts not yet taken, oldest first (20_memory.md R50; log entry 6) -/
  inputs : List HostInput
  /-- index of the next free values (log entry 4) -/
  draws  : Nat
deriving DecidableEq, Repr

/-- Why the machine stops with a fault. -/
inductive Fault where
  /-- The display-memory port, or the Snapshot's, is driven with an offset that does not exist
  (20_memory.md R48: 6144 and above). Raised by `portRead` and `portWrite` only. Safe: the block
  never drives such an offset (R49), and no command reaches this. -/
  | offsetOutside (o : PortOffset)
deriving DecidableEq, Repr

/-- Why the machine refuses a step. -/
inductive Refusal where
  /-- The command has no meaning in the model. Raised by an arm of `exec` only; no arm does. Safe. -/
  | notModelled (mnemonic : String)
deriving DecidableEq, Repr

/-- The state right after reset (10_state.md R31, 70_reset_and_hazards.md R180): STATUS and RESULT
are 0, no command executes, none has been offered. The contents of FB, SNAP and MASK are not given
by the spec: 0 here, DESIGN CHOICE, unsafe (log entries 1, 2 and 3). R is the default 32. -/
def State.reset : State :=
  { build := Build.standard, fb := [], snap := [], mask := Vector.replicate Config.maxSide 0,
    status := 0, result := 0, flight := none, inputs := [], draws := 0 }

end Sys2Proof.Machine
end

