-- ==== Sys2Proof/Machine/Flags.lean ====
section
/-! DEFINITION. The bits of STATUS (10_state.md R23). The block has no arithmetic flags (R22). -/

namespace Sys2Proof.Machine

/-- STATUS bit numbers (10_state.md R23). -/
abbrev busyBit : Nat := 0
abbrev snapValidBit : Nat := 1
abbrev maskValidBit : Nat := 2

/-- The code of an error cause is its STATUS bit (60_exceptions.md R160). -/
def Cause.bit : Cause → Nat
  | .ill => 8
  | .seqErr => 9

/-- A STATUS word with one bit written. -/
def putBit (st : Word32) (k : Nat) (v : Bool) : Word32 :=
  if v then st ||| BitVec.twoPow 32 k else st &&& ~~~(BitVec.twoPow 32 k)

def State.busy (s : State) : Bool := s.status.getLsbD busyBit
def State.snapValid (s : State) : Bool := s.status.getLsbD snapValidBit
def State.maskValid (s : State) : Bool := s.status.getLsbD maskValidBit
def State.ill (s : State) : Bool := s.status.getLsbD (Cause.bit .ill)
def State.seqErr (s : State) : Bool := s.status.getLsbD (Cause.bit .seqErr)

def State.setBusy (s : State) (v : Bool) : State := { s with status := putBit s.status busyBit v }
def State.setSnapValid (s : State) (v : Bool) : State :=
  { s with status := putBit s.status snapValidBit v }
def State.setMaskValid (s : State) (v : Bool) : State :=
  { s with status := putBit s.status maskValidBit v }

/-- The bits STATUS does not define, 7:3 and 31:10: they read as 0 (10_state.md R23). -/
def reservedStatus : Word32 := 0xFFFFFCF8

/-- What the host reads from STATUS and from RESULT, at any time and without effect (10_state.md
R23, R24; 60_exceptions.md R172). -/
def State.hostStatus (s : State) : Word32 := s.status
def State.hostResult (s : State) : Word32 := s.result

end Sys2Proof.Machine
end

