-- ==== Sys2Proof/Machine/Ops.lean ====
section
/-! DEFINITION. The named operations over the byte arrays, MASK and STATUS that every command uses,
and raising an error cause, which is all the block has in place of an exception. -/

namespace Sys2Proof.Machine

/-! ### Byte arrays -/

/-- What an offset reads as that the list does not name (log entries 1 and 2). -/
abbrev unlistedByte : Byte := 0

/-- The byte at an offset. -/
def Memory.read (m : Memory) (o : Nat) : Byte :=
  match m with
  | [] => unlistedByte
  | c :: rest => if c.1 = o then c.2 else Memory.read rest o

/-- An entry in front of a list whose offsets lie above it; nothing where the byte is what an
unlisted offset reads as. -/
def Memory.put (o : Nat) (b : Byte) (rest : Memory) : Memory :=
  if b = unlistedByte then rest else (o, b) :: rest

/-- Write the byte at an offset, keeping the canonical form. -/
def Memory.write (m : Memory) (o : Nat) (b : Byte) : Memory :=
  match m with
  | [] => Memory.put o b []
  | c :: rest =>
    if o < c.1 then Memory.put o b (c :: rest)
    else if c.1 = o then Memory.put o b rest
    else c :: Memory.write rest o b

/-- The canonical form, over the offsets that exist: offsets strictly rising and below 6144
(20_memory.md R48), no entry equal to what an unlisted offset reads as. -/
abbrev Memory.wf (m : Memory) : Prop :=
  m.Pairwise (fun c d => c.1 < d.1) ∧ ∀ c ∈ m, c.1 < Config.fbBytes ∧ c.2 ≠ unlistedByte

/-- The array whose byte at each offset 0..6143 is given by a function. Irreducible, since a unifier
that compares states field by field would otherwise evaluate all of it. -/
@[irreducible] def Memory.tabulate (f : Nat → Byte) : Memory :=
  ((List.range Config.fbBytes).map (fun o => (o, f o))).filter (fun c => c.2 ≠ unlistedByte)

/-- Bytes 0..6143 of an array, copied (the whole of 41_snapshot_mask.md R100's loop). -/
def Memory.copyBytes (m : Memory) : Memory := m.filter (fun c => c.1 < Config.fbBytes)

/-- Each bit of a byte from `new` where `pick` has a 1, from `old` where it has a 0. -/
def mixByte (pick old new : Byte) : Byte := (old &&& ~~~pick) ||| (new &&& pick)

/-- `mixByte` at every offset. -/
def Memory.mix (pick : Nat → Byte) (old new : Memory) : Memory :=
  Memory.tabulate (fun o => mixByte (pick o) (Memory.read old o) (Memory.read new o))

/-! ### The byte port (20_memory.md R42, R43) -/

/-- One byte read at an offset. FB through the display-memory port, SNAP inside the block. -/
def portRead (m : Memory) (o : PortOffset) : Except Fault Byte :=
  if o.toNat < Config.fbBytes then .ok (Memory.read m o.toNat) else .error (.offsetOutside o)

/-- One byte write at an offset. -/
def portWrite (m : Memory) (o : PortOffset) (b : Byte) : Except Fault Memory :=
  if o.toNat < Config.fbBytes then .ok (Memory.write m o.toNat b) else .error (.offsetOutside o)

/-! ### MASK (10_state.md R27) -/

/-- MASK[j][i]; false outside the storage. -/
def DirtyMask.get (m : DirtyMask) (i j : Nat) : Bool :=
  if h : j < Config.maxSide then m[j].getLsbD i else false

/-- MASK[j][i] <- 1; nothing outside the storage. -/
def DirtyMask.flag (m : DirtyMask) (i j : Nat) : DirtyMask :=
  if h : j < Config.maxSide then m.set j (m[j] ||| BitVec.twoPow Config.maxSide i) else m

/-- Every bit 0. -/
def DirtyMask.clear : DirtyMask := Vector.replicate Config.maxSide 0

/-- A MASK of free values inside R × R, 0 outside it (10_state.md R31). -/
@[irreducible] def DirtyMask.unspecified (draw R : Nat) : DirtyMask :=
  Vector.ofFn fun j : Fin Config.maxSide =>
    if j.val < R then Config.resetMaskRow draw j.val &&& BitVec.ofNat Config.maxSide (2 ^ R - 1) else 0

/-! ### Errors (60_exceptions.md R160, R163) -/

/-- Raising a cause sets its sticky bit and abandons the command with no other effect. There is no
vector, no saved state and no return (60_exceptions.md R163). -/
def State.raise (s : State) (c : Cause) : State :=
  { s with status := putBit s.status (Cause.bit c) true }

/-- Clearing a sticky bit: what the block has in place of a return (43_control.md R151). -/
def State.lower (s : State) (c : Cause) : State :=
  { s with status := putBit s.status (Cause.bit c) false }

/-- A command's outcome from a computation that an access outside the arrays would stop. -/
def outcomeOf (r : Except Fault State) : Host.Outcome State Fault Refusal :=
  match r with
  | .ok t => .next t
  | .error e => .fault e

end Sys2Proof.Machine
end

