-- ==== Sys2Proof/Machine/Control.lean ====
section
/-! DEFINITION. The control commands (43_control.md). -/

namespace Sys2Proof.Machine

/-- 43_control.md R150. -/
def execNop (s : State) : Host.Outcome State Fault Refusal := .next s

/-- 43_control.md R151. -/
def execClrstat (s : State) : Host.Outcome State Fault Refusal :=
  .next ((s.lower .ill).lower .seqErr)

end Sys2Proof.Machine
end

