-- ==== Sys2Proof/Machine/Operands.lean ====
section
/-! DEFINITION. Coordinates: the bounds check, the AddressTranslator, the ActiveRegion, and the two
bit primitives over FB and SNAP (40_translate_access.md section 1). -/

namespace Sys2Proof.Machine

/-! ### AddressTranslator -/

/-- 40_translate_access.md R80. -/
def inRange (x y : Coord) : Bool :=
  x.ult (BitVec.ofNat 16 Config.width) && y.ult (BitVec.ofNat 16 Config.height)

/-- 40_translate_access.md R81: `y[7:6] :: y[2:0] :: y[5:3] :: x[7:3]`. The placement of the groups
is the spec's own, from general knowledge (92_eei_decisions.md D6; log entry 10). -/
def offset (x y : Coord) : PortOffset :=
  y.extractLsb' 6 2 ++ y.extractLsb' 0 3 ++ y.extractLsb' 3 3 ++ x.extractLsb' 3 5

/-- 40_translate_access.md R82, `BitIdx`. -/
def bitIndex (x : Coord) : Nat := 7 - (x.extractLsb' 0 3).toNat

/-- 40_translate_access.md R82, `Mask`. -/
def bitMask (x : Coord) : Byte := 1#8 <<< bitIndex x

/-! ### Bit primitives -/

/-- A byte with the bits of `m` all written with `v` (40_translate_access.md R84). -/
def mergeBit (b m : Byte) (v : Bool) : Byte := (b &&& ~~~m) ||| (if v then m else 0x00)

/-- 40_translate_access.md R84. -/
def fbSetBit (fb : Memory) (x y : Coord) (v : Bool) : Except Fault Memory :=
  if inRange x y then do
    let b ← portRead fb (offset x y)
    portWrite fb (offset x y) (mergeBit b (bitMask x) v)
  else .ok fb

/-- 40_translate_access.md R85, over FB or SNAP. -/
def bitGet (m : Memory) (x y : Coord) : Except Fault Bool :=
  if inRange x y then do
    let b ← portRead m (offset x y)
    pure ((b &&& bitMask x) != 0)
  else .ok false

/-! ### ActiveRegion (00_scope.md R10, 41_snapshot_mask.md R102) -/

/-- The x coordinate of region column i. -/
def cellX (b : Build) (i : Nat) : Coord := BitVec.ofNat 16 (b.x0 + i)

/-- The y coordinate of region row j. -/
def cellY (b : Build) (j : Nat) : Coord := BitVec.ofNat 16 (b.y0 + j)

/-- 41_snapshot_mask.md R102. -/
def inRegion (b : Build) (x y : Coord) : Bool :=
  decide (b.x0 ≤ x.toNat ∧ x.toNat < b.x0 + b.R ∧ b.y0 ≤ y.toNat ∧ y.toNat < b.y0 + b.R)

/-- The one-cell ring just outside the region (41_snapshot_mask.md R104, 42_stepper.md R126). -/
def inRing (b : Build) (x y : Coord) : Bool :=
  decide (b.x0 ≤ x.toNat + 1 ∧ x.toNat ≤ b.x0 + b.R ∧ b.y0 ≤ y.toNat + 1 ∧ y.toNat ≤ b.y0 + b.R)
    && !inRegion b x y

/-- The region's cells (i, j) in row-major order (00_scope.md R14). -/
def regionCells (b : Build) : List (Nat × Nat) :=
  (List.range b.R).flatMap fun j => (List.range b.R).map fun i => (i, j)

/-! ### RESULT formats (10_state.md R24) -/

/-- `zext_32(bit)`. -/
def resultOfBit (v : Bool) : Word32 := (BitVec.ofBool v).setWidth 32

/-- `VALID :: 0000000 :: MASK[7:0] :: 000 :: OFFSET[12:0]` with VALID = 1. -/
def resultOfAddress (m : Byte) (o : PortOffset) : Word32 := 1#1 ++ 0#7 ++ m ++ 0#3 ++ o

end Sys2Proof.Machine
end

