-- ==== Sys2Proof/Machine/SnapshotMask.lean ====
section
/-! DEFINITION. The GenerationSnapshot and the DirtyMask encoder (41_snapshot_mask.md). -/

namespace Sys2Proof.Machine

/-- The two status writes that end the SNAPSHOT body (41_snapshot_mask.md R100). -/
def State.snapshotTaken (s : State) : State := (s.setSnapValid true).setMaskValid false

/-- The SNAPSHOT body (41_snapshot_mask.md R100). -/
def snapshotBody (s : State) : State :=
  State.snapshotTaken { s with snap := Memory.copyBytes s.fb }

/-- The offsets {-1, 0, +1} in the order of 41_snapshot_mask.md R103's loops. -/
def deltas : List Int := [-1, 0, 1]

/-- The inner loops of 41_snapshot_mask.md R103: flag a live cell and its neighbours, clamped at the
region edge. -/
def flagAround (R : Nat) (m : DirtyMask) (i j : Nat) : DirtyMask :=
  deltas.foldl (fun m dj => deltas.foldl (fun m di =>
    let a : Int := i + di
    let c : Int := j + dj
    if 0 ≤ a ∧ a < R ∧ 0 ≤ c ∧ c < R then DirtyMask.flag m a.toNat c.toNat else m) m) m

/-- One visit of 41_snapshot_mask.md R103's outer loops: the region cell (i, j). -/
def flagVisit (b : Build) (snap : Memory) (m : DirtyMask) (i j : Nat) : Except Fault DirtyMask := do
  let live ← bitGet snap (cellX b i) (cellY b j)
  pure (if live then flagAround b.R m i j else m)

/-- MASK rebuilt from SNAP (41_snapshot_mask.md R103). -/
def buildMask (b : Build) (snap : Memory) : Except Fault DirtyMask :=
  (regionCells b).foldlM (fun m c => flagVisit b snap m c.1 c.2) DirtyMask.clear

/-- The BUILD_MASK body, its precondition met (41_snapshot_mask.md R103). -/
def buildMaskBody (s : State) : Except Fault State := do
  let m ← buildMask s.build s.snap
  pure ({ s with mask := m }.setMaskValid true)

/-- 41_snapshot_mask.md R100. -/
def execSnapshot (s : State) : Host.Outcome State Fault Refusal := .next (snapshotBody s)

/-- 41_snapshot_mask.md R103. -/
def execBuildMask (s : State) : Host.Outcome State Fault Refusal :=
  if s.snapValid then outcomeOf (buildMaskBody s) else .next (s.raise .seqErr)

/-- 41_snapshot_mask.md R105. -/
def execMget (i j : Coord) (s : State) : Host.Outcome State Fault Refusal :=
  if s.maskValid then
    .next { s with result :=
      if i.toNat < s.build.R ∧ j.toNat < s.build.R
      then resultOfBit (DirtyMask.get s.mask i.toNat j.toNat) else 0 }
  else .next (s.raise .seqErr)

end Sys2Proof.Machine
end

