-- ==== Sys2Proof/Machine/Stepper.lean ====
section
/-! DEFINITION. The AutomatonStepper (42_stepper.md): neighbour counter, rule evaluator, write-back
multiplexer, and the commands STEP and TICK. -/

namespace Sys2Proof.Machine

/-- The eight (dx, dy) of the Moore neighbourhood, −1 as 0xFFFF (42_stepper.md R120). -/
def mooreOffsets : List (Coord × Coord) :=
  [(0xFFFF, 0xFFFF), (0, 0xFFFF), (1, 0xFFFF), (0xFFFF, 0), (1, 0), (0xFFFF, 1), (0, 1), (1, 1)]

/-- 42_stepper.md R120: always over SNAP; 16-bit wrapping coordinates. -/
def neighbourCount (snap : Memory) (x y : Coord) : Except Fault (BitVec 4) := do
  let bits ← mooreOffsets.mapM (fun d => bitGet snap (x + d.1) (y + d.2))
  pure (BitVec.ofNat 4 (bits.countP (fun v => v)))

/-- 42_stepper.md R121, the closed form. -/
def lifeRule (alive : Bool) (n : BitVec 4) : Bool := n == 3 || (alive && n == 2)

/-- What STEP does at one cell: evaluate from SNAP, write to FB (42_stepper.md R122, R123). -/
def stepCell (snap fb : Memory) (x y : Coord) : Except Fault Memory := do
  let alive ← bitGet snap x y
  let n ← neighbourCount snap x y
  fbSetBit fb x y (lifeRule alive n)

/-- One visit of 42_stepper.md R123's loops: the region cell (i, j), if it is flagged. -/
def stepVisit (b : Build) (mask : DirtyMask) (snap fb : Memory) (i j : Nat) : Except Fault Memory :=
  if DirtyMask.get mask i j then stepCell snap fb (cellX b i) (cellY b j) else .ok fb

/-- FB after the visits of a list of cells. STEP visits `regionCells` (42_stepper.md R123). -/
def stepCells (b : Build) (mask : DirtyMask) (snap fb : Memory) (cells : List (Nat × Nat)) :
    Except Fault Memory :=
  cells.foldlM (fun fb c => stepVisit b mask snap fb c.1 c.2) fb

/-- The reference function FullStep: every region cell, flagged or not (42_stepper.md R125). -/
def fullStep (b : Build) (snap fb : Memory) : Except Fault Memory :=
  (regionCells b).foldlM (fun fb c => stepCell snap fb (cellX b c.1) (cellY b c.2)) fb

/-- The STEP body, its precondition met (42_stepper.md R123). -/
def stepBody (s : State) : Except Fault State := do
  let fb ← stepCells s.build s.mask s.snap s.fb (regionCells s.build)
  pure { s with fb := fb }

/-- 42_stepper.md R123. -/
def execStep (s : State) : Host.Outcome State Fault Refusal :=
  if s.maskValid then outcomeOf (stepBody s) else .next (s.raise .seqErr)

/-- 42_stepper.md R133: the three bodies; their preconditions hold by construction. -/
def execTick (s : State) : Host.Outcome State Fault Refusal :=
  outcomeOf do
    let s ← buildMaskBody (snapshotBody s)
    stepBody s

end Sys2Proof.Machine
end

