-- ==== Sys2Proof/Machine/Translate.lean ====
section
/-! DEFINITION. The AddressTranslator and accessor commands (40_translate_access.md section 2). -/

namespace Sys2Proof.Machine

/-- 40_translate_access.md R89. -/
def execXlate (x y : Coord) (s : State) : Host.Outcome State Fault Refusal :=
  .next { s with result := if inRange x y then resultOfAddress (bitMask x) (offset x y) else 0 }

/-- 40_translate_access.md R87. -/
def execGet (x y : Coord) (s : State) : Host.Outcome State Fault Refusal :=
  outcomeOf do
    let v ← bitGet s.fb x y
    pure { s with result := resultOfBit v }

/-- 40_translate_access.md R86. -/
def execSet (x y : Coord) (v : Bool) (s : State) : Host.Outcome State Fault Refusal :=
  outcomeOf do
    let fb ← fbSetBit s.fb x y v
    pure { s with fb := fb }

/-- 40_translate_access.md R88. -/
def execSget (x y : Coord) (s : State) : Host.Outcome State Fault Refusal :=
  if s.snapValid then
    outcomeOf do
      let v ← bitGet s.snap x y
      pure { s with result := resultOfBit v }
  else .next (s.raise .seqErr)

end Sys2Proof.Machine
end

