-- ==== Sys2Proof/Machine/Dispatch.lean ====
section
/-! DEFINITION. One arm per command of 30_encoding.md R64. -/

namespace Sys2Proof.Machine

def exec (i : Instr) (s : State) : Host.Outcome State Fault Refusal :=
  match i with
  | .nop => Sys2Proof.Machine.execNop s
  | .xlate x y => Sys2Proof.Machine.execXlate x y s
  | .get x y => Sys2Proof.Machine.execGet x y s
  | .set x y v => Sys2Proof.Machine.execSet x y v s
  | .snapshot => Sys2Proof.Machine.execSnapshot s
  | .buildMask => Sys2Proof.Machine.execBuildMask s
  | .step => Sys2Proof.Machine.execStep s
  | .tick => Sys2Proof.Machine.execTick s
  | .sget x y => Sys2Proof.Machine.execSget x y s
  | .mget a b => Sys2Proof.Machine.execMget a b s
  | .clrstat => Sys2Proof.Machine.execClrstat s

end Sys2Proof.Machine
end

