-- ==== Sys2Proof/Machine/Flight.lean ====
section
/-! DEFINITION. A command opened up: what happens from its acceptance to its completion, one visit or
one port access a step (10_state.md R29, 20_memory.md R42 to R44). The order of the visits is the
spec's row-major order (42_stepper.md R123, D16); a micro-step is no clock cycle (70 R191). -/

namespace Sys2Proof.Machine

/-- Accept a command word: latch it, BUSY <- 1 (10_state.md R23, R29). The cursor, counter and
latches start at 0 and are written before they are read (DESIGN CHOICE, log entry 22). -/
def accept (w : CmdWord) (s : State) : State :=
  let f : InFlight :=
    { word := w, phase := .start, counter := 0, i := 0, j := 0, alive := false, count := 0,
      latch := 0, fbBefore := s.fb }
  { s.setBusy true with flight := some f }

/-- The command is complete: its transient state is gone, BUSY <- 0 (10_state.md R23, R29). -/
def complete (s : State) : State := { s.setBusy false with flight := none }

/-- Go on with the executing command. -/
def continueWith (s : State) (f : InFlight) : State := { s with flight := some f }

/-- Whether the latched word is TICK, whose three bodies follow each other (42_stepper.md R133). -/
def InFlight.isTick (f : InFlight) : Bool :=
  match decode f.word with
  | .ok .tick => true
  | _ => false

/-- The next cursor position in row-major order, none after the last cell (00_scope.md R14). -/
def nextCell (b : Build) (i j : Nat) : Option (Nat × Nat) :=
  if i + 1 < b.R then some (i + 1, j)
  else if j + 1 < b.R then some (0, j + 1)
  else none

/-- Start the BUILD_MASK body: clear MASK, cursor at the first cell (41_snapshot_mask.md R103). -/
def startFlagging (f : InFlight) (s : State) : State :=
  continueWith { s with mask := DirtyMask.clear } { f with phase := .flag, i := 0, j := 0 }

/-- Start the STEP body: cursor at the first cell (42_stepper.md R123). -/
def startStepping (f : InFlight) (s : State) : State :=
  continueWith s { f with phase := .eval, i := 0, j := 0 }

/-- The BUILD_MASK body has visited a cell: go to the next, or end it. -/
def afterFlagging (f : InFlight) (s : State) : State :=
  match nextCell s.build f.i f.j with
  | some (i, j) => continueWith s { f with i := i, j := j }
  | none =>
    let s := s.setMaskValid true
    if f.isTick then startStepping f s else complete s

/-- The STEP body has visited a cell: go to the next, or end it. -/
def afterStepping (f : InFlight) (s : State) : State :=
  match nextCell s.build f.i f.j with
  | some (i, j) => continueWith s { f with phase := .eval, i := i, j := j }
  | none => complete s

/-- The cell and the value of a bit write in progress: SET's operands, or the cursor's cell and the
rule's result (42_stepper.md R122). -/
def writeTarget (f : InFlight) (b : Build) : Coord × Coord × Bool :=
  match decode f.word with
  | .ok (.set x y v) => (x, y, v)
  | _ => (cellX b f.i, cellY b f.j, lifeRule f.alive f.count)

/-- The byte offset of the bit write in progress. -/
def writeOffset (f : InFlight) (b : Build) : PortOffset :=
  offset (writeTarget f b).1 (writeTarget f b).2.1

/-- The byte a bit write in progress puts back (40_translate_access.md R84, 42_stepper.md R122). -/
def writeByte (f : InFlight) (b : Build) : Byte :=
  mergeBit f.latch (bitMask (writeTarget f b).1) (writeTarget f b).2.2

/-- The first micro-step: decode and check (60_exceptions.md R162), then either the whole effect of a
command that needs no loop, or the start of its loop. -/
def startCommand (f : InFlight) (s : State) : Host.Outcome State Fault Refusal :=
  match decode f.word with
  | .error _ => .next (complete (s.raise .ill))
  | .ok i =>
    match i with
    | .set x y _ =>
      if inRange x y then .next (continueWith s { f with phase := .readByte }) else .next (complete s)
    | .snapshot | .tick => .next (continueWith s { f with phase := .copy, counter := 0 })
    | .buildMask =>
      if s.snapValid then .next (startFlagging f s) else .next (complete (s.raise .seqErr))
    | .step =>
      if s.maskValid then .next (startStepping f s) else .next (complete (s.raise .seqErr))
    | i =>
      match exec i s with
      | .next t => .next (complete t)
      | .fault e => .fault e
      | .refused r => .refused r

/-- SNAP[o] <- FbRead(o) at the byte counter (41_snapshot_mask.md R100). -/
def copyStep (f : InFlight) (s : State) : Except Fault State := do
  let b ← portRead s.fb f.counter
  let snap ← portWrite s.snap f.counter b
  let s := { s with snap := snap }
  if f.counter.toNat + 1 < Config.fbBytes then
    pure (continueWith s { f with counter := f.counter + 1 })
  else
    let s := s.snapshotTaken
    pure (if f.isTick then startFlagging f s else complete s)

/-- One visit of BUILD_MASK (41_snapshot_mask.md R103). -/
def flagStep (f : InFlight) (s : State) : Except Fault State := do
  let m ← flagVisit s.build s.snap s.mask f.i f.j
  pure (afterFlagging f { s with mask := m })

/-- One visit of STEP: an unflagged cell is passed over (42_stepper.md R128), a flagged one is
evaluated (R120, R121). -/
def evalStep (f : InFlight) (s : State) : Except Fault State :=
  if DirtyMask.get s.mask f.i f.j then do
    let alive ← bitGet s.snap (cellX s.build f.i) (cellY s.build f.j)
    let n ← neighbourCount s.snap (cellX s.build f.i) (cellY s.build f.j)
    pure (continueWith s { f with phase := .readByte, alive := alive, count := n })
  else .ok (afterStepping f s)

/-- The read of a bit write (40_translate_access.md R84). -/
def readStep (f : InFlight) (s : State) : Except Fault State := do
  let b ← portRead s.fb (writeOffset f s.build)
  pure (continueWith s { f with phase := .writeBack, latch := b })

/-- The write of a bit write (40_translate_access.md R84). -/
def writeStep (f : InFlight) (s : State) : Except Fault State := do
  let fb ← portWrite s.fb (writeOffset f s.build) (writeByte f s.build)
  let s := { s with fb := fb }
  pure (match decode f.word with
    | .ok (.set _ _ _) => complete s
    | _ => afterStepping f s)

/-- One micro-step of the executing command. -/
def microStep (f : InFlight) (s : State) : Host.Outcome State Fault Refusal :=
  match f.phase with
  | .start => startCommand f s
  | .copy => outcomeOf (copyStep f s)
  | .flag => outcomeOf (flagStep f s)
  | .eval => outcomeOf (evalStep f s)
  | .readByte => outcomeOf (readStep f s)
  | .writeBack => outcomeOf (writeStep f s)

end Sys2Proof.Machine
end

