-- ==== Sys2Proof/Machine/HostPort.lean ====
section
/-! DEFINITION. The host's side of the block: a command word from the handshake (20_memory.md R50),
reset and power (70_reset_and_hazards.md section 1), and what the port's signals carry (20_memory.md
R42). -/

namespace Sys2Proof.Machine

/-- `cmd_ready` (20_memory.md R50): no command executes. -/
def cmdReady (s : State) : Bool := s.flight.isNone

/-- A command word as one atomic transaction (00_scope.md R15): an illegal word raises ILL
(30_encoding.md R66), a legal one is executed. -/
def runWord (w : CmdWord) (s : State) : Host.Outcome State Fault Refusal :=
  match decode w with
  | .ok i => exec i s
  | .error _ => .next (s.raise .ill)

/-- FB as the executing command would have left it, had it been completed (70_reset_and_hazards.md
R182: "the value the command would have written"). -/
def fbIfCompleted (f : InFlight) (s : State) : Memory :=
  match runWord f.word { s with fb := f.fbBefore, flight := none } with
  | .next t => t.fb
  | _ => f.fbBefore

/-- FB after a reset: untouched at a command boundary (10_state.md R31); during a command each bit
that the command would write is old or new (70_reset_and_hazards.md R182). -/
def fbAfterReset (s : State) : Memory :=
  match s.flight with
  | none => s.fb
  | some f => Memory.mix (Config.resetWritten s.draws) f.fbBefore (fbIfCompleted f s)

/-- STATUS and RESULT 0, transient state discarded, SNAP and MASK unspecified (10_state.md R31); the
next reset draws other free values. -/
def clearRegisters (s : State) : State :=
  { s with
    snap := Memory.tabulate (Config.resetSnapByte s.draws)
    mask := DirtyMask.unspecified s.draws s.build.R
    status := 0, result := 0, flight := none, draws := s.draws + 1 }

/-- `rst` asserted and released (70_reset_and_hazards.md R180, R182). -/
def resetBlock (s : State) : State := clearRegisters { s with fb := fbAfterReset s }

/-- Power off and on: all state is lost (60_exceptions.md R171), FB included (D24), then reset. -/
def powerCycle (s : State) : State :=
  clearRegisters { s with fb := Memory.tabulate (Config.powerUpFbByte s.draws) }

/-- A step in which the block takes nothing from the host: it goes on with its command, or stays
idle (60_exceptions.md R171, 70_reset_and_hazards.md R181). -/
def advance (s : State) : Host.Outcome State Fault Refusal :=
  match s.flight with
  | none => .next s
  | some f => microStep f s

/-- One step: the host's next act, if the block can take it now. A command offered while BUSY = 1
waits on the handshake (20_memory.md R50); a reset does not wait (70_reset_and_hazards.md R182). -/
def takeInput (s : State) : Host.Outcome State Fault Refusal :=
  match s.inputs with
  | [] => advance s
  | .quiet :: rest => advance { s with inputs := rest }
  | .reset :: rest => .next (resetBlock { s with inputs := rest })
  | .powerCycle :: rest => .next (powerCycle { s with inputs := rest })
  | .command w :: rest => if cmdReady s then runWord w { s with inputs := rest } else advance s
  | .issue w :: rest => if cmdReady s then .next (accept w { s with inputs := rest }) else advance s

/-- The state with a command word next on an idle handshake (BUSY = 0). -/
def offerWord (w : CmdWord) (s : State) : State :=
  { s.setBusy false with flight := none, inputs := .command w :: s.inputs }

/-! ### The display-memory port's outputs (20_memory.md R42) -/

/-- `fb_re`, `fb_we`, `fb_off`, `fb_wdata`. `fb_off` means something under a strobe only, `fb_wdata`
under `we` only (log entry 23). -/
structure PortSignals where
  re    : Bool
  we    : Bool
  off   : PortOffset
  wdata : Byte
deriving DecidableEq, Repr

/-- What `fb_off` carries without a strobe: a free value, below 6144 as 20_memory.md R42 says of every
offset driven; the spec gives no other word on it (DESIGN CHOICE, log entry 23). -/
opaque undrivenOff : State → Fin Config.fbBytes

/-- What `fb_wdata` carries but in a write: a free value, since the spec gives none (20_memory.md R42,
R44; DESIGN CHOICE, log entry 23). -/
opaque undrivenData : State → Byte

/-- No strobe; the offset and the data are free (log entry 23). -/
def portIdle (s : State) : PortSignals :=
  { re := false, we := false, off := BitVec.ofNat _ (undrivenOff s).val, wdata := undrivenData s }

/-- A read at an offset; the write data are free (log entry 23). -/
def portReads (s : State) (o : PortOffset) : PortSignals :=
  { re := true, we := false, off := o, wdata := undrivenData s }

/-- A write of a byte at an offset. -/
def portWrites (o : PortOffset) (b : Byte) : PortSignals :=
  { re := false, we := true, off := o, wdata := b }

/-- What the block drives on its display-memory port during its next micro-step (20_memory.md R42,
R44). -/
def portSignals (s : State) : PortSignals :=
  match s.flight with
  | none => portIdle s
  | some f =>
    match f.phase with
    | .start =>
      match decode f.word with
      | .ok (.get x y) => if inRange x y then portReads s (offset x y) else portIdle s
      | _ => portIdle s
    | .copy => portReads s f.counter
    | .flag => portIdle s
    | .eval => portIdle s
    | .readByte => portReads s (writeOffset f s.build)
    | .writeBack => portWrites (writeOffset f s.build) (writeByte f s.build)

end Sys2Proof.Machine
end

