-- ==== Sys2Proof/Machine/Step.lean ====
section
/-! DEFINITION. One step of the machine. -/

namespace Sys2Proof.Machine

/-- One step (00_scope.md R15): the block takes the host's next act, or goes on. -/
def step (s : State) : Host.Outcome State Fault Refusal := takeInput s

/-- The state whose very next step executes the word `w` of `nbits` bits. The block fetches nothing
(20_memory.md R54): a command comes from the host's handshake, so the word is put next on it, with
no command executing. -/
def State.withFetchWord (s : State) (nbits w : Nat) : State :=
  offerWord (BitVec.ofNat 64 (w % 2 ^ nbits)) s

end Sys2Proof.Machine
end

