-- ==== Sys2Proof/Machine/Assembler.lean ====
section
/-! DEFINITION. The assembler of 30_encoding.md section 4 (R68, R69): from the text of a line to the
command words the host sends. What the rule leaves open of the text is log entry 18. -/

namespace Sys2Proof.Machine

/-- An operand as a field of the word; -1 is 0xFFFF (30_encoding.md R68). -/
def asmCoord (n : Int) : Coord := BitVec.ofInt 16 n

/-- The commands a line stands for, its operands admitted (30_encoding.md R68, R69). -/
def asmExpand : AsmLine → List Instr
  | .nop => [.nop]
  | .xlate x y => [.xlate (asmCoord x) (asmCoord y)]
  | .get x y => [.get (asmCoord x) (asmCoord y)]
  | .set x y v => [.set (asmCoord x) (asmCoord y) (v == 1)]
  | .snapshot => [.snapshot]
  | .buildMask => [.buildMask]
  | .step => [.step]
  | .tick => [.tick]
  | .sget x y => [.sget (asmCoord x) (asmCoord y)]
  | .mget i j => [.mget (asmCoord i) (asmCoord j)]
  | .clrstat => [.clrstat]
  | .plot x y => [.set (asmCoord x) (asmCoord y) true]
  | .unplot x y => [.set (asmCoord x) (asmCoord y) false]
  | .ticks n => List.replicate n.toNat .tick
  | .tick3 => [.snapshot, .buildMask, .step]

/-- The words of a line; `none` where the assembler refuses an operand (30_encoding.md R68). -/
def assemble (l : AsmLine) : Option (List CmdWord) :=
  if l.wellFormed then some ((asmExpand l).map encode) else none

/-! ### Text -/

/-- A space or a tab. -/
def asmBlank (c : Char) : Bool := c == ' ' || c == '\t'

/-- A line without its comment (30_encoding.md R68: `;` starts a comment). -/
def asmCode (line : List Char) : List Char := line.takeWhile (fun c => c != ';')

/-- A piece of text without the blanks around it. -/
def asmTrim (t : List Char) : List Char :=
  ((t.dropWhile asmBlank).reverse.dropWhile asmBlank).reverse

/-- The value of a digit in base 10 or 16. -/
def asmDigit (base : Nat) (c : Char) : Option Nat :=
  let d :=
    if '0' ≤ c ∧ c ≤ '9' then some (c.toNat - '0'.toNat)
    else if 'a' ≤ c ∧ c ≤ 'f' then some (c.toNat - 'a'.toNat + 10)
    else if 'A' ≤ c ∧ c ≤ 'F' then some (c.toNat - 'A'.toNat + 10)
    else none
  d.filter (fun v => v < base)

/-- A number of at least one digit. -/
def asmNumber (base : Nat) (t : List Char) : Option Nat :=
  if t.isEmpty then none
  else t.foldlM (fun acc c => (asmDigit base c).map (fun d => acc * base + d)) 0

/-- An operand: a decimal or 0x-prefixed hexadecimal literal, or -1 (30_encoding.md R68). -/
def asmOperand (t : List Char) : Option Int :=
  match t with
  | ['-', '1'] => some (-1)
  | '0' :: 'x' :: digits => (asmNumber 16 digits).map Int.ofNat
  | digits => (asmNumber 10 digits).map Int.ofNat

/-- The pieces between commas. -/
def asmSplit : List Char → List (List Char)
  | [] => [[]]
  | c :: rest =>
    if c == ',' then [] :: asmSplit rest
    else
      match asmSplit rest with
      | piece :: more => (c :: piece) :: more
      | [] => [[c]]

/-- The operands after a mnemonic (30_encoding.md R68). -/
def asmOperands (t : List Char) : Option (List Int) :=
  if (asmTrim t).isEmpty then some []
  else (asmSplit t).mapM (fun piece => asmOperand (asmTrim piece))

/-- A line without operands. -/
def asmForm0 (l : AsmLine) (args : List Int) : Option AsmLine :=
  match args with
  | [] => some l
  | _ => none

/-- A line with one operand. -/
def asmForm1 (l : Int → AsmLine) (args : List Int) : Option AsmLine :=
  match args with
  | [a] => some (l a)
  | _ => none

/-- A line with two operands. -/
def asmForm2 (l : Int → Int → AsmLine) (args : List Int) : Option AsmLine :=
  match args with
  | [a, b] => some (l a b)
  | _ => none

/-- A line with three operands. -/
def asmForm3 (l : Int → Int → Int → AsmLine) (args : List Int) : Option AsmLine :=
  match args with
  | [a, b, c] => some (l a b c)
  | _ => none

/-- The mnemonics and pseudo-instructions, with the operands they take (30_encoding.md R68, R69). -/
def asmForms : List (List Char × (List Int → Option AsmLine)) :=
  [(['N', 'O', 'P'], asmForm0 .nop),
   (['X', 'L', 'A', 'T', 'E'], asmForm2 .xlate),
   (['G', 'E', 'T'], asmForm2 .get),
   (['S', 'E', 'T'], asmForm3 .set),
   (['S', 'N', 'A', 'P', 'S', 'H', 'O', 'T'], asmForm0 .snapshot),
   (['B', 'U', 'I', 'L', 'D', '_', 'M', 'A', 'S', 'K'], asmForm0 .buildMask),
   (['S', 'T', 'E', 'P'], asmForm0 .step),
   (['T', 'I', 'C', 'K'], asmForm0 .tick),
   (['S', 'G', 'E', 'T'], asmForm2 .sget),
   (['M', 'G', 'E', 'T'], asmForm2 .mget),
   (['C', 'L', 'R', 'S', 'T', 'A', 'T'], asmForm0 .clrstat),
   (['P', 'L', 'O', 'T'], asmForm2 .plot),
   (['U', 'N', 'P', 'L', 'O', 'T'], asmForm2 .unplot),
   (['T', 'I', 'C', 'K', 'S'], asmForm1 .ticks),
   (['T', 'I', 'C', 'K', '3'], asmForm0 .tick3)]

/-- A line of text: nothing for an empty line or a comment, else one assembly line; `none` where the
text is none of the forms of 30_encoding.md R68 and R69. -/
def asmParse (line : List Char) : Option (List AsmLine) :=
  let code := asmTrim (asmCode line)
  if code.isEmpty then some []
  else
    let name := code.takeWhile (fun c => !asmBlank c)
    match asmForms.find? (fun form => form.1 == name) with
    | none => none
    | some form => do
      let args ← asmOperands (code.dropWhile (fun c => !asmBlank c))
      let l ← form.2 args
      pure [l]

/-- The words of a program text, line by line; `none` where any line is refused. -/
def assembleText (lines : List (List Char)) : Option (List CmdWord) := do
  let parsed ← lines.mapM asmParse
  let words ← parsed.flatten.mapM assemble
  pure words.flatten

end Sys2Proof.Machine
end

