-- ==== Sys2Proof/Machine/Display.lean ====
section
/-! DEFINITION. The display: a reader of FB without synchronisation (00_scope.md R17, 20_memory.md
R45, R47). Its reads have no effect on the block (R46), so they are functions of the state. -/

namespace Sys2Proof.Machine

/-- The system address of an FB offset (00_scope.md R12, 20_memory.md R42). -/
def systemAddress (o : PortOffset) : Nat := Config.fbBase + o.toNat

/-- A display read between commands: exactly the byte FB holds (20_memory.md R47). -/
def displayRead (s : State) (o : PortOffset) : Except Fault Byte := portRead s.fb o

/-- Whether a display read during a command may return `seen`: every bit holds its value before the
command or its value after it (20_memory.md R47). This and no more may be relied on (D18). -/
def displayMaySee (before after seen : Byte) : Bool :=
  (List.range 8).all fun k =>
    seen.getLsbD k == before.getLsbD k || seen.getLsbD k == after.getLsbD k

/-- A display read during a command that takes FB from `before` to `after`: a free choice of the
bits already changed, another one for every read `n` (93_implementation_defined.md I4). -/
def displayReadDuring (n : Nat) (before after : Memory) (o : PortOffset) : Except Fault Byte := do
  let old ← portRead before o
  let new ← portRead after o
  pure (mixByte (Config.displayChanged n o.toNat) old new)

/-- 40_translate_access.md R90, the x of bit b of byte o. -/
def scanX (o : PortOffset) (b : BitVec 3) : Coord := (o.extractLsb' 0 5 ++ (7 - b)).setWidth 16

/-- 40_translate_access.md R90, the y of byte o. -/
def scanY (o : PortOffset) : Coord :=
  (o.extractLsb' 11 2 ++ o.extractLsb' 5 3 ++ o.extractLsb' 8 3).setWidth 16

end Sys2Proof.Machine
end

