-- ==== Sys2Proof/Machine/Observe.lean ====
section
/-! DEFINITION. The terms claims are stated in: the value of a cell, the number of live neighbours,
one generation of Life, a configuration that leaves the ring dead. Plain functions of the arrays,
without the ports; `Laws/` proves that the commands compute them. -/

namespace Sys2Proof.Machine

/-- The cell (x, y) of FB or SNAP: bit `7 − x[2:0]` of byte Offset(x, y) (10_state.md R25), dead
outside the grid (40_translate_access.md R85). -/
def cellAt (m : Memory) (x y : Coord) : Bool :=
  inRange x y && (Memory.read m (offset x y).toNat).getLsbD (bitIndex x)

/-- The number of live Moore neighbours (42_stepper.md R120), exact. -/
def liveNeighbours (m : Memory) (x y : Coord) : Nat :=
  mooreOffsets.countP fun d => cellAt m (x + d.1) (y + d.2)

/-- The next value of a cell (42_stepper.md R121): survive on 2 or 3, be born on 3. -/
def nextValue (m : Memory) (x y : Coord) : Bool :=
  if cellAt m x y then liveNeighbours m x y == 2 || liveNeighbours m x y == 3
  else liveNeighbours m x y == 3

/-- Whether the region cell (i, j) has a live region cell of SNAP at or around it: the union of
41_snapshot_mask.md R106. -/
def nearLive (b : Build) (snap : Memory) (i j : Nat) : Prop :=
  ∃ a c, a < b.R ∧ c < b.R ∧ a ≤ i + 1 ∧ i ≤ a + 1 ∧ c ≤ j + 1 ∧ j ≤ c + 1 ∧
    cellAt snap (cellX b a) (cellY b c) = true

/-- Premise (a) of 42_stepper.md R126: no live cell in the one-cell ring outside the region. -/
def ringDead (b : Build) (m : Memory) : Prop :=
  ∀ x y, inRing b x y = true → cellAt m x y = false

end Sys2Proof.Machine
end

