-- ==== Sys2Proof/Safety.lean ====
section
/-! DEFINITION. What counts as a sound state: the invariant every step keeps. A run is safe when it
never leaves it and never stops; `Obligations.lean` states both. -/

namespace Sys2Proof.Machine

/-- No bit of MASK outside R × R (10_state.md R27). -/
def maskInside (b : Build) (m : DirtyMask) : Prop :=
  ∀ i j, DirtyMask.get m i j = true → i < b.R ∧ j < b.R

/-- The latched word is this command's. -/
def InFlight.runs (f : InFlight) (i : Instr) : Prop := decode f.word = .ok i

/-- The phase belongs to the latched command, and the precondition its rule checks holds: MASK is
rebuilt only from a valid SNAP (41_snapshot_mask.md R103), cells are evaluated only under a valid
MASK (42_stepper.md R123), a bit write has a cell in range (40_translate_access.md R84). -/
def InFlight.phaseFits (f : InFlight) (s : State) : Prop :=
  match f.phase with
  | .start => True
  | .copy => f.runs .snapshot ∨ f.runs .tick
  | .flag => (f.runs .buildMask ∨ f.runs .tick) ∧ s.snapValid = true
  | .eval => (f.runs .step ∨ f.runs .tick) ∧ s.maskValid = true
  | .readByte | .writeBack =>
    (∃ x y v, f.runs (.set x y v) ∧ inRange x y = true) ∨
      ((f.runs .step ∨ f.runs .tick) ∧ s.maskValid = true)

/-- The transient state of an executing command is one its rule's pseudocode can be in (10_state.md
R29): counter and cursor in range, n in 0..8. -/
structure InFlight.Sound (f : InFlight) (s : State) : Prop where
  counter_lt : f.counter.toNat < Config.fbBytes
  cursor_i : f.i < s.build.R
  cursor_j : f.j < s.build.R
  count_le : f.count.toNat ≤ 8
  before_wf : Memory.wf f.fbBefore
  phase_fits : f.phaseFits s

/-- The invariant of the machine. -/
structure State.Inv (s : State) : Prop where
  /-- FB keeps its canonical form, with no offset that does not exist (20_memory.md R48). -/
  fb_wf : Memory.wf s.fb
  snap_wf : Memory.wf s.snap
  mask_inside : maskInside s.build s.mask
  /-- The reserved bits of STATUS read as 0 (10_state.md R23). -/
  reserved_zero : s.status &&& reservedStatus = 0
  /-- MASK_VALID = 1 implies SNAP_VALID = 1 (42_stepper.md R123). -/
  mask_needs_snap : s.maskValid = true → s.snapValid = true
  /-- BUSY = 1 while a command executes, 0 between commands (10_state.md R23). -/
  busy_iff : s.busy = s.flight.isSome
  flight_sound : ∀ f, s.flight = some f → InFlight.Sound f s

end Sys2Proof.Machine
end

