-- ==== Sys2Proof/Certificates/Slice0/Obligations.lean ====
section
/-! DEFINITION. The statements for the provers. Each docstring names the rule of spec/ it formalises.
`t = { s with fb := t.fb }` says that every field of the state but FB is as it was. -/

open Sys2Proof Sys2Proof.Machine

/-! ### Encoding -/

/-- 30_encoding.md R61, R64, R67: decoding an encoded command gives it back, whatever its operands. -/
def Obligations.DecodeOfEncode : Prop :=
  ∀ i : Instr, decode (encode i) = .ok i

/-- 30_encoding.md R66, last sentence: no two words stand for one command. -/
def Obligations.EncodeOfDecode : Prop :=
  ∀ (w : CmdWord) (i : Instr), decode w = .ok i → encode i = w

/-- 30_encoding.md R66: a word is illegal exactly in the four listed cases; an illegal word is refused
by the decoder and matches no row of R64; every other word matches exactly one row, that of the
command it decodes as; an illegal word sets STATUS.ILL and changes nothing else. -/
def Obligations.EveryWordHasOneMeaning : Prop :=
  ∀ w : CmdWord,
    let illegal := 0xB ≤ (w.extractLsb' 60 4).toNat ∨ w.extractLsb' 33 27 ≠ 0 ∨
      ((w.extractLsb' 60 4).toNat ∈ [0x0, 0x4, 0x5, 0x6, 0x7, 0xA] ∧ w.extractLsb' 0 33 ≠ 0) ∨
      ((w.extractLsb' 60 4).toNat ∈ [0x1, 0x2, 0x8, 0x9] ∧ w.getLsbD 32 = true)
    (illegal → (∃ e, decode w = .error e) ∧ (∀ r ∈ opcodeRows, r.hits w = false) ∧
      ∀ s : State, runWord w s = .next { s with status := s.status ||| 0x100 }) ∧
    (¬ illegal → ∃ i, decode w = .ok i ∧ i.row.hits w = true ∧ i.row ∈ opcodeRows ∧
      ∀ r ∈ opcodeRows, r.hits w = true → r = i.row)

/-- 30_encoding.md R64 and 95_test_vectors.md section 2.8: words written out from the encoding. -/
def Obligations.SampleWordsDecode : Prop :=
  decode 0x0000000000000000 = .ok .nop ∧ decode 0x3000000100600080 = .ok (.set 128 96 true) ∧
  decode 0x10000000005F0080 = .ok (.xlate 128 95) ∧ decode 0x90000000001F001F = .ok (.mget 31 31) ∧
  decode 0x7000000000000000 = .ok .tick ∧ decode 0xA000000000000000 = .ok .clrstat ∧
  decode 0x0800000000000000 = .error .reservedBits ∧ decode 0x7000000000000001 = .error .unusedField ∧
  decode 0xB000000000000000 = .error .reservedOpcode

/-- 30_encoding.md R68, R69: a coordinate operand must be -1 or fit in 16 bits, v must be 0 or 1, the
n of TICKS at least 0; the assembler refuses every other operand. An admitted line of each of the
fifteen forms gives the words `op << 60 | v << 32 | y << 16 | x` of R68, a pseudo-instruction those of
its expansion, and the decoder reads them as the commands the line stands for. -/
def Obligations.AssembledLinesDecode : Prop :=
  let fits : Int → Prop := fun n => -1 ≤ n ∧ n ≤ 0xFFFF
  let field : Int → Coord := fun n => if n = -1 then 0xFFFF else BitVec.ofNat 16 n.toNat
  let enc : CmdWord → Coord → Coord → Bool → CmdWord := fun op x y v =>
    op <<< 60 ||| (BitVec.ofBool v).setWidth 64 <<< 32 ||| y.setWidth 64 <<< 16 ||| x.setWidth 64
  (assemble .nop = some [enc 0x0 0 0 false] ∧ assemble .snapshot = some [enc 0x4 0 0 false] ∧
    assemble .buildMask = some [enc 0x5 0 0 false] ∧ assemble .step = some [enc 0x6 0 0 false] ∧
    assemble .tick = some [enc 0x7 0 0 false] ∧ assemble .clrstat = some [enc 0xA 0 0 false] ∧
    assemble .tick3 = some [enc 0x4 0 0 false, enc 0x5 0 0 false, enc 0x6 0 0 false]) ∧
  (∀ x y : Int, fits x ∧ fits y →
    assemble (.xlate x y) = some [enc 0x1 (field x) (field y) false] ∧
    assemble (.get x y) = some [enc 0x2 (field x) (field y) false] ∧
    assemble (.sget x y) = some [enc 0x8 (field x) (field y) false] ∧
    assemble (.mget x y) = some [enc 0x9 (field x) (field y) false] ∧
    assemble (.plot x y) = some [enc 0x3 (field x) (field y) true] ∧
    assemble (.unplot x y) = some [enc 0x3 (field x) (field y) false] ∧
    assemble (.set x y 0) = some [enc 0x3 (field x) (field y) false] ∧
    assemble (.set x y 1) = some [enc 0x3 (field x) (field y) true]) ∧
  (∀ x y : Int, ¬ (fits x ∧ fits y) →
    assemble (.xlate x y) = none ∧ assemble (.get x y) = none ∧ assemble (.sget x y) = none ∧
    assemble (.mget x y) = none ∧ assemble (.plot x y) = none ∧ assemble (.unplot x y) = none ∧
    ∀ v, assemble (.set x y v) = none) ∧
  (∀ x y v : Int, v ≠ 0 → v ≠ 1 → assemble (.set x y v) = none) ∧
  (∀ n : Nat, assemble (.ticks n) = some (List.replicate n (enc 0x7 0 0 false))) ∧
  (∀ n : Int, n < 0 → assemble (.ticks n) = none) ∧
  (∀ l : AsmLine, l.wellFormed = false → assemble l = none) ∧
  (∀ l : AsmLine, l.wellFormed = true →
    ∃ ws, assemble l = some ws ∧ ws.map decode = (asmExpand l).map Except.ok)

/-- 30_encoding.md R68, R69, the text of a program: an operand is -1, a decimal or a 0x-prefixed
hexadecimal literal, and nothing else; a line is a mnemonic of R68 or R69 alone, or a mnemonic, a blank
and its operands between commas, as many as its form takes, with a comment after `;`; a line whose
mnemonic is none of them, or whose operands are not, is refused, and so is a mnemonic alone whose form
takes operands; a program's words are its lines' in order. That a literal has no sign but that of -1,
that hexadecimal digits may be capital and mnemonics may not be small, that a blank may stand behind a
line, that a line may be empty and that one refused line refuses the program is the model's choice (log
entry 18). -/
def Obligations.AssemblerReadsText : Prop :=
  let forms : List (String × (List Int → Option AsmLine)) :=
    [("NOP", fun | [] => some .nop | _ => none),
     ("SNAPSHOT", fun | [] => some .snapshot | _ => none),
     ("BUILD_MASK", fun | [] => some .buildMask | _ => none),
     ("STEP", fun | [] => some .step | _ => none),
     ("TICK", fun | [] => some .tick | _ => none),
     ("CLRSTAT", fun | [] => some .clrstat | _ => none),
     ("TICK3", fun | [] => some .tick3 | _ => none),
     ("XLATE", fun | [x, y] => some (.xlate x y) | _ => none),
     ("GET", fun | [x, y] => some (.get x y) | _ => none),
     ("SGET", fun | [x, y] => some (.sget x y) | _ => none),
     ("MGET", fun | [i, j] => some (.mget i j) | _ => none),
     ("SET", fun | [x, y, v] => some (.set x y v) | _ => none),
     ("PLOT", fun | [x, y] => some (.plot x y) | _ => none),
     ("UNPLOT", fun | [x, y] => some (.unplot x y) | _ => none),
     ("TICKS", fun | [n] => some (.ticks n) | _ => none)]
  let plain : List Char → Prop := fun t => t ≠ [] ∧ ∀ c ∈ t, c ∉ [' ', '\t', ',', ';']
  let value : Nat → List Nat → Int := fun base ds => (ds.foldl (fun n d => n * base + d) 0 : Nat)
  (∀ (t : List Char) (n : Int), asmOperand t = some n ↔
    (t = ['-', '1'] ∧ n = -1) ∨
    (∃ ds : List Nat, ds ≠ [] ∧ (∀ d ∈ ds, d < 10) ∧ t = ds.map Nat.digitChar ∧ n = value 10 ds) ∨
    (∃ (ds : List Nat) (cs : List Char), ds ≠ [] ∧ (∀ d ∈ ds, d < 16) ∧ t = '0' :: 'x' :: cs ∧
      cs.map Char.toLower = ds.map Nat.digitChar ∧ n = value 16 ds)) ∧
  (∀ form ∈ forms, ∀ ops : List (List Char), (∀ t ∈ ops, plain t) → ∀ remark : List Char,
    let line := form.1.toList ++ ' ' :: [',', ' '].intercalate ops
    let parsed := ((ops.mapM asmOperand).bind form.2).map fun l => [l]
    asmParse line = parsed ∧ asmParse (line ++ ';' :: remark) = parsed ∧
      asmParse (line ++ ' ' :: ';' :: remark) = parsed) ∧
  (∀ form ∈ forms, ∀ remark : List Char,
    let parsed := (form.2 []).map fun l => [l]
    asmParse form.1.toList = parsed ∧ asmParse (form.1.toList ++ ';' :: remark) = parsed) ∧
  (∀ name rest : List Char, plain name → (∀ form ∈ forms, form.1.toList ≠ name) →
    asmParse name = none ∧ asmParse (name ++ ' ' :: rest) = none ∧
      asmParse (name ++ ';' :: rest) = none) ∧
  (∀ remark : List Char, asmParse [] = some [] ∧ asmParse (';' :: remark) = some []) ∧
  assembleText [] = some [] ∧
  ∀ (line : List Char) (more : List (List Char)), assembleText (line :: more) =
    (asmParse line).bind fun ls => (ls.mapM assemble).bind fun ws =>
      (assembleText more).map fun rest => ws.flatten ++ rest

/-! ### The step -/

/-- 00_scope.md R15, 20_memory.md R50: when no command executes and the host offers a legal word, one
step is the command's whole effect; the word is taken from the handshake. -/
def Obligations.StepRunsOfferedCommand : Prop :=
  ∀ (s : State) (w : CmdWord) (i : Instr) (rest : List HostInput),
    s.flight = none → s.inputs = .command w :: rest → decode w = .ok i →
    step s = exec i { s with inputs := rest }

/-- 30_encoding.md R66, at the machine's step: an illegal word sets ILL and nothing else. -/
def Obligations.StepRefusesIllegalWord : Prop :=
  ∀ (s : State) (w : CmdWord) (e : Illegal) (rest : List HostInput),
    s.flight = none → s.inputs = .command w :: rest → decode w = .error e →
    step s = .next { s with inputs := rest, status := s.status ||| 0x100 }

/-- 70_reset_and_hazards.md R181, 60_exceptions.md R170: an idle block changes nothing until the host
acts. -/
def Obligations.IdleBlockStays : Prop :=
  ∀ s : State, s.flight = none → s.inputs = [] → step s = .next s

/-- 20_memory.md R50: a command offered while a command executes is not lost and not started: the
step goes on with the executing command, just as it would with nothing offered, and the offer waits. -/
def Obligations.BusyBlockHoldsOffer : Prop :=
  ∀ (s t : State) (f : InFlight) (w : CmdWord) (rest : List HostInput),
    s.flight = some f → s.inputs = .command w :: rest ∨ s.inputs = .issue w :: rest →
    step s = .next t →
    t.inputs = s.inputs ∧ ∃ u, step { s with inputs := [] } = .next u ∧ t = { u with inputs := s.inputs }

/-- 10_state.md R23, R29: accepting a command latches its word and sets BUSY, and changes nothing a
command's effect is made of. That a word which is then refused also sets BUSY is the model's reading
(DEDUCED, log entry 21); that it starts in a phase of its own, before its decoding, is log entry 19,
and that FB as it stands is recorded with it, log entry 8. -/
def Obligations.AcceptSetsBusy : Prop :=
  ∀ (s : State) (w : CmdWord) (rest : List HostInput),
    s.flight = none → s.inputs = .issue w :: rest →
    ∃ t f, step s = .next t ∧ t.flight = some f ∧ f.word = w ∧ f.phase = .start ∧
      f.fbBefore = s.fb ∧ t = { s with inputs := rest, flight := some f, status := s.status ||| 0x1 }

/-! ### Control commands -/

/-- 43_control.md R150. -/
def Obligations.NopDoesNothing : Prop :=
  (∀ s : State, exec .nop s = .next s) ∧ encode .nop = 0x0000000000000000 ∧
  ∀ (w : CmdWord) (s : State), w.extractLsb' 60 4 = 0x0 → w ≠ 0 →
    runWord w s = .next { s with status := s.status ||| 0x100 }

/-- 43_control.md R151. -/
def Obligations.ClrstatClearsStickyBits : Prop :=
  (∀ s : State, exec .clrstat s = .next { s with status := s.status &&& 0xFFFFFCFF }) ∧
  encode .clrstat = 0xA000000000000000 ∧
  (∀ (w : CmdWord) (s : State), w.extractLsb' 60 4 = 0xA → w ≠ 0xA000000000000000 →
    runWord w s = .next { s with status := s.status ||| 0x100 }) ∧
  (∀ s : State, s.ill = false → s.seqErr = false → exec .clrstat s = .next s) ∧
  (∀ s : State, s.status = 0x00000302 → exec .clrstat s = .next { s with status := 0x00000002 })

/-! ### AddressTranslator and accessor -/

/-- 40_translate_access.md R82. -/
def Obligations.MaskHasOneBit : Prop :=
  ∀ x : Coord, bitIndex x = 7 - (x.extractLsb' 0 3).toNat ∧ bitMask x = 1#8 <<< bitIndex x ∧
    bitMask x = 0x80#8 >>> (x.extractLsb' 0 3).toNat ∧
    ∀ k, k < 8 → ((bitMask x).getLsbD k = true ↔ k = 7 - x.toNat % 8)

/-- 40_translate_access.md R83: on the coordinates in range the map to (offset, bit) is a bijection
onto [0, 6144) × [0, 8). The offset itself is the layout the spec takes from general knowledge (R81,
D6; log entry 10). -/
def Obligations.TranslatorIsBijection : Prop :=
  (∀ x y, inRange x y = true → (offset x y).toNat < 6144 ∧ bitIndex x < 8) ∧
  (∀ x y x' y', inRange x y = true → inRange x' y' = true → offset x y = offset x' y' →
    bitIndex x = bitIndex x' → x = x' ∧ y = y') ∧
  (∀ o b, o < 6144 → b < 8 →
    ∃ x y, inRange x y = true ∧ (offset x y).toNat = o ∧ bitIndex x = b) ∧
  (offset 255 191).toNat = 6143

/-- 40_translate_access.md R90: the display's scan is the inverse of the translator. -/
def Obligations.ScanInvertsTranslator : Prop :=
  (∀ (o : PortOffset) (b : BitVec 3), o.toNat < 6144 →
    inRange (scanX o b) (scanY o) = true ∧ offset (scanX o b) (scanY o) = o ∧
      bitIndex (scanX o b) = b.toNat) ∧
  (∀ x y, inRange x y = true →
    scanX (offset x y) (BitVec.ofNat 3 (bitIndex x)) = x ∧ scanY (offset x y) = y)

/-- 40_translate_access.md R89 with R81, R82: RESULT after XLATE as a number, and nothing else
changes. The offset's weights are the spec's general knowledge (D6; log entry 10). -/
def Obligations.XlateWritesAddress : Prop :=
  ∀ (x y : Coord) (s : State),
    (x.toNat < 256 ∧ y.toNat < 192 → exec (.xlate x y) s = .next
      { s with
        result := BitVec.ofNat 32 (0x80000000 + 2 ^ (7 - x.toNat % 8) * 0x10000 +
          (y.toNat / 64 * 2048 + y.toNat % 8 * 256 + y.toNat / 8 % 8 * 32 + x.toNat / 8)) }) ∧
    (¬ (x.toNat < 256 ∧ y.toNat < 192) → exec (.xlate x y) s = .next { s with result := 0 })

/-- 40_translate_access.md R87 with R85: GET puts the live cell in RESULT, 0 outside the grid, and
changes nothing else. -/
def Obligations.GetReadsLiveCell : Prop :=
  ∀ (x y : Coord) (s : State), exec (.get x y) s = .next
    { s with
      result := if x.toNat < 256 ∧ y.toNat < 192 ∧
          (Memory.read s.fb (offset x y).toNat).getLsbD (7 - x.toNat % 8) = true
        then 1 else 0 }

/-- 40_translate_access.md R86 with R84: SET completes; in range it rewrites one byte, the seven other
bits as they were, and every other byte reads as before; out of range it changes nothing. -/
def Obligations.SetWritesOneBit : Prop :=
  ∀ (x y : Coord) (v : Bool) (s : State), Memory.wf s.fb →
    (¬ (x.toNat < 256 ∧ y.toNat < 192) → exec (.set x y v) s = .next s) ∧
    (x.toNat < 256 ∧ y.toNat < 192 → ∃ t, exec (.set x y v) s = .next t ∧ t = { s with fb := t.fb } ∧
      (∀ o, o ≠ (offset x y).toNat → Memory.read t.fb o = Memory.read s.fb o) ∧
      (Memory.read t.fb (offset x y).toNat = (Memory.read s.fb (offset x y).toNat &&&
        ~~~(0x80#8 >>> (x.toNat % 8))) ||| (if v then 0x80#8 >>> (x.toNat % 8) else 0)))

/-- 40_translate_access.md R88: SGET reads the frozen cell, or is refused with SEQERR. -/
def Obligations.SgetReadsFrozenCell : Prop :=
  ∀ (x y : Coord) (s : State),
    (s.snapValid = true → exec (.sget x y) s = .next
      { s with
        result := if x.toNat < 256 ∧ y.toNat < 192 ∧
            (Memory.read s.snap (offset x y).toNat).getLsbD (7 - x.toNat % 8) = true
          then 1 else 0 }) ∧
    (s.snapValid = false → exec (.sget x y) s = .next { s with status := s.status ||| 0x200 })

/-- 40_translate_access.md R91: what SET writes GET reads, and no other cell changes. -/
def Obligations.GetAfterSet : Prop :=
  ∀ (x y : Coord) (v : Bool) (s : State), Memory.wf s.fb →
    ∃ t, exec (.set x y v) s = .next t ∧
      (inRange x y = true → exec (.get x y) t = .next { t with result := if v then 1 else 0 }) ∧
      (inRange x y = false → t.fb = s.fb ∧ exec (.get x y) t = .next { t with result := 0 }) ∧
      ∀ x' y', ¬ (x' = x ∧ y' = y) → cellAt t.fb x' y' = cellAt s.fb x' y'

/-- 20_memory.md R46. -/
def Obligations.RewritingABitChangesNothing : Prop :=
  ∀ (x y : Coord) (s : State), Memory.wf s.fb →
    exec (.set x y (cellAt s.fb x y)) s = .next s ∧
    (∃ t, exec (.get x y) s = .next t ∧ t = { s with result := t.result } ∧
      exec (.get x y) t = .next t) ∧
    (s.snapValid = true → ∃ t, exec (.sget x y) s = .next t ∧ t = { s with result := t.result } ∧
      exec (.sget x y) t = .next t)

/-- 60_exceptions.md R161. -/
def Obligations.OutOfRangeIsNoError : Prop :=
  ∀ (x y : Coord) (v : Bool) (s : State),
    (¬ (x.toNat < 256 ∧ y.toNat < 192) →
      exec (.set x y v) s = .next s ∧ exec (.get x y) s = .next { s with result := 0 } ∧
      exec (.xlate x y) s = .next { s with result := 0 } ∧
      (s.snapValid = true → exec (.sget x y) s = .next { s with result := 0 })) ∧
    (s.build.R ≤ x.toNat ∨ s.build.R ≤ y.toNat → s.maskValid = true →
      exec (.mget x y) s = .next { s with result := 0 })

/-! ### Snapshot and dirty mask -/

/-- 41_snapshot_mask.md R100: SNAPSHOT copies every byte, sets SNAP_VALID, clears MASK_VALID, and
changes nothing else; taken twice it is as taken once. -/
def Obligations.SnapshotCopiesEveryByte : Prop :=
  ∀ s : State, ∃ t, exec .snapshot s = .next t ∧
    (∀ o, o < 6144 → Memory.read t.snap o = Memory.read s.fb o) ∧
    t.snapValid = true ∧ t.maskValid = false ∧
    (∀ k, k < 32 → k ≠ 1 → k ≠ 2 → t.status.getLsbD k = s.status.getLsbD k) ∧
    t = { s with snap := t.snap, status := t.status } ∧ exec .snapshot t = .next t

/-- 41_snapshot_mask.md R103 with R106: BUILD_MASK flags exactly the region cells with a live region
cell of SNAP at or around them and sets MASK_VALID, or is refused with SEQERR; run twice it is as
run once. -/
def Obligations.BuildMaskFlagsNeighbourhoods : Prop :=
  ∀ s : State,
    (s.snapValid = true → ∃ t, exec .buildMask s = .next t ∧
      (∀ i j, DirtyMask.get t.mask i j = true ↔
        i < s.build.R ∧ j < s.build.R ∧ nearLive s.build s.snap i j) ∧
      t = { s with mask := t.mask, status := s.status ||| 0x4 } ∧ exec .buildMask t = .next t) ∧
    (s.snapValid = false → exec .buildMask s = .next { s with status := s.status ||| 0x200 })

/-- 41_snapshot_mask.md R106, the counts: one live region cell flags 9 cells inside, 6 on an edge, 4 in
a corner. -/
def Obligations.IsolatedCellFlagCounts : Prop :=
  ∀ (s t : State) (a c : Nat), a < s.build.R → c < s.build.R →
    (∀ i j, i < s.build.R → j < s.build.R →
      (cellAt s.snap (cellX s.build i) (cellY s.build j) = true ↔ i = a ∧ j = c)) →
    s.snapValid = true → exec .buildMask s = .next t →
    (regionCells s.build).countP (fun p => DirtyMask.get t.mask p.1 p.2) =
      (if a = 0 ∨ a + 1 = s.build.R then 2 else 3) * (if c = 0 ∨ c + 1 = s.build.R then 2 else 3)

/-- 41_snapshot_mask.md R105: MGET reads the flag, 0 outside R × R, or is refused with SEQERR. -/
def Obligations.MgetReadsFlag : Prop :=
  ∀ (i j : Coord) (s : State),
    (s.maskValid = true → exec (.mget i j) s = .next
      { s with
        result := if i.toNat < s.build.R ∧ j.toNat < s.build.R ∧
            DirtyMask.get s.mask i.toNat j.toNat = true
          then 1 else 0 }) ∧
    (s.maskValid = false → exec (.mget i j) s = .next { s with status := s.status ||| 0x200 })

/-- 41_snapshot_mask.md R104: with the ring dead, every region cell that STEP's rule would change is
flagged by BUILD_MASK. -/
def Obligations.MaskCoversChanges : Prop :=
  ∀ (s t : State), s.snapValid = true → ringDead s.build s.snap → exec .buildMask s = .next t →
    ∀ i j, i < s.build.R → j < s.build.R →
      nextValue s.snap (cellX s.build i) (cellY s.build j) ≠
        cellAt s.snap (cellX s.build i) (cellY s.build j) →
      DirtyMask.get t.mask i j = true

/-- 70_reset_and_hazards.md R188: after a SNAPSHOT, STEP and MGET are refused with SEQERR until a
BUILD_MASK. -/
def Obligations.StaleMaskIsRefused : Prop :=
  ∀ s : State, ∃ t, exec .snapshot s = .next t ∧
    exec .step t = .next { t with status := t.status ||| 0x200 } ∧
    (∀ i j, exec (.mget i j) t = .next { t with status := t.status ||| 0x200 }) ∧
    ∃ u, exec .buildMask t = .next u ∧ u.maskValid = true

/-! ### Stepper -/

/-- 42_stepper.md R121: the table, and its closed form. -/
def Obligations.LifeRuleIsTheTable : Prop :=
  ∀ (alive : Bool) (n : BitVec 4), n.toNat ≤ 8 →
    (alive = true → n = 2 ∨ n = 3 → lifeRule alive n = true) ∧
    (alive = true → n.toNat < 2 ∨ 3 < n.toNat → lifeRule alive n = false) ∧
    (alive = false → n = 3 → lifeRule alive n = true) ∧
    (alive = false → n ≠ 3 → lifeRule alive n = false) ∧
    (lifeRule alive n = true ↔ n = 3 ∨ (alive = true ∧ n = 2))

/-- 42_stepper.md R120: the counter never leaves SNAP, counts the live cells among the eight
neighbours, and is a number in 0..8. -/
def Obligations.NeighbourCounterCounts : Prop :=
  ∀ (m : Memory) (x y : Coord), ∃ n, neighbourCount m x y = .ok n ∧ n.toNat ≤ 8 ∧
    n.toNat = (cellAt m (x - 1) (y - 1)).toNat + (cellAt m x (y - 1)).toNat +
      (cellAt m (x + 1) (y - 1)).toNat + (cellAt m (x - 1) y).toNat + (cellAt m (x + 1) y).toNat +
      (cellAt m (x - 1) (y + 1)).toNat + (cellAt m x (y + 1)).toNat + (cellAt m (x + 1) (y + 1)).toNat

/-- 42_stepper.md R131: rows -1 and 192 and columns -1 and 256 are dead: no wraparound. -/
def Obligations.NoWraparound : Prop :=
  ∀ (m : Memory) (x : Coord),
    liveNeighbours m x 0 = (cellAt m (x - 1) 0).toNat + (cellAt m (x + 1) 0).toNat +
      (cellAt m (x - 1) 1).toNat + (cellAt m x 1).toNat + (cellAt m (x + 1) 1).toNat ∧
    liveNeighbours m x 191 = (cellAt m (x - 1) 191).toNat + (cellAt m (x + 1) 191).toNat +
      (cellAt m (x - 1) 190).toNat + (cellAt m x 190).toNat + (cellAt m (x + 1) 190).toNat ∧
    liveNeighbours m 0 x = (cellAt m 0 (x - 1)).toNat + (cellAt m 0 (x + 1)).toNat +
      (cellAt m 1 (x - 1)).toNat + (cellAt m 1 x).toNat + (cellAt m 1 (x + 1)).toNat ∧
    liveNeighbours m 255 x = (cellAt m 255 (x - 1)).toNat + (cellAt m 255 (x + 1)).toNat +
      (cellAt m 254 (x - 1)).toNat + (cellAt m 254 x).toNat + (cellAt m 254 (x + 1)).toNat

/-- 42_stepper.md R122: at a flagged cell the byte written is the one read with the mask's bit
replaced by the rule's result, and the write is unconditional. -/
def Obligations.WriteBackReplacesOneBit : Prop :=
  ∀ (b : Build) (mask : DirtyMask) (snap fb : Memory) (i j : Nat), i < b.R → j < b.R →
    DirtyMask.get mask i j = true →
    ∃ n, neighbourCount snap (cellX b i) (cellY b j) = .ok n ∧
      stepVisit b mask snap fb i j = portWrite fb (offset (cellX b i) (cellY b j))
        ((Memory.read fb (offset (cellX b i) (cellY b j)).toNat &&& ~~~(bitMask (cellX b i))) |||
          (if lifeRule (cellAt snap (cellX b i) (cellY b j)) n then bitMask (cellX b i) else 0))

/-- 42_stepper.md R123 with R127, R128: STEP completes; every flagged cell holds its next value on
SNAP, every other cell and every byte without a flagged cell is as before, nothing but FB changes;
without MASK_VALID it is refused with SEQERR. -/
def Obligations.StepAppliesRuleToFlaggedCells : Prop :=
  ∀ s : State, Memory.wf s.fb →
    (s.maskValid = true → ∃ t, exec .step s = .next t ∧ t = { s with fb := t.fb } ∧
      (∀ i j, i < s.build.R → j < s.build.R →
        cellAt t.fb (cellX s.build i) (cellY s.build j) =
          if DirtyMask.get s.mask i j then nextValue s.snap (cellX s.build i) (cellY s.build j)
          else cellAt s.fb (cellX s.build i) (cellY s.build j)) ∧
      (∀ x y, inRegion s.build x y = false → cellAt t.fb x y = cellAt s.fb x y) ∧
      (∀ o, (∀ i j, i < s.build.R → j < s.build.R → DirtyMask.get s.mask i j = true →
          (offset (cellX s.build i) (cellY s.build j)).toNat ≠ o) →
        Memory.read t.fb o = Memory.read s.fb o)) ∧
    (s.maskValid = false → exec .step s = .next { s with status := s.status ||| 0x200 })

/-- 42_stepper.md R124: FB after STEP does not depend on the order of the visits. -/
def Obligations.StepIgnoresVisitOrder : Prop :=
  ∀ (b : Build) (mask : DirtyMask) (snap fb : Memory) (cells : List (Nat × Nat)), Memory.wf fb →
    cells.Perm (regionCells b) →
    ∃ m, stepCells b mask snap fb (regionCells b) = .ok m ∧ stepCells b mask snap fb cells = .ok m

/-- 42_stepper.md R129: STEP repeated changes nothing. -/
def Obligations.StepIsIdempotent : Prop :=
  ∀ s t : State, Memory.wf s.fb → s.maskValid = true → exec .step s = .next t →
    exec .step t = .next t

/-- 42_stepper.md R133, 30_encoding.md R69: TICK completes with the effect of SNAPSHOT, BUILD_MASK and
STEP issued one after the other, and leaves SNAP_VALID and MASK_VALID set and RESULT alone. -/
def Obligations.TickIsThreeCommands : Prop :=
  ∀ s : State, ∃ a b t, exec .snapshot s = .next a ∧ exec .buildMask a = .next b ∧
    exec .step b = .next t ∧ exec .tick s = .next t ∧ t.snapValid = true ∧ t.maskValid = true ∧
    (∀ k, k < 32 → k ≠ 1 → k ≠ 2 → t.status.getLsbD k = s.status.getLsbD k) ∧
    t = { s with fb := t.fb, snap := t.snap, mask := t.mask, status := t.status }

/-- 42_stepper.md R126: when no live cell lies in the ring, the masked STEP after SNAPSHOT and
BUILD_MASK, and TICK, leave the very FB that FullStep leaves. -/
def Obligations.MaskedStepEqualsFullStep : Prop :=
  ∀ s : State, Memory.wf s.fb → ringDead s.build s.fb →
    ∃ a b t u, exec .snapshot s = .next a ∧ exec .buildMask a = .next b ∧ exec .step b = .next t ∧
      exec .tick s = .next u ∧ fullStep b.build b.snap b.fb = .ok t.fb ∧ u.fb = t.fb

/-- 42_stepper.md R132, first property, and R127: when no live cell lies in the ring, one TICK takes every
region cell to its next value on the FB before, and leaves every other cell alone. -/
def Obligations.TickIsOneGeneration : Prop :=
  ∀ s : State, Memory.wf s.fb → ringDead s.build s.fb →
    ∃ t, exec .tick s = .next t ∧
      (∀ x y, inRegion s.build x y = true → cellAt t.fb x y = nextValue s.fb x y) ∧
      (∀ x y, inRegion s.build x y = false → cellAt t.fb x y = cellAt s.fb x y)

/-- 42_stepper.md R132, "the isolated point dies", wherever in the region it lies. -/
def Obligations.IsolatedCellDies : Prop :=
  ∀ (s t : State) (x y : Coord), Memory.wf s.fb → inRegion s.build x y = true →
    (∀ x' y', cellAt s.fb x' y' = true ↔ x' = x ∧ y' = y) → exec .tick s = .next t →
    ∀ x' y', cellAt t.fb x' y' = false

/-- 42_stepper.md R130: a command other than SET keeps the ring dead. -/
def Obligations.RingStaysDead : Prop :=
  ∀ (i : Instr) (s t : State), Memory.wf s.fb → (∀ x y v, i ≠ .set x y v) →
    ringDead s.build s.fb → exec i s = .next t → ringDead t.build t.fb

/-- 70_reset_and_hazards.md R185: a SET of a region cell between SNAPSHOT and STEP, before or after
BUILD_MASK, is performed; STEP overwrites it where the cell is flagged, with the rule's result on SNAP,
and leaves it where it is not. -/
def Obligations.SetBetweenSnapshotAndStep : Prop :=
  ∀ (s : State) (i j : Nat) (v : Bool), Memory.wf s.fb → i < s.build.R → j < s.build.R →
    (∃ a b c t, exec .snapshot s = .next a ∧ exec .buildMask a = .next b ∧
      exec (.set (cellX s.build i) (cellY s.build j) v) b = .next c ∧ exec .step c = .next t ∧
      cellAt c.fb (cellX s.build i) (cellY s.build j) = v ∧
      cellAt t.fb (cellX s.build i) (cellY s.build j) =
        if DirtyMask.get b.mask i j then nextValue s.fb (cellX s.build i) (cellY s.build j) else v) ∧
    (∃ a c b t, exec .snapshot s = .next a ∧
      exec (.set (cellX s.build i) (cellY s.build j) v) a = .next c ∧
      exec .buildMask c = .next b ∧ exec .step b = .next t ∧
      cellAt c.fb (cellX s.build i) (cellY s.build j) = v ∧ b.fb = c.fb ∧
      cellAt t.fb (cellX s.build i) (cellY s.build j) =
        if DirtyMask.get b.mask i j then nextValue s.fb (cellX s.build i) (cellY s.build j) else v)

/-! ### All commands -/

/-- 60_exceptions.md R160, 40_translate_access.md R91, third property: every command answers a next
state in every state; none drives an offset that does not exist, none is refused by the model. -/
def Obligations.EveryCommandCompletes : Prop :=
  ∀ (i : Instr) (s : State), ∃ t, exec i s = .next t

/-- 10_state.md R24 to R27, R23: the frame of every command, by the part of the state: only SET, STEP
and TICK write FB, only SNAPSHOT and TICK write SNAP, only BUILD_MASK and TICK write MASK, only
XLATE, GET, SGET and MGET write RESULT, and of STATUS no bit changes but SNAP_VALID, MASK_VALID,
ILL and SEQERR; nothing else changes. -/
def Obligations.WhoWritesWhat : Prop :=
  ∀ (i : Instr) (s t : State), exec i s = .next t →
    ((∀ x y v, i ≠ .set x y v) → i ≠ .step → i ≠ .tick → t.fb = s.fb) ∧
    (i ≠ .snapshot → i ≠ .tick → t.snap = s.snap) ∧
    (i ≠ .buildMask → i ≠ .tick → t.mask = s.mask) ∧
    ((∀ x y, i ≠ .xlate x y) → (∀ x y, i ≠ .get x y) → (∀ x y, i ≠ .sget x y) →
      (∀ x y, i ≠ .mget x y) → t.result = s.result) ∧
    (∀ k, k < 32 → k ≠ 1 → k ≠ 2 → k ≠ 8 → k ≠ 9 → t.status.getLsbD k = s.status.getLsbD k) ∧
    t.build = s.build ∧ t.flight = s.flight ∧ t.inputs = s.inputs ∧ t.draws = s.draws

/-- 42_stepper.md R127: no command but SET writes a cell outside the ActiveRegion. -/
def Obligations.OnlySetWritesOutsideRegion : Prop :=
  ∀ (i : Instr) (s t : State), Memory.wf s.fb → (∀ x y v, i ≠ .set x y v) → exec i s = .next t →
    ∀ x y, inRegion s.build x y = false → cellAt t.fb x y = cellAt s.fb x y

/-- 10_state.md R23: SNAP_VALID is set by SNAPSHOT and TICK and cleared by no command; MASK_VALID is
set by BUILD_MASK (not refused) and TICK and cleared by SNAPSHOT; no command sets ILL; SEQERR is set
exactly by the four refusals of 60_exceptions.md R160; only CLRSTAT clears either. -/
def Obligations.StatusBitsOfEveryCommand : Prop :=
  ∀ (i : Instr) (s t : State), exec i s = .next t →
    t.snapValid = (s.snapValid || (i == .snapshot || i == .tick)) ∧
    t.maskValid = (i == .tick || (i == .buildMask && s.snapValid) ||
      (s.maskValid && i != .snapshot)) ∧
    t.ill = (s.ill && i != .clrstat) ∧
    (t.seqErr = true ↔ (s.seqErr = true ∧ i ≠ .clrstat) ∨
      (s.snapValid = false ∧ (i = .buildMask ∨ ∃ x y, i = .sget x y)) ∨
      (s.maskValid = false ∧ (i = .step ∨ ∃ x y, i = .mget x y)))

/-- 60_exceptions.md R162: an illegal word sets ILL whatever the sequence bits are and touches no
other STATUS bit; a legal word never sets ILL; so no command raises both causes. -/
def Obligations.IllIsCheckedFirst : Prop :=
  ∀ (w : CmdWord) (s t : State), runWord w s = .next t →
    ((∃ e, decode w = .error e) → t = { s with status := s.status ||| 0x100 }) ∧
    ((∃ i, decode w = .ok i) → t.ill = true → s.ill = true) ∧
    ¬ (s.ill = false ∧ t.ill = true ∧ s.seqErr = false ∧ t.seqErr = true) ∧
    (s.seqErr = false → t.seqErr = true → t = { s with status := s.status ||| 0x200 })

/-- 10_state.md R24: what the host reads from RESULT after the four commands that write it, with the
fields of XLATE's format; every other command, every refused command and every illegal word leaves
it; it is 0 after reset. -/
def Obligations.ResultRegister : Prop :=
  (∀ (x y : Coord) (s t : State), exec (.xlate x y) s = .next t → t.hostResult =
    BitVec.ofBool (inRange x y) ++ 0#7 ++ (if inRange x y then bitMask x else 0#8) ++ 0#3 ++
      (if inRange x y then offset x y else 0#13)) ∧
  (∀ (x y : Coord) (s t : State), exec (.get x y) s = .next t →
    t.hostResult = (BitVec.ofBool (cellAt s.fb x y)).setWidth 32) ∧
  (∀ (x y : Coord) (s t : State), exec (.sget x y) s = .next t → t.hostResult =
    if s.snapValid then (BitVec.ofBool (cellAt s.snap x y)).setWidth 32 else s.hostResult) ∧
  (∀ (i j : Coord) (s t : State), exec (.mget i j) s = .next t → t.hostResult =
    if s.maskValid then (BitVec.ofBool (decide (i.toNat < s.build.R ∧ j.toNat < s.build.R) &&
      DirtyMask.get s.mask i.toNat j.toNat)).setWidth 32 else s.hostResult) ∧
  (∀ (i : Instr) (s t : State), (∀ x y, i ≠ .xlate x y) → (∀ x y, i ≠ .get x y) →
    (∀ x y, i ≠ .sget x y) → (∀ x y, i ≠ .mget x y) → exec i s = .next t →
    t.hostResult = s.hostResult) ∧
  (∀ (w : CmdWord) (e : Illegal) (s t : State), decode w = .error e → runWord w s = .next t →
    t.hostResult = s.hostResult) ∧
  State.reset.hostResult = 0x00000000

/-! ### Parameters and reset -/

/-- 00_scope.md R9, R10, 41_snapshot_mask.md R102: exactly the even R in 2..192 can be built, the
region is centred, and every region cell is in range. -/
def Obligations.RegionIsCentredAndInRange : Prop :=
  (∀ n, (∃ b, Build.ofSide n = some b ∧ b.R = n) ↔ n % 2 = 0 ∧ 2 ≤ n ∧ n ≤ 192) ∧
  (∀ b : Build, b.x0 = 128 - b.R / 2 ∧ b.y0 = 96 - b.R / 2 ∧
    b.x0 + b.R + b.x0 = 256 ∧ b.y0 + b.R + b.y0 = 192) ∧
  (∀ (b : Build) (x y : Coord), inRegion b x y = true → inRange x y = true) ∧
  State.reset.build.R = 32

/-- 10_state.md R31, 70_reset_and_hazards.md R180: a reset between commands sets STATUS and RESULT to
0, leaves FB alone and the block idle, and makes the gates refuse SGET, BUILD_MASK, STEP and MGET,
so that what SNAP and MASK hold cannot be read. -/
def Obligations.ResetBetweenCommands : Prop :=
  ∀ (s : State) (rest : List HostInput), s.flight = none → s.inputs = .reset :: rest →
    ∃ t, step s = .next t ∧ t.status = 0 ∧ t.result = 0 ∧ t.fb = s.fb ∧ t.flight = none ∧
      cmdReady t = true ∧ t.build = s.build ∧ t.inputs = rest ∧
      (∀ x y, exec (.sget x y) t = .next { t with status := 0x200 }) ∧
      (∀ i j, exec (.mget i j) t = .next { t with status := 0x200 }) ∧
      exec .buildMask t = .next { t with status := 0x200 } ∧
      exec .step t = .next { t with status := 0x200 }

/-- 60_exceptions.md R171, R172: power off and on, at any time, ends in the reset state of the
registers with no command executing; what the arrays hold is free (log entry 4). -/
def Obligations.PowerCycleClearsRegisters : Prop :=
  ∀ (s : State) (rest : List HostInput), s.inputs = .powerCycle :: rest →
    ∃ t, step s = .next t ∧ t.status = 0 ∧ t.result = 0 ∧ t.flight = none ∧ t.build = s.build ∧
      t.inputs = rest ∧ Memory.wf t.fb ∧ Memory.wf t.snap ∧ maskInside t.build t.mask

/-- 70_reset_and_hazards.md R182: a reset during a command abandons it; every FB bit holds its value
from before the command or the value the completed command would have left. Which, is a free value
(log entry 8). Said of any state with a command executing, by what its acceptance recorded; and from
the acceptance: after any number of steps of an issued command, a reset leaves every bit that of FB
before it was accepted or that of the atomic execution's FB. -/
def Obligations.ResetDuringCommand : Prop :=
  (∀ (s : State) (f : InFlight) (rest : List HostInput), s.flight = some f →
    s.inputs = .reset :: rest →
    ∃ t, step s = .next t ∧ t.status = 0 ∧ t.result = 0 ∧ t.flight = none ∧ t.build = s.build ∧
      t.inputs = rest ∧
      ∀ o k, o < 6144 → k < 8 →
        (Memory.read t.fb o).getLsbD k = (Memory.read f.fbBefore o).getLsbD k ∨
        ∃ u, runWord f.word { s with fb := f.fbBefore, flight := none, inputs := rest } = .next u ∧
          (Memory.read t.fb o).getLsbD k = (Memory.read u.fb o).getLsbD k) ∧
  (∀ (s u : State) (w : CmdWord) (n : Nat) (rest : List HostInput), State.Inv s → s.flight = none →
    Sys2Proof.core.run n { s with inputs := [.issue w] } = .next u →
    ∃ a t, step { s with inputs := [.command w] } = .next a ∧
      step { u with inputs := .reset :: rest } = .next t ∧ t.status = 0 ∧ t.result = 0 ∧
      t.flight = none ∧ t.build = s.build ∧ t.inputs = rest ∧
      ∀ o k, o < 6144 → k < 8 →
        (Memory.read t.fb o).getLsbD k = (Memory.read s.fb o).getLsbD k ∨
        (Memory.read t.fb o).getLsbD k = (Memory.read a.fb o).getLsbD k)

/-! ### Invariant -/

/-- The state after reset meets the invariant. Its FB, SNAP and MASK are the model's choice (log
entries 1, 2, 3). -/
def Obligations.ResetMeetsInvariant : Prop := State.Inv State.reset

/-- Every step keeps the invariant (`State.Inv`): the arrays' canonical form over existing offsets
(20_memory.md R48), STATUS's reserved bits (10_state.md R23), MASK_VALID only with SNAP_VALID
(42_stepper.md R123), BUSY exactly while a command executes (10_state.md R23), and a sound transient
state (R29). -/
def Obligations.StepKeepsInvariant : Prop :=
  ∀ s t : State, State.Inv s → step s = .next t → State.Inv t

/-- 60_exceptions.md section 1 and 20_memory.md R49: from a state that meets the invariant no step
faults and none is refused, whatever the host does. -/
def Obligations.SoundStatesNeverStop : Prop :=
  ∀ s : State, State.Inv s → ∃ t, step s = .next t

/-- 20_memory.md R42, R44, R49: the display-memory port is driven only at offsets that exist; never
with both strobes, since the model makes the read and the write of a bit write two micro-steps (its
own granularity, DEDUCED, log entry 19); and a step that takes nothing from the host changes FB
exactly where and as the port's write strobe says. What the wires carry without a strobe is free (log
entry 23), and nothing is said of it. -/
def Obligations.FbChangesOnlyThroughPort : Prop :=
  ∀ s : State, State.Inv s →
    (((portSignals s).re = true ∨ (portSignals s).we = true) → (portSignals s).off.toNat < 6144) ∧
    ¬ ((portSignals s).re = true ∧ (portSignals s).we = true) ∧
    ∃ t, advance s = .next t ∧ t.fb = if (portSignals s).we
      then Memory.write s.fb (portSignals s).off.toNat (portSignals s).wdata else s.fb

/-! ### A command from the inside -/

/-- 00_scope.md R15, 10_state.md R29: executed one visit at a time (`issue`; the model's granularity,
log entries 7 and 19), a command ends, after finitely many steps, in exactly the state that the atomic
transaction (`command`) gives, with no transient state left. -/
def Obligations.VisitsRefineTransaction : Prop :=
  ∀ (s : State) (w : CmdWord), State.Inv s → s.flight = none →
    ∃ n t, step { s with inputs := [.command w] } = .next t ∧ t.flight = none ∧
      Sys2Proof.core.run n { s with inputs := [.issue w] } = .next t

/-- 20_memory.md R45, R47: at any instant of a command's execution every bit of FB that the display
reads holds its value from before the command or its value after it, and so does every bit of a
display read with a free choice of the bits already changed (log entries 9 and 19). -/
def Obligations.DisplaySeesOldOrNew : Prop :=
  ∀ (s t : State) (w : CmdWord), State.Inv s → s.flight = none →
    step { s with inputs := [.command w] } = .next t →
    (∀ n u, Sys2Proof.core.run n { s with inputs := [.issue w] } = .next u →
      ∀ o : PortOffset, o.toNat < 6144 → ∃ seen, displayRead u o = .ok seen ∧
        displayMaySee (Memory.read s.fb o.toNat) (Memory.read t.fb o.toNat) seen = true) ∧
    (∀ n, ∀ o : PortOffset, o.toNat < 6144 → ∃ seen, displayReadDuring n s.fb t.fb o = .ok seen ∧
      displayMaySee (Memory.read s.fb o.toNat) (Memory.read t.fb o.toNat) seen = true)
end

