-- ==== Sys2Proof/Laws/Assembler.lean ====
section
/-! SUPPORT. The pieces of the assembler's text (30_encoding.md R68): comment, blanks, commas, and a line
as a mnemonic and its operands. -/

namespace Sys2Proof.Machine

/-- A piece of text with no blank, comma or semicolon in it. -/
def asmPlain (t : List Char) : Prop := t ≠ [] ∧ ∀ c ∈ t, c ∉ [' ', '\t', ',', ';']

theorem asmPlain.not_blank {t : List Char} (h : asmPlain t) {c : Char} (hc : c ∈ t) :
    asmBlank c = false := by
  have := h.2 c hc
  simp only [List.mem_cons, not_or] at this
  simp [asmBlank, this.1, this.2.1]

theorem asmPlain.ne_comma {t : List Char} (h : asmPlain t) {c : Char} (hc : c ∈ t) : c ≠ ',' := by
  have := h.2 c hc
  simp only [List.mem_cons, not_or] at this
  exact this.2.2.1

theorem asmPlain.ne_semicolon {t : List Char} (h : asmPlain t) {c : Char} (hc : c ∈ t) : c ≠ ';' := by
  have := h.2 c hc
  simp only [List.mem_cons, not_or] at this
  exact this.2.2.2.1

/-! ### Comment and blanks -/

theorem asmCode_self {t : List Char} (h : ∀ c ∈ t, c ≠ ';') : asmCode t = t := by
  unfold asmCode
  rw [List.takeWhile_eq_self_iff]
  simpa using h

theorem asmCode_comment {t : List Char} (h : ∀ c ∈ t, c ≠ ';') (remark : List Char) :
    asmCode (t ++ ';' :: remark) = t := by
  unfold asmCode
  rw [List.takeWhile_append_of_pos (by simpa using h)]
  simp

/-- Text that starts and ends with no blank is left as it is. -/
theorem asmTrim_self {t : List Char} (hh : ∀ c, t.head? = some c → asmBlank c = false)
    (hl : ∀ c, t.getLast? = some c → asmBlank c = false) : asmTrim t = t := by
  have hdrop : ∀ u : List Char, (∀ c, u.head? = some c → asmBlank c = false) →
      u.dropWhile asmBlank = u := by
    intro u hu
    cases u with
    | nil => rfl
    | cons c u => rw [List.dropWhile_cons, hu c rfl]; rfl
  unfold asmTrim
  rw [hdrop t hh, hdrop t.reverse (by rw [List.head?_reverse]; exact hl), List.reverse_reverse]

/-- A blank behind the text is cut off. -/
theorem asmTrim_append_blank (t : List Char) {c : Char} (hc : asmBlank c = true) :
    asmTrim (t ++ [c]) = asmTrim t := by
  unfold asmTrim
  rw [List.dropWhile_append]
  split
  · next h =>
    rw [List.isEmpty_iff] at h
    rw [h]
    simp [hc]
  · rw [List.reverse_append, List.reverse_singleton, List.singleton_append, List.dropWhile_cons, hc]
    rfl

/-- A blank in front of the text is cut off. -/
theorem asmTrim_cons_blank (t : List Char) {c : Char} (hc : asmBlank c = true) :
    asmTrim (c :: t) = asmTrim t := by
  unfold asmTrim
  rw [List.dropWhile_cons, hc]
  rfl

theorem asmTrim_plain {t : List Char} (h : asmPlain t) : asmTrim t = t :=
  asmTrim_self (fun _ hc => h.not_blank (List.mem_of_mem_head? hc))
    (fun _ hc => h.not_blank (List.mem_of_getLast? hc))

/-! ### Commas -/

theorem asmSplit_self {t : List Char} (h : ∀ c ∈ t, c ≠ ',') : asmSplit t = [t] := by
  induction t with
  | nil => rfl
  | cons c t ih =>
    have hc : (c == ',') = false := by simpa using h c (List.mem_cons_self ..)
    unfold asmSplit
    rw [hc, ih fun d hd => h d (List.mem_cons_of_mem _ hd)]
    rfl

theorem asmSplit_comma {t : List Char} (h : ∀ c ∈ t, c ≠ ',') (rest : List Char) :
    asmSplit (t ++ ',' :: rest) = t :: asmSplit rest := by
  induction t with
  | nil => rfl
  | cons c t ih =>
    have hc : (c == ',') = false := by simpa using h c (List.mem_cons_self ..)
    rw [List.cons_append]
    conv_lhs => unfold asmSplit
    rw [hc, ih fun d hd => h d (List.mem_cons_of_mem _ hd)]
    rfl

/-- Operands as R68 writes them: a comma and a blank between each and the next. -/
def asmJoin (ops : List (List Char)) : List Char := [',', ' '].intercalate ops

@[simp] theorem asmJoin_nil : asmJoin [] = [] := rfl
@[simp] theorem asmJoin_single (t : List Char) : asmJoin [t] = t := by
  simp [asmJoin, List.intercalate]
theorem asmJoin_cons (t u : List Char) (ops : List (List Char)) :
    asmJoin (t :: u :: ops) = t ++ ',' :: ' ' :: asmJoin (u :: ops) := by
  simp [asmJoin, List.intercalate, List.intersperse]

theorem asmSplit_join {ops : List (List Char)} (hne : ops ≠ []) (h : ∀ t ∈ ops, asmPlain t) :
    asmSplit (' ' :: asmJoin ops) = ops.map (' ' :: ·) := by
  have hcomma : ∀ t, asmPlain t → ∀ c ∈ ' ' :: t, c ≠ ',' := by
    intro t ht c hc
    rcases List.mem_cons.1 hc with rfl | hc
    · decide
    · exact ht.ne_comma hc
  induction ops with
  | nil => exact absurd rfl hne
  | cons t ops ih =>
    have ht := h t (List.mem_cons_self ..)
    cases ops with
    | nil =>
      rw [asmJoin_single, asmSplit_self (hcomma t ht)]
      rfl
    | cons u ops =>
      rw [asmJoin_cons, ← List.cons_append, asmSplit_comma (hcomma t ht),
        ih (by simp) fun v hv => h v (List.mem_cons_of_mem _ hv)]
      rfl

theorem asmJoin_ne_nil {ops : List (List Char)} (hne : ops ≠ []) (h : ∀ t ∈ ops, asmPlain t) :
    asmJoin ops ≠ [] := by
  rcases ops with _ | ⟨t, _ | ⟨u, ops⟩⟩
  · exact absurd rfl hne
  · simpa using (h t (by simp)).1
  · simp [asmJoin_cons]

/-- Operands end in a character that is no blank. -/
theorem asmJoin_getLast {ops : List (List Char)} (h : ∀ t ∈ ops, asmPlain t) {c : Char}
    (hc : (asmJoin ops).getLast? = some c) : asmBlank c = false := by
  induction ops with
  | nil => cases hc
  | cons t ops ih =>
    cases ops with
    | nil =>
      rw [asmJoin_single] at hc
      exact (h t (by simp)).not_blank (List.mem_of_getLast? hc)
    | cons u ops =>
      have hne := asmJoin_ne_nil (ops := u :: ops) (by simp) fun v hv => h v (by simp [hv])
      refine ih (fun v hv => h v (List.mem_cons_of_mem _ hv)) ?_
      rw [asmJoin_cons, show t ++ ',' :: ' ' :: asmJoin (u :: ops) =
        (t ++ [',', ' ']) ++ asmJoin (u :: ops) by simp, List.getLast?_append_of_ne_nil _ hne] at hc
      exact hc

theorem asmJoin_no_semicolon {ops : List (List Char)} (h : ∀ t ∈ ops, asmPlain t) :
    ∀ c ∈ asmJoin ops, c ≠ ';' := by
  induction ops with
  | nil => intro c hc; cases hc
  | cons t ops ih =>
    cases ops with
    | nil =>
      rw [asmJoin_single]
      exact fun c hc => (h t (by simp)).ne_semicolon hc
    | cons u ops =>
      intro c hc
      rw [asmJoin_cons, List.mem_append, List.mem_cons, List.mem_cons] at hc
      rcases hc with hc | rfl | rfl | hc
      · exact (h t (by simp)).ne_semicolon hc
      · decide
      · decide
      · exact ih (fun v hv => h v (List.mem_cons_of_mem _ hv)) c hc

/-! ### A line -/

/-- The operands of a line are read piece by piece. -/
theorem asmOperands_join {ops : List (List Char)} (h : ∀ t ∈ ops, asmPlain t) :
    asmOperands (' ' :: asmJoin ops) = ops.mapM asmOperand := by
  unfold asmOperands
  rcases ops with _ | ⟨t, ops⟩
  · rfl
  · have hne := asmJoin_ne_nil (ops := t :: ops) (by simp) h
    have ht := h t (by simp)
    have hhead : ∀ c, (asmJoin (t :: ops)).head? = some c → asmBlank c = false := by
      intro c hc
      obtain ⟨d, u, rfl⟩ := List.exists_cons_of_ne_nil ht.1
      have hd := ht.not_blank (c := d) (by simp)
      cases ops with
      | nil =>
        rw [asmJoin_single] at hc
        cases hc
        exact hd
      | cons v ops =>
        rw [asmJoin_cons] at hc
        cases hc
        exact hd
    rw [asmTrim_cons_blank _ (by decide), asmTrim_self hhead (fun _ => asmJoin_getLast h),
      if_neg (by simpa using hne), asmSplit_join (by simp) h, List.mapM_map]
    have hmap : ∀ l : List (List Char), (∀ u ∈ l, asmPlain u) →
        l.mapM (asmOperand ∘ asmTrim ∘ (' ' :: ·)) = l.mapM asmOperand := by
      intro l hl
      induction l with
      | nil => rfl
      | cons u l ih =>
        rw [List.mapM_cons, List.mapM_cons, ih fun v hv => hl v (List.mem_cons_of_mem _ hv)]
        simp only [Function.comp]
        rw [asmTrim_cons_blank _ (by decide), asmTrim_plain (hl u (by simp))]
    exact hmap _ h

/-- What a line's code, a mnemonic and the rest, is parsed as. -/
def asmEntry (name : List Char) (args : Option (List Int)) : Option (List AsmLine) :=
  match asmForms.find? (fun form => form.1 == name) with
  | none => none
  | some form => (args.bind form.2).map fun l => [l]

/-- Parsing depends on a line's code only. -/
theorem asmParse_of_code {line name rest : List Char} (hn : asmPlain name)
    (hcode : asmTrim (asmCode line) = name ++ rest)
    (hrest : ∀ c, rest.head? = some c → asmBlank c = true) :
    asmParse line = asmEntry name (asmOperands rest) := by
  have hne : name ++ rest ≠ [] := by simp [hn.1]
  have htake : (name ++ rest).takeWhile (fun c => !asmBlank c) = name := by
    rw [List.takeWhile_append_of_pos fun c hc => by rw [hn.not_blank hc]; rfl]
    cases rest with
    | nil => simp
    | cons c rest => rw [List.takeWhile_cons, hrest c rfl]; simp
  have hdrop : (name ++ rest).dropWhile (fun c => !asmBlank c) = rest := by
    rw [List.dropWhile_append_of_pos fun c hc => by rw [hn.not_blank hc]; rfl]
    cases rest with
    | nil => rfl
    | cons c rest => rw [List.dropWhile_cons, hrest c rfl]; rfl
  unfold asmParse asmEntry
  rw [hcode]
  simp only [htake, hdrop]
  rw [if_neg (by simpa using hne)]
  cases asmForms.find? (fun form => form.1 == name) with
  | none => rfl
  | some form =>
    cases asmOperands rest with
    | none => rfl
    | some args => simp only [Option.bind_eq_bind, Option.bind_some]; cases form.2 args <;> rfl

/-- A mnemonic, a blank and the operands, with or without a comment (30_encoding.md R68). -/
theorem asmParse_line {name : List Char} {ops : List (List Char)} (hn : asmPlain name)
    (h : ∀ t ∈ ops, asmPlain t) {line : List Char}
    (hline : asmCode line = name ++ ' ' :: asmJoin ops ∨
      asmCode line = (name ++ ' ' :: asmJoin ops) ++ [' ']) :
    asmParse line = asmEntry name (ops.mapM asmOperand) := by
  have htrim : asmTrim (asmCode line) = asmTrim (name ++ ' ' :: asmJoin ops) := by
    rcases hline with h | h <;> rw [h]
    exact asmTrim_append_blank _ (by decide)
  rcases eq_or_ne ops [] with rfl | hne
  · rw [asmJoin_nil, asmTrim_append_blank _ (by decide), asmTrim_plain hn] at htrim
    rw [asmParse_of_code (rest := []) hn (by simpa using htrim) (by simp)]
    rfl
  · have hjne := asmJoin_ne_nil hne h
    rw [asmTrim_self (t := name ++ ' ' :: asmJoin ops)] at htrim
    · rw [asmParse_of_code hn htrim fun c hc => by cases hc; decide, asmOperands_join h]
    · intro c hc
      obtain ⟨d, u, rfl⟩ := List.exists_cons_of_ne_nil hn.1
      cases hc
      exact hn.not_blank (by simp)
    · intro c hc
      rw [show name ++ ' ' :: asmJoin ops = (name ++ [' ']) ++ asmJoin ops by simp,
        List.getLast?_append_of_ne_nil _ hjne] at hc
      exact asmJoin_getLast h hc

/-- A mnemonic alone, with or without a comment right behind it (30_encoding.md R68). -/
theorem asmParse_bare {name : List Char} (hn : asmPlain name) :
    asmParse name = asmEntry name (some []) ∧
      ∀ remark, asmParse (name ++ ';' :: remark) = asmEntry name (some []) := by
  have hs : ∀ c ∈ name, c ≠ ';' := fun c hc => hn.ne_semicolon hc
  have key : ∀ line, asmCode line = name → asmParse line = asmEntry name (some []) := fun line h =>
    asmParse_of_code (rest := []) hn (by rw [h, asmTrim_plain hn, List.append_nil]) (by simp)
  exact ⟨key _ (asmCode_self hs), fun remark => key _ (asmCode_comment hs remark)⟩

/-! ### Mnemonics -/

/-- A mnemonic of R68 or R69 is looked up as its form, whatever its operands. -/
theorem asmEntry_form : ∀ form ∈ asmForms, asmPlain form.1 ∧
    ∀ args, asmEntry form.1 args = (args.bind form.2).map fun l => [l] := by
  intro form hf
  simp only [asmForms, List.mem_cons, List.not_mem_nil, or_false] at hf
  rcases hf with rfl | rfl | rfl | rfl | rfl | rfl | rfl | rfl | rfl | rfl | rfl | rfl | rfl | rfl |
    rfl <;> exact ⟨⟨by simp, by simp⟩, fun args => rfl⟩

/-- Another mnemonic is refused. -/
theorem asmEntry_none {name : List Char} (h : ∀ form ∈ asmForms, form.1 ≠ name)
    (args : Option (List Int)) : asmEntry name args = none := by
  unfold asmEntry
  rw [List.find?_eq_none.2 fun form hf => by simpa using h form hf]

/-! ### Literals -/

/-- The digits of base 16 among the first 128 characters. -/
theorem asmDigit_ascii : ∀ n < 128, ∀ d < 16, asmDigit 16 (Char.ofNat n) = some d ↔
    (Char.ofNat n).toLower = Nat.digitChar d := by
  decide +kernel

theorem digitChar_lt : ∀ d < 16, (Nat.digitChar d).toNat < 128 := by decide

theorem asmDigit_lt {b : Nat} {c : Char} {d : Nat} (h : asmDigit b c = some d) : d < b := by
  unfold asmDigit at h
  simp only [Option.filter_eq_some_iff, decide_eq_true_eq] at h
  exact h.2

/-- No character past the first 128 is a digit. -/
theorem asmDigit_none {c : Char} (hc : 128 ≤ c.toNat) (b : Nat) : asmDigit b c = none := by
  have hle : ∀ a : Char, c ≤ a ↔ c.toNat ≤ a.toNat := fun a => Iff.rfl
  have h9 : ¬ c ≤ '9' := by rw [hle]; show ¬ c.toNat ≤ 57; omega
  have hf : ¬ c ≤ 'f' := by rw [hle]; show ¬ c.toNat ≤ 102; omega
  have hF : ¬ c ≤ 'F' := by rw [hle]; show ¬ c.toNat ≤ 70; omega
  simp [asmDigit, h9, hf, hF]

/-- A digit of base 16, in either case (30_encoding.md R68; log entry 18). -/
theorem asmDigit_hex (c : Char) (d : Nat) :
    asmDigit 16 c = some d ↔ d < 16 ∧ c.toLower = Nat.digitChar d := by
  rcases Nat.lt_or_ge c.toNat 128 with hc | hc
  · by_cases hd : d < 16
    · have := asmDigit_ascii c.toNat hc d hd
      rw [Char.ofNat_toNat] at this
      simp [hd, this]
    · exact ⟨fun h => absurd (asmDigit_lt h) hd, fun h => absurd h.1 hd⟩
  · have hnone := asmDigit_none hc 16
    have hlow : c.toLower = c := by
      unfold Char.toLower
      split
      · next h =>
        exfalso
        have h2 : c.toNat ≤ 90 := h.2
        omega
      · rfl
    rw [hnone, hlow]
    refine ⟨fun h => absurd h (by simp), fun ⟨hd, h⟩ => ?_⟩
    have := digitChar_lt d hd
    rw [← h] at this
    omega

/-- The digits of base 10 among the first 128 characters. -/
theorem asmDigit_ascii_dec : ∀ n < 128, ∀ d < 10, asmDigit 10 (Char.ofNat n) = some d ↔
    Char.ofNat n = Nat.digitChar d := by
  decide +kernel

/-- A digit of base 10. -/
theorem asmDigit_dec (c : Char) (d : Nat) :
    asmDigit 10 c = some d ↔ d < 10 ∧ c = Nat.digitChar d := by
  by_cases hd : d < 10
  · rcases Nat.lt_or_ge c.toNat 128 with hc | hc
    · have := asmDigit_ascii_dec c.toNat hc d hd
      rw [Char.ofNat_toNat] at this
      simp [hd, this]
    · refine ⟨fun h => absurd (asmDigit_none hc 10) (by simp [h]), fun ⟨_, h⟩ => ?_⟩
      have := digitChar_lt d (by omega)
      rw [← h] at this
      omega
  · exact ⟨fun h => absurd (asmDigit_lt h) hd, fun h => absurd h.1 hd⟩

/-- A number is the value of its digits, and there is at least one. -/
theorem asmNumber_eq {base : Nat} {t : List Char} {n : Nat} :
    asmNumber base t = some n ↔ t ≠ [] ∧ ∃ ds, t.mapM (asmDigit base) = some ds ∧
      n = ds.foldl (fun n d => n * base + d) 0 := by
  have hfold : ∀ (t : List Char) (a : Nat),
      t.foldlM (fun acc c => (asmDigit base c).map (fun d => acc * base + d)) a =
        (t.mapM (asmDigit base)).map fun ds => ds.foldl (fun n d => n * base + d) a := by
    intro t
    induction t with
    | nil => exact fun _ => rfl
    | cons c t ih =>
      intro a
      rw [List.foldlM_cons, List.mapM_cons]
      cases asmDigit base c with
      | none => rfl
      | some d =>
        show List.foldlM _ (a * base + d) t = _
        rw [ih]
        cases t.mapM (asmDigit base) <;> rfl
  unfold asmNumber
  rw [hfold]
  cases t with
  | nil => simp
  | cons c t =>
    simp only [List.isEmpty_cons, Bool.false_eq_true, if_false, Option.map_eq_some_iff, ne_eq,
      reduceCtorEq, not_false_eq_true, true_and, eq_comm (b := n)]

/-- The digits of a decimal number. -/
theorem asmDigits_dec {t : List Char} {ds : List Nat} : t.mapM (asmDigit 10) = some ds ↔
    (∀ d ∈ ds, d < 10) ∧ t = ds.map Nat.digitChar := by
  induction t generalizing ds with
  | nil => cases ds <;> simp
  | cons c t ih =>
    cases ds with
    | nil => simp [Option.bind_eq_some_iff]
    | cons d ds =>
      simp only [List.mapM_cons, Option.bind_eq_bind, Option.bind_eq_some_iff, Option.pure_def,
        Option.some.injEq, List.cons.injEq, asmDigit_dec, ih, List.mem_cons, forall_eq_or_imp,
        List.map_cons]
      constructor
      · rintro ⟨_, ⟨h, h'⟩, _, ⟨g, g'⟩, rfl, rfl⟩
        exact ⟨⟨h, g⟩, h', g'⟩
      · rintro ⟨⟨h, g⟩, h', g'⟩
        exact ⟨d, ⟨h, h'⟩, ds, ⟨g, g'⟩, rfl, rfl⟩

/-- The digits of a hexadecimal number, capital or not (log entry 18). -/
theorem asmDigits_hex {t : List Char} {ds : List Nat} : t.mapM (asmDigit 16) = some ds ↔
    (∀ d ∈ ds, d < 16) ∧ t.map Char.toLower = ds.map Nat.digitChar := by
  induction t generalizing ds with
  | nil => cases ds <;> simp
  | cons c t ih =>
    cases ds with
    | nil => simp [Option.bind_eq_some_iff]
    | cons d ds =>
      simp only [List.mapM_cons, Option.bind_eq_bind, Option.bind_eq_some_iff, Option.pure_def,
        Option.some.injEq, List.cons.injEq, asmDigit_hex, ih, List.mem_cons, forall_eq_or_imp,
        List.map_cons]
      constructor
      · rintro ⟨_, ⟨h, h'⟩, _, ⟨g, g'⟩, rfl, rfl⟩
        exact ⟨⟨h, g⟩, h', g'⟩
      · rintro ⟨⟨h, g⟩, h', g'⟩
        exact ⟨d, ⟨h, h'⟩, ds, ⟨g, g'⟩, rfl, rfl⟩

/-- A mnemonic stays in front when the blanks behind a line are cut off. -/
theorem asmTrim_mnemonic {name : List Char} (hn : asmPlain name) (rest : List Char) :
    ∃ rest', asmTrim (name ++ ' ' :: rest) = name ++ rest' ∧
      ∀ c, rest'.head? = some c → asmBlank c = true := by
  obtain ⟨d, u, rfl⟩ := List.exists_cons_of_ne_nil hn.1
  refine ⟨((' ' :: rest).reverse.dropWhile asmBlank).reverse, ?_, ?_⟩
  · unfold asmTrim
    rw [List.cons_append, List.dropWhile_cons, hn.not_blank (by simp), if_neg (by simp),
      ← List.cons_append, List.reverse_append, List.dropWhile_append]
    split
    · next h =>
      have hl : (d :: u).reverse.dropWhile asmBlank = (d :: u).reverse := by
        have := asmTrim_plain hn
        unfold asmTrim at this
        rw [List.dropWhile_cons, hn.not_blank (by simp), if_neg (by simp)] at this
        exact (List.reverse_eq_iff.1 this)
      rw [List.isEmpty_iff] at h
      rw [hl, h]
      simp
    · rw [List.reverse_append, List.reverse_reverse]
  · intro c hc
    have hpre : ((' ' :: rest).reverse.dropWhile asmBlank).reverse <+: ' ' :: rest := by
      have := List.dropWhile_suffix (l := (' ' :: rest).reverse) asmBlank
      simpa using List.reverse_prefix.2 this
    obtain ⟨v, hv⟩ := hpre
    cases h : ((' ' :: rest).reverse.dropWhile asmBlank).reverse with
    | nil => rw [h] at hc; cases hc
    | cons e w =>
      rw [h] at hc hv
      cases hc
      cases hv
      decide

end Sys2Proof.Machine
end

