-- ==== Sys2Proof/Laws/Decode.lean ====
section
/-! SUPPORT. Packing and cutting a command word are inverse; the cases of the decoder. -/

namespace Sys2Proof

theorem append_getLsbD {v w : Nat} (a : BitVec v) (b : BitVec w) (k : Nat) :
    (a ++ b).getLsbD k = if k < w then b.getLsbD k else a.getLsbD (k - w) := by
  rw [BitVec.getLsbD_append]

/-- Every bit of a packed word (30_encoding.md R61). -/
theorem packWord_getLsbD (op : BitVec 4) (x y : Coord) (v : Bool) (k : Nat) :
    (packWord op x y v).getLsbD k =
      if k < 16 then x.getLsbD k
      else if k < 32 then y.getLsbD (k - 16)
      else if k < 33 then v
      else if k < 60 then false
      else op.getLsbD (k - 60) := by
  unfold packWord
  simp only [append_getLsbD]
  by_cases h16 : k < 16
  · rw [if_pos h16, if_pos h16]
  rw [if_neg h16, if_neg h16]
  by_cases h32 : k < 32
  · rw [if_pos h32, if_pos (by omega)]
  rw [if_neg h32, if_neg (by omega)]
  by_cases h33 : k < 33
  · rw [if_pos h33, if_pos (by omega), show k - 16 - 16 = 0 by omega]
    cases v <;> rfl
  rw [if_neg h33, if_neg (by omega)]
  by_cases h60 : k < 60
  · rw [if_pos h60, if_pos (by omega)]
    simp
  rw [if_neg h60, if_neg (by omega), show k - 16 - 16 - 1 - 27 = k - 60 by omega]

/-- Cutting a packed word gives its fields back (30_encoding.md R61, R63). -/
@[simp] theorem ofWord_packWord (op : BitVec 4) (x y : Coord) (v : Bool) :
    Fields.ofWord (packWord op x y v) = { op := op, rsv := 0, v := v, y := y, x := x } := by
  unfold Fields.ofWord
  congr 1
  · refine BitVec.eq_of_getLsbD_eq fun k hk => ?_
    rw [BitVec.getLsbD_extractLsb', packWord_getLsbD]
    simp [hk, show ¬ 60 + k < 16 by omega, show ¬ 60 + k < 32 by omega,
      show ¬ 60 + k < 33 by omega, show ¬ 60 + k < 60 by omega]
  · refine BitVec.eq_of_getLsbD_eq fun k hk => ?_
    rw [BitVec.getLsbD_extractLsb', packWord_getLsbD]
    simp [show ¬ 33 + k < 16 by omega, show ¬ 33 + k < 32 by omega,
      show ¬ 33 + k < 33 by omega, show 33 + k < 60 by omega]
  · rw [packWord_getLsbD]
    simp
  · refine BitVec.eq_of_getLsbD_eq fun k hk => ?_
    rw [BitVec.getLsbD_extractLsb', packWord_getLsbD]
    simp [hk, show ¬ 16 + k < 16 by omega, show 16 + k < 32 by omega]
  · refine BitVec.eq_of_getLsbD_eq fun k hk => ?_
    rw [BitVec.getLsbD_extractLsb', packWord_getLsbD]
    simp [hk]

/-- A word as R68 writes it: `op << 60 | v << 32 | y << 16 | x`. -/
theorem packWord_eq (op : BitVec 4) (x y : Coord) (v : Bool) : packWord op x y v =
    op.setWidth 64 <<< 60 ||| (BitVec.ofBool v).setWidth 64 <<< 32 ||| y.setWidth 64 <<< 16 |||
      x.setWidth 64 := by
  refine BitVec.eq_of_getLsbD_eq fun k hk => ?_
  rw [packWord_getLsbD]
  simp only [BitVec.getLsbD_or, BitVec.getLsbD_shiftLeft, BitVec.getLsbD_setWidth, hk, decide_true,
    Bool.true_and]
  by_cases h1 : k < 16
  · simp [h1, show k < 60 by omega, show k < 32 by omega]
  · by_cases h2 : k < 32
    · simp [h1, h2, show k < 60 by omega, show k - 16 < 64 by omega,
        BitVec.getLsbD_of_ge x k (by omega)]
    · have hx := BitVec.getLsbD_of_ge x k (by omega)
      have hy := BitVec.getLsbD_of_ge y (k-16) (by omega)
      by_cases h3 : k < 33
      · obtain rfl : k = 32 := by omega
        cases v
        · simp
        · simp
      · have hv : (BitVec.ofBool v).getLsbD (k - 32) = false := BitVec.getLsbD_of_ge _ _ (by omega)
        by_cases h4 : k < 60
        · simp [h1, h2, h3, h4, hx, hy, hv]
        · simp [h1, h2, h3, h4, hx, hy, hv, show k - 60 < 64 by omega]

/-- A word with RSV = 0 is the packing of its fields (30_encoding.md R61). -/
theorem packWord_ofWord {w : CmdWord} (h : (Fields.ofWord w).rsv = 0) :
    packWord (Fields.ofWord w).op (Fields.ofWord w).x (Fields.ofWord w).y (Fields.ofWord w).v = w := by
  refine BitVec.eq_of_getLsbD_eq fun k hk => ?_
  rw [packWord_getLsbD]
  unfold Fields.ofWord at h ⊢
  split
  · next h1 => simp [h1]
  · split
    · next h1 h2 =>
      rw [BitVec.getLsbD_extractLsb']
      simp [show k - 16 < 16 by omega, show 16 + (k - 16) = k by omega]
    · split
      · next h1 h2 h3 =>
        have : k = 32 := by omega
        rw [this]
      · split
        · next h1 h2 h3 h4 =>
          have := congrArg (fun v : BitVec 27 => v.getLsbD (k - 33)) h
          simp only [BitVec.getLsbD_extractLsb'] at this
          rw [show 33 + (k - 33) = k by omega] at this
          simpa [show k - 33 < 27 by omega] using this.symm
        · rw [BitVec.getLsbD_extractLsb']
          simp [show k - 60 < 4 by omega, show 60 + (k - 60) = k by omega]

/-- The decoder answers a command exactly for a legal word (30_encoding.md R66, R67). -/
theorem decode_eq_ok_iff (w : CmdWord) (i : Instr) :
    decode w = .ok i ↔
      (Fields.ofWord w).wellFormed = true ∧ (Fields.ofWord w).command = some i := by
  unfold decode Fields.wellFormed
  generalize Fields.ofWord w = f
  dsimp only
  cases h1 : f.opOk
  · simp
  cases h2 : f.rsvOk
  · simp
  cases h3 : f.unusedOk
  · simp
  cases f.command <;> simp

end Sys2Proof
end

