-- ==== Sys2Proof/Laws/State.lean ====
section
/-! SUPPORT. What each named update of State leaves alone, field by field. -/

namespace Sys2Proof.Machine

section updates
variable (s : State) (v : Bool) (c : Cause)

@[simp] theorem setBusy_build : (s.setBusy v).build = s.build := rfl
@[simp] theorem setBusy_fb : (s.setBusy v).fb = s.fb := rfl
@[simp] theorem setBusy_snap : (s.setBusy v).snap = s.snap := rfl
@[simp] theorem setBusy_mask : (s.setBusy v).mask = s.mask := rfl
@[simp] theorem setBusy_result : (s.setBusy v).result = s.result := rfl
@[simp] theorem setBusy_flight : (s.setBusy v).flight = s.flight := rfl
@[simp] theorem setBusy_inputs : (s.setBusy v).inputs = s.inputs := rfl
@[simp] theorem setBusy_draws : (s.setBusy v).draws = s.draws := rfl
@[simp] theorem setBusy_status : (s.setBusy v).status = putBit s.status busyBit v := rfl

@[simp] theorem setSnapValid_build : (s.setSnapValid v).build = s.build := rfl
@[simp] theorem setSnapValid_fb : (s.setSnapValid v).fb = s.fb := rfl
@[simp] theorem setSnapValid_snap : (s.setSnapValid v).snap = s.snap := rfl
@[simp] theorem setSnapValid_mask : (s.setSnapValid v).mask = s.mask := rfl
@[simp] theorem setSnapValid_result : (s.setSnapValid v).result = s.result := rfl
@[simp] theorem setSnapValid_flight : (s.setSnapValid v).flight = s.flight := rfl
@[simp] theorem setSnapValid_inputs : (s.setSnapValid v).inputs = s.inputs := rfl
@[simp] theorem setSnapValid_draws : (s.setSnapValid v).draws = s.draws := rfl
@[simp] theorem setSnapValid_status :
    (s.setSnapValid v).status = putBit s.status snapValidBit v := rfl

@[simp] theorem setMaskValid_build : (s.setMaskValid v).build = s.build := rfl
@[simp] theorem setMaskValid_fb : (s.setMaskValid v).fb = s.fb := rfl
@[simp] theorem setMaskValid_snap : (s.setMaskValid v).snap = s.snap := rfl
@[simp] theorem setMaskValid_mask : (s.setMaskValid v).mask = s.mask := rfl
@[simp] theorem setMaskValid_result : (s.setMaskValid v).result = s.result := rfl
@[simp] theorem setMaskValid_flight : (s.setMaskValid v).flight = s.flight := rfl
@[simp] theorem setMaskValid_inputs : (s.setMaskValid v).inputs = s.inputs := rfl
@[simp] theorem setMaskValid_draws : (s.setMaskValid v).draws = s.draws := rfl
@[simp] theorem setMaskValid_status :
    (s.setMaskValid v).status = putBit s.status maskValidBit v := rfl

@[simp] theorem raise_build : (s.raise c).build = s.build := rfl
@[simp] theorem raise_fb : (s.raise c).fb = s.fb := rfl
@[simp] theorem raise_snap : (s.raise c).snap = s.snap := rfl
@[simp] theorem raise_mask : (s.raise c).mask = s.mask := rfl
@[simp] theorem raise_result : (s.raise c).result = s.result := rfl
@[simp] theorem raise_flight : (s.raise c).flight = s.flight := rfl
@[simp] theorem raise_inputs : (s.raise c).inputs = s.inputs := rfl
@[simp] theorem raise_draws : (s.raise c).draws = s.draws := rfl
@[simp] theorem raise_status : (s.raise c).status = putBit s.status (Cause.bit c) true := rfl

@[simp] theorem lower_build : (s.lower c).build = s.build := rfl
@[simp] theorem lower_fb : (s.lower c).fb = s.fb := rfl
@[simp] theorem lower_snap : (s.lower c).snap = s.snap := rfl
@[simp] theorem lower_mask : (s.lower c).mask = s.mask := rfl
@[simp] theorem lower_result : (s.lower c).result = s.result := rfl
@[simp] theorem lower_flight : (s.lower c).flight = s.flight := rfl
@[simp] theorem lower_inputs : (s.lower c).inputs = s.inputs := rfl
@[simp] theorem lower_draws : (s.lower c).draws = s.draws := rfl
@[simp] theorem lower_status : (s.lower c).status = putBit s.status (Cause.bit c) false := rfl

@[simp] theorem snapshotTaken_build : s.snapshotTaken.build = s.build := rfl
@[simp] theorem snapshotTaken_fb : s.snapshotTaken.fb = s.fb := rfl
@[simp] theorem snapshotTaken_snap : s.snapshotTaken.snap = s.snap := rfl
@[simp] theorem snapshotTaken_mask : s.snapshotTaken.mask = s.mask := rfl
@[simp] theorem snapshotTaken_result : s.snapshotTaken.result = s.result := rfl
@[simp] theorem snapshotTaken_flight : s.snapshotTaken.flight = s.flight := rfl
@[simp] theorem snapshotTaken_inputs : s.snapshotTaken.inputs = s.inputs := rfl
@[simp] theorem snapshotTaken_draws : s.snapshotTaken.draws = s.draws := rfl
@[simp] theorem snapshotTaken_status : s.snapshotTaken.status =
    putBit (putBit s.status snapValidBit true) maskValidBit false := rfl

@[simp] theorem snapshotBody_build : (snapshotBody s).build = s.build := rfl
@[simp] theorem snapshotBody_fb : (snapshotBody s).fb = s.fb := rfl
@[simp] theorem snapshotBody_snap : (snapshotBody s).snap = Memory.copyBytes s.fb := rfl
@[simp] theorem snapshotBody_mask : (snapshotBody s).mask = s.mask := rfl
@[simp] theorem snapshotBody_result : (snapshotBody s).result = s.result := rfl
@[simp] theorem snapshotBody_flight : (snapshotBody s).flight = s.flight := rfl
@[simp] theorem snapshotBody_inputs : (snapshotBody s).inputs = s.inputs := rfl
@[simp] theorem snapshotBody_draws : (snapshotBody s).draws = s.draws := rfl
@[simp] theorem snapshotBody_status : (snapshotBody s).status =
    putBit (putBit s.status snapValidBit true) maskValidBit false := rfl

@[simp] theorem complete_build : (complete s).build = s.build := rfl
@[simp] theorem complete_fb : (complete s).fb = s.fb := rfl
@[simp] theorem complete_snap : (complete s).snap = s.snap := rfl
@[simp] theorem complete_mask : (complete s).mask = s.mask := rfl
@[simp] theorem complete_result : (complete s).result = s.result := rfl
@[simp] theorem complete_flight : (complete s).flight = none := rfl
@[simp] theorem complete_inputs : (complete s).inputs = s.inputs := rfl
@[simp] theorem complete_draws : (complete s).draws = s.draws := rfl
@[simp] theorem complete_status : (complete s).status = putBit s.status busyBit false := rfl

variable (f : InFlight)

@[simp] theorem continueWith_build : (continueWith s f).build = s.build := rfl
@[simp] theorem continueWith_fb : (continueWith s f).fb = s.fb := rfl
@[simp] theorem continueWith_snap : (continueWith s f).snap = s.snap := rfl
@[simp] theorem continueWith_mask : (continueWith s f).mask = s.mask := rfl
@[simp] theorem continueWith_result : (continueWith s f).result = s.result := rfl
@[simp] theorem continueWith_flight : (continueWith s f).flight = some f := rfl
@[simp] theorem continueWith_inputs : (continueWith s f).inputs = s.inputs := rfl
@[simp] theorem continueWith_draws : (continueWith s f).draws = s.draws := rfl
@[simp] theorem continueWith_status : (continueWith s f).status = s.status := rfl

end updates

/-! ### Bits of STATUS -/

/-- Every bit of a STATUS word with one bit written. -/
theorem putBit_getLsbD (st : Word32) (k : Nat) (v : Bool) {n : Nat} (hn : n < 32) :
    (putBit st k v).getLsbD n = if n = k then v else st.getLsbD n := by
  unfold putBit
  by_cases h : n = k
  · subst h
    cases v <;> simp [hn]
  · cases v <;> simp [h, hn]

theorem putBit_putBit (st : Word32) (k : Nat) (v w : Bool) :
    putBit (putBit st k v) k w = putBit st k w := by
  refine BitVec.eq_of_getLsbD_eq fun n hn => ?_
  rw [putBit_getLsbD _ _ _ hn, putBit_getLsbD _ _ _ hn, putBit_getLsbD _ _ _ hn]
  split <;> rfl

theorem putBit_comm (st : Word32) {k l : Nat} (v w : Bool) (h : k ≠ l) :
    putBit (putBit st k v) l w = putBit (putBit st l w) k v := by
  refine BitVec.eq_of_getLsbD_eq fun n hn => ?_
  simp only [putBit_getLsbD _ _ _ hn]
  by_cases h1 : n = k <;> by_cases h2 : n = l <;> simp_all

/-- Writing a bit with the value it holds changes nothing. -/
theorem putBit_eq_self {st : Word32} {k : Nat} {v : Bool} (h : st.getLsbD k = v) :
    putBit st k v = st := by
  refine BitVec.eq_of_getLsbD_eq fun n hn => ?_
  rw [putBit_getLsbD _ _ _ hn]
  split
  · next e => rw [e, h]
  · rfl

/-- The two refusals as numbers (60_exceptions.md R160). -/
theorem raise_ill_eq (s : State) : s.raise .ill = { s with status := s.status ||| 0x100 } := rfl
theorem raise_seqErr_eq (s : State) : s.raise .seqErr = { s with status := s.status ||| 0x200 } := rfl

/-- BUSY and MASK_VALID set, as numbers (10_state.md R23). -/
theorem setBusy_true_eq (s : State) : s.setBusy true = { s with status := s.status ||| 0x1 } := rfl
theorem setMaskValid_true_eq (s : State) :
    s.setMaskValid true = { s with status := s.status ||| 0x4 } := rfl

section flags
variable (s : State) (v : Bool) (c : Cause) (f : InFlight)

@[simp] theorem busy_setBusy : (s.setBusy v).busy = v :=
  (putBit_getLsbD s.status busyBit v (n := 0) (by decide)).trans rfl
@[simp] theorem busy_setSnapValid : (s.setSnapValid v).busy = s.busy :=
  (putBit_getLsbD s.status snapValidBit v (n := 0) (by decide)).trans rfl
@[simp] theorem busy_setMaskValid : (s.setMaskValid v).busy = s.busy :=
  (putBit_getLsbD s.status maskValidBit v (n := 0) (by decide)).trans rfl
@[simp] theorem busy_raise : (s.raise c).busy = s.busy := by
  cases c <;> exact (putBit_getLsbD s.status _ true (n := 0) (by decide)).trans rfl
@[simp] theorem busy_lower : (s.lower c).busy = s.busy := by
  cases c <;> exact (putBit_getLsbD s.status _ false (n := 0) (by decide)).trans rfl
@[simp] theorem busy_complete : (complete s).busy = false := busy_setBusy s false
@[simp] theorem busy_continueWith : (continueWith s f).busy = s.busy := rfl

@[simp] theorem snapValid_setBusy : (s.setBusy v).snapValid = s.snapValid :=
  (putBit_getLsbD s.status busyBit v (n := 1) (by decide)).trans rfl
@[simp] theorem snapValid_setSnapValid : (s.setSnapValid v).snapValid = v :=
  (putBit_getLsbD s.status snapValidBit v (n := 1) (by decide)).trans rfl
@[simp] theorem snapValid_setMaskValid : (s.setMaskValid v).snapValid = s.snapValid :=
  (putBit_getLsbD s.status maskValidBit v (n := 1) (by decide)).trans rfl
@[simp] theorem snapValid_raise : (s.raise c).snapValid = s.snapValid := by
  cases c <;> exact (putBit_getLsbD s.status _ true (n := 1) (by decide)).trans rfl
@[simp] theorem snapValid_lower : (s.lower c).snapValid = s.snapValid := by
  cases c <;> exact (putBit_getLsbD s.status _ false (n := 1) (by decide)).trans rfl
@[simp] theorem snapValid_complete : (complete s).snapValid = s.snapValid := snapValid_setBusy s false
@[simp] theorem snapValid_continueWith : (continueWith s f).snapValid = s.snapValid := rfl

@[simp] theorem maskValid_setBusy : (s.setBusy v).maskValid = s.maskValid :=
  (putBit_getLsbD s.status busyBit v (n := 2) (by decide)).trans rfl
@[simp] theorem maskValid_setSnapValid : (s.setSnapValid v).maskValid = s.maskValid :=
  (putBit_getLsbD s.status snapValidBit v (n := 2) (by decide)).trans rfl
@[simp] theorem maskValid_setMaskValid : (s.setMaskValid v).maskValid = v :=
  (putBit_getLsbD s.status maskValidBit v (n := 2) (by decide)).trans rfl
@[simp] theorem maskValid_raise : (s.raise c).maskValid = s.maskValid := by
  cases c <;> exact (putBit_getLsbD s.status _ true (n := 2) (by decide)).trans rfl
@[simp] theorem maskValid_lower : (s.lower c).maskValid = s.maskValid := by
  cases c <;> exact (putBit_getLsbD s.status _ false (n := 2) (by decide)).trans rfl
@[simp] theorem maskValid_complete : (complete s).maskValid = s.maskValid := maskValid_setBusy s false
@[simp] theorem maskValid_continueWith : (continueWith s f).maskValid = s.maskValid := rfl

@[simp] theorem ill_setBusy : (s.setBusy v).ill = s.ill :=
  (putBit_getLsbD s.status busyBit v (n := 8) (by decide)).trans rfl
@[simp] theorem ill_setSnapValid : (s.setSnapValid v).ill = s.ill :=
  (putBit_getLsbD s.status snapValidBit v (n := 8) (by decide)).trans rfl
@[simp] theorem ill_setMaskValid : (s.setMaskValid v).ill = s.ill :=
  (putBit_getLsbD s.status maskValidBit v (n := 8) (by decide)).trans rfl
@[simp] theorem ill_raise : (s.raise c).ill = (s.ill || c == .ill) := by
  cases c <;> refine (putBit_getLsbD s.status _ true (n := 8) (by decide)).trans ?_ <;>
    simp [State.ill, Cause.bit]
@[simp] theorem ill_lower : (s.lower c).ill = (s.ill && c != .ill) := by
  cases c <;> refine (putBit_getLsbD s.status _ false (n := 8) (by decide)).trans ?_ <;>
    simp [State.ill, Cause.bit]
@[simp] theorem ill_complete : (complete s).ill = s.ill := ill_setBusy s false
@[simp] theorem ill_continueWith : (continueWith s f).ill = s.ill := rfl

@[simp] theorem seqErr_setBusy : (s.setBusy v).seqErr = s.seqErr :=
  (putBit_getLsbD s.status busyBit v (n := 9) (by decide)).trans rfl
@[simp] theorem seqErr_setSnapValid : (s.setSnapValid v).seqErr = s.seqErr :=
  (putBit_getLsbD s.status snapValidBit v (n := 9) (by decide)).trans rfl
@[simp] theorem seqErr_setMaskValid : (s.setMaskValid v).seqErr = s.seqErr :=
  (putBit_getLsbD s.status maskValidBit v (n := 9) (by decide)).trans rfl
@[simp] theorem seqErr_raise : (s.raise c).seqErr = (s.seqErr || c == .seqErr) := by
  cases c <;> refine (putBit_getLsbD s.status _ true (n := 9) (by decide)).trans ?_ <;>
    simp [State.seqErr, Cause.bit]
@[simp] theorem seqErr_lower : (s.lower c).seqErr = (s.seqErr && c != .seqErr) := by
  cases c <;> refine (putBit_getLsbD s.status _ false (n := 9) (by decide)).trans ?_ <;>
    simp [State.seqErr, Cause.bit]
@[simp] theorem seqErr_complete : (complete s).seqErr = s.seqErr := seqErr_setBusy s false
@[simp] theorem seqErr_continueWith : (continueWith s f).seqErr = s.seqErr := rfl

end flags

/-- The snapshot's two status writes (41_snapshot_mask.md R100). -/
@[simp] theorem snapValid_snapshotTaken (s : State) : s.snapshotTaken.snapValid = true :=
  (snapValid_setMaskValid _ _).trans (snapValid_setSnapValid _ _)
@[simp] theorem maskValid_snapshotTaken (s : State) : s.snapshotTaken.maskValid = false :=
  maskValid_setMaskValid _ _
@[simp] theorem busy_snapshotTaken (s : State) : s.snapshotTaken.busy = s.busy :=
  (busy_setMaskValid _ _).trans (busy_setSnapValid _ _)
@[simp] theorem ill_snapshotTaken (s : State) : s.snapshotTaken.ill = s.ill :=
  (ill_setMaskValid _ _).trans (ill_setSnapValid _ _)
@[simp] theorem seqErr_snapshotTaken (s : State) : s.snapshotTaken.seqErr = s.seqErr :=
  (seqErr_setMaskValid _ _).trans (seqErr_setSnapValid _ _)
@[simp] theorem snapValid_snapshotBody (s : State) : (snapshotBody s).snapValid = true :=
  snapValid_snapshotTaken _
@[simp] theorem maskValid_snapshotBody (s : State) : (snapshotBody s).maskValid = false :=
  maskValid_snapshotTaken _
@[simp] theorem busy_snapshotBody (s : State) : (snapshotBody s).busy = s.busy :=
  busy_snapshotTaken _
@[simp] theorem ill_snapshotBody (s : State) : (snapshotBody s).ill = s.ill := ill_snapshotTaken _
@[simp] theorem seqErr_snapshotBody (s : State) : (snapshotBody s).seqErr = s.seqErr :=
  seqErr_snapshotTaken _


/-! Reset and power (10_state.md R31, 60_exceptions.md R171) -/

@[simp] theorem clearRegisters_fb (s : State) : (clearRegisters s).fb = s.fb := rfl
@[simp] theorem clearRegisters_build (s : State) : (clearRegisters s).build = s.build := rfl
@[simp] theorem clearRegisters_mask (s : State) :
    (clearRegisters s).mask = DirtyMask.unspecified s.draws s.build.R := rfl
@[simp] theorem clearRegisters_snap (s : State) :
    (clearRegisters s).snap = Memory.tabulate (Config.resetSnapByte s.draws) := rfl
@[simp] theorem clearRegisters_status (s : State) : (clearRegisters s).status = 0 := rfl
@[simp] theorem clearRegisters_result (s : State) : (clearRegisters s).result = 0 := rfl
@[simp] theorem clearRegisters_flight (s : State) : (clearRegisters s).flight = none := rfl
@[simp] theorem clearRegisters_inputs (s : State) : (clearRegisters s).inputs = s.inputs := rfl
@[simp] theorem clearRegisters_draws (s : State) : (clearRegisters s).draws = s.draws + 1 := rfl

@[simp] theorem resetBlock_fb (s : State) : (resetBlock s).fb = fbAfterReset s := rfl
@[simp] theorem resetBlock_build (s : State) : (resetBlock s).build = s.build := rfl
@[simp] theorem resetBlock_mask (s : State) :
    (resetBlock s).mask = DirtyMask.unspecified s.draws s.build.R := rfl
@[simp] theorem resetBlock_snap (s : State) :
    (resetBlock s).snap = Memory.tabulate (Config.resetSnapByte s.draws) := rfl
@[simp] theorem resetBlock_status (s : State) : (resetBlock s).status = 0 := rfl
@[simp] theorem resetBlock_result (s : State) : (resetBlock s).result = 0 := rfl
@[simp] theorem resetBlock_flight (s : State) : (resetBlock s).flight = none := rfl
@[simp] theorem resetBlock_inputs (s : State) : (resetBlock s).inputs = s.inputs := rfl
@[simp] theorem resetBlock_draws (s : State) : (resetBlock s).draws = s.draws + 1 := rfl

@[simp] theorem powerCycle_fb (s : State) :
    (powerCycle s).fb = Memory.tabulate (Config.powerUpFbByte s.draws) := rfl
@[simp] theorem powerCycle_build (s : State) : (powerCycle s).build = s.build := rfl
@[simp] theorem powerCycle_mask (s : State) :
    (powerCycle s).mask = DirtyMask.unspecified s.draws s.build.R := rfl
@[simp] theorem powerCycle_snap (s : State) :
    (powerCycle s).snap = Memory.tabulate (Config.resetSnapByte s.draws) := rfl
@[simp] theorem powerCycle_status (s : State) : (powerCycle s).status = 0 := rfl
@[simp] theorem powerCycle_result (s : State) : (powerCycle s).result = 0 := rfl
@[simp] theorem powerCycle_flight (s : State) : (powerCycle s).flight = none := rfl
@[simp] theorem powerCycle_inputs (s : State) : (powerCycle s).inputs = s.inputs := rfl
@[simp] theorem powerCycle_draws (s : State) : (powerCycle s).draws = s.draws + 1 := rfl

end Sys2Proof.Machine
end

