-- ==== Sys2Proof/Laws/Memory.lean ====
section
/-! SUPPORT. The laws of the byte arrays: read after write, the canonical form is kept, equal reads
make equal arrays, and the port never faults below 6144. -/

namespace Sys2Proof.Machine.Memory

@[simp] theorem read_nil (o : Nat) : Memory.read [] o = 0 := rfl

@[simp] theorem read_cons (c : Host.Cell) (rest : Memory) (o : Nat) :
    Memory.read (c :: rest) o = if c.1 = o then c.2 else Memory.read rest o := rfl

theorem read_put (rest : Memory) (o k : Nat) (b : Byte) (h : Memory.read rest o = 0) :
    Memory.read (Memory.put o b rest) k = if k = o then b else Memory.read rest k := by
  unfold Memory.put
  split
  · next hb =>
    split
    · next hk => rw [hk, h, hb]
    · rfl
  · by_cases hk : k = o
    · simp [hk]
    · simp [hk, Ne.symm hk]

/-- No entry with the offset: it reads as an unlisted one. -/
theorem read_eq_zero (m : Memory) (o : Nat) (h : ∀ c ∈ m, c.1 ≠ o) : Memory.read m o = 0 := by
  induction m with
  | nil => rfl
  | cons c rest ih => simp_all

/-- Read after write, in an array whose offsets rise. -/
theorem read_write (m : Memory) (o k : Nat) (b : Byte) (h : m.Pairwise (fun c d => c.1 < d.1)) :
    Memory.read (Memory.write m o b) k = if k = o then b else Memory.read m k := by
  induction m with
  | nil => exact read_put [] o k b rfl
  | cons c rest ih =>
    obtain ⟨hc, hrest⟩ := List.pairwise_cons.1 h
    unfold Memory.write
    split
    · next hlt =>
      apply read_put
      apply read_eq_zero
      intro d hd
      rcases List.mem_cons.1 hd with rfl | hd
      · omega
      · have := hc d hd
        omega
    · split
      · next heq =>
        rw [read_put rest o k b (read_eq_zero _ _ fun d hd => by have := hc d hd; omega)]
        by_cases hk : k = o
        · simp [hk]
        · have : c.1 ≠ k := by omega
          simp [hk, this]
      · next hne =>
        rw [read_cons, read_cons, ih hrest]
        by_cases hk : k = o
        · subst hk
          simp [hne]
        · simp [hk]

theorem mem_put {o : Nat} {b : Byte} {rest : Memory} {c : Host.Cell}
    (h : c ∈ Memory.put o b rest) : (c = (o, b) ∧ b ≠ 0) ∨ c ∈ rest := by
  unfold Memory.put at h
  split at h
  · exact .inr h
  · next hb => exact (List.mem_cons.1 h).imp_left fun e => ⟨e, hb⟩

/-- An entry after a write is the byte written or was there before. -/
theorem mem_write {m : Memory} {o : Nat} {b : Byte} {c : Host.Cell}
    (h : c ∈ Memory.write m o b) : (c = (o, b) ∧ b ≠ 0) ∨ c ∈ m := by
  induction m with
  | nil => exact mem_put h
  | cons d rest ih =>
    unfold Memory.write at h
    split at h
    · exact mem_put h
    · split at h
      · exact (mem_put h).imp_right (List.mem_cons_of_mem _)
      · rcases List.mem_cons.1 h with rfl | h
        · exact .inr (List.mem_cons_self ..)
        · exact (ih h).imp_right (List.mem_cons_of_mem _)

theorem pairwise_put {o : Nat} {b : Byte} {rest : Memory}
    (h : rest.Pairwise (fun c d => c.1 < d.1)) (ho : ∀ c ∈ rest, o < c.1) :
    (Memory.put o b rest).Pairwise (fun c d => c.1 < d.1) := by
  unfold Memory.put
  split
  · exact h
  · exact List.pairwise_cons.2 ⟨ho, h⟩

theorem pairwise_write {m : Memory} (o : Nat) (b : Byte)
    (h : m.Pairwise (fun c d => c.1 < d.1)) :
    (Memory.write m o b).Pairwise (fun c d => c.1 < d.1) := by
  induction m with
  | nil => exact pairwise_put h (by simp)
  | cons d rest ih =>
    obtain ⟨hd, hrest⟩ := List.pairwise_cons.1 h
    unfold Memory.write
    split
    · next hlt =>
      refine pairwise_put h fun c hc => ?_
      rcases List.mem_cons.1 hc with rfl | hc
      · exact hlt
      · exact hlt.trans (hd c hc)
    · split
      · next heq => exact pairwise_put hrest fun c hc => heq ▸ hd c hc
      · refine List.pairwise_cons.2 ⟨fun c hc => ?_, ih hrest⟩
        rcases mem_write hc with ⟨rfl, -⟩ | hc
        · show d.1 < o
          omega
        · exact hd c hc

/-- A write at an offset that exists keeps the canonical form. -/
theorem write_wf {m : Memory} {o : Nat} (b : Byte) (h : Memory.wf m) (ho : o < Config.fbBytes) :
    Memory.wf (Memory.write m o b) := by
  refine ⟨pairwise_write o b h.1, fun c hc => ?_⟩
  rcases mem_write hc with ⟨rfl, hb⟩ | hc
  · exact ⟨ho, hb⟩
  · exact h.2 c hc

theorem nil_wf : Memory.wf [] := ⟨List.Pairwise.nil, by simp⟩

theorem tail_wf {c : Host.Cell} {rest : Memory} (h : Memory.wf (c :: rest)) : Memory.wf rest :=
  ⟨(List.pairwise_cons.1 h.1).2, fun d hd => h.2 d (List.mem_cons_of_mem _ hd)⟩

/-- An array in canonical form reads 0 where no offset exists. -/
theorem read_outside {m : Memory} (h : Memory.wf m) {o : Nat} (ho : Config.fbBytes ≤ o) :
    Memory.read m o = 0 :=
  read_eq_zero m o fun c hc e => by
    have := (h.2 c hc).1
    omega

theorem read_below {c : Host.Cell} {rest : Memory} (h : Memory.wf (c :: rest)) {o : Nat}
    (ho : o ≤ c.1) : Memory.read rest o = 0 :=
  read_eq_zero rest o fun d hd e => by
    have := (List.pairwise_cons.1 h.1).1 d hd
    omega

/-- Equal reads make equal arrays: the form is canonical. -/
theorem ext {m n : Memory} (hm : Memory.wf m) (hn : Memory.wf n)
    (h : ∀ o < Config.fbBytes, Memory.read m o = Memory.read n o) : m = n := by
  have hall : ∀ o, Memory.read m o = Memory.read n o := fun o => by
    by_cases ho : o < Config.fbBytes
    · exact h o ho
    · rw [read_outside hm (by omega), read_outside hn (by omega)]
  clear h
  induction m generalizing n with
  | nil =>
    cases n with
    | nil => rfl
    | cons d rest =>
      have := hall d.1
      simp only [read_nil, read_cons, if_true] at this
      exact absurd this.symm (hn.2 d (List.mem_cons_self ..)).2
  | cons c m ih =>
    cases n with
    | nil =>
      have := hall c.1
      simp only [read_nil, read_cons, if_true] at this
      exact absurd this (hm.2 c (List.mem_cons_self ..)).2
    | cons d n =>
      have hkey : c.1 = d.1 := by
        rcases Nat.lt_trichotomy c.1 d.1 with hlt | heq | hlt
        · have := hall c.1
          rw [read_cons, if_pos rfl, read_cons, if_neg (by omega), read_below hn (by omega)] at this
          exact absurd this (hm.2 c (List.mem_cons_self ..)).2
        · exact heq
        · have := hall d.1
          rw [read_cons, if_neg (by omega), read_cons, if_pos rfl, read_below hm (by omega)] at this
          exact absurd this.symm (hn.2 d (List.mem_cons_self ..)).2
      have hval : c.2 = d.2 := by
        have := hall c.1
        rw [read_cons, if_pos rfl, read_cons, if_pos hkey.symm] at this
        exact this
      have hrest : m = n := by
        refine ih (tail_wf hm) (tail_wf hn) fun o => ?_
        by_cases ho : c.1 = o
        · rw [read_below hm (by omega), read_below hn (by omega)]
        · have := hall o
          rwa [read_cons, if_neg ho, read_cons, if_neg (by omega)] at this
      rw [hrest, Prod.ext hkey hval]

/-! ### Copying and tabulating -/

theorem read_filter (m : Memory) (p : Nat → Bool) (o : Nat) :
    Memory.read (m.filter (fun c => p c.1)) o = if p o then Memory.read m o else 0 := by
  induction m with
  | nil => simp
  | cons c rest ih =>
    by_cases hp : p c.1 = true
    · rw [List.filter_cons_of_pos (by simpa using hp), read_cons, read_cons, ih]
      by_cases ho : c.1 = o
      · subst ho
        simp [hp]
      · simp [ho]
    · rw [List.filter_cons_of_neg (by simpa using hp), ih, read_cons]
      by_cases ho : c.1 = o
      · subst ho
        simp [hp]
      · simp [ho]

/-- The copy holds every byte of the original (41_snapshot_mask.md R100). -/
theorem read_copyBytes (m : Memory) {o : Nat} (ho : o < Config.fbBytes) :
    Memory.read (Memory.copyBytes m) o = Memory.read m o := by
  unfold Memory.copyBytes
  rw [read_filter m (fun a => decide (a < Config.fbBytes))]
  simp [ho]

/-- Of an array in canonical form the copy is the array. -/
theorem copyBytes_eq {m : Memory} (h : Memory.wf m) : Memory.copyBytes m = m :=
  List.filter_eq_self.2 fun c hc => by simpa using (h.2 c hc).1

theorem tabulate_wf (f : Nat → Byte) : Memory.wf (Memory.tabulate f) := by
  unfold Memory.tabulate
  refine ⟨(List.Pairwise.filter _ ?_), fun c hc => ?_⟩
  · exact List.pairwise_map.2 (List.pairwise_lt_range.imp fun h => h)
  · obtain ⟨hmem, hne⟩ := List.mem_filter.1 hc
    obtain ⟨o, ho, rfl⟩ := List.mem_map.1 hmem
    exact ⟨List.mem_range.1 ho, by simpa using hne⟩

theorem read_filter_map (l : List Nat) (f : Nat → Byte) (o : Nat) :
    Memory.read ((l.map (fun o => (o, f o))).filter (fun c => c.2 ≠ unlistedByte)) o =
      if o ∈ l then f o else 0 := by
  induction l with
  | nil => simp
  | cons a l ih =>
    rw [List.map_cons]
    by_cases hz : f a = unlistedByte
    · rw [List.filter_cons_of_neg (by simp [hz]), ih]
      by_cases ho : o = a
      · subst ho
        simp [hz]
      · simp [ho]
    · rw [List.filter_cons_of_pos (by simpa using hz), read_cons, ih]
      by_cases ho : o = a
      · subst ho
        simp
      · simp [ho, Ne.symm ho]

theorem read_tabulate (f : Nat → Byte) {o : Nat} (ho : o < Config.fbBytes) :
    Memory.read (Memory.tabulate f) o = f o := by
  unfold Memory.tabulate
  rw [read_filter_map, if_pos (List.mem_range.2 ho)]

/-- A bit of a mixed byte is the old or the new one. -/
theorem mixByte_getLsbD (pick old new : Byte) (k : Nat) :
    (mixByte pick old new).getLsbD k = if pick.getLsbD k then new.getLsbD k else old.getLsbD k := by
  unfold mixByte
  by_cases hk : k < 8
  · rw [BitVec.getLsbD_or, BitVec.getLsbD_and, BitVec.getLsbD_and, BitVec.getLsbD_not]
    cases h : pick.getLsbD k <;> simp [hk]
  · have h0 : ∀ b : Byte, b.getLsbD k = false := fun b => BitVec.getLsbD_of_ge b k (by omega)
    simp [h0]

end Sys2Proof.Machine.Memory

namespace Sys2Proof.Machine

/-- The port reads every offset that exists. -/
theorem portRead_ok (m : Memory) {o : PortOffset} (h : o.toNat < Config.fbBytes) :
    portRead m o = .ok (Memory.read m o.toNat) := by
  simp [portRead, h]

/-- The port writes every offset that exists. -/
theorem portWrite_ok (m : Memory) {o : PortOffset} (b : Byte) (h : o.toNat < Config.fbBytes) :
    portWrite m o b = .ok (Memory.write m o.toNat b) := by
  simp [portWrite, h]

/-- The port faults exactly at the offsets that do not exist (20_memory.md R48). -/
theorem portRead_error_iff (m : Memory) (o : PortOffset) :
    (∃ e, portRead m o = .error e) ↔ Config.fbBytes ≤ o.toNat := by
  unfold portRead
  split <;> simp <;> omega

end Sys2Proof.Machine
end

