-- ==== Sys2Proof/Laws/Operands.lean ====
section
/-! SUPPORT. The laws of the AddressTranslator and of the two bit primitives: they never leave the
arrays, they compute `cellAt`, and a bit write changes one cell. -/

namespace Sys2Proof.Machine

/-! ### AddressTranslator -/

theorem inRange_iff (x y : Coord) : inRange x y = true ↔ x.toNat < 256 ∧ y.toNat < 192 := by
  simp [inRange, BitVec.ult, Config.width, Config.height]

theorem append_toNat {v w : Nat} (a : BitVec v) (b : BitVec w) :
    (a ++ b).toNat = a.toNat * 2 ^ w + b.toNat := by
  rw [BitVec.toNat_append, ← Nat.shiftLeft_add_eq_or_of_lt b.isLt, Nat.shiftLeft_eq]

theorem extract_toNat {w : Nat} (a : BitVec w) (lo len : Nat) :
    (a.extractLsb' lo len).toNat = a.toNat / 2 ^ lo % 2 ^ len := by
  rw [BitVec.extractLsb'_toNat, Nat.shiftRight_eq_div_pow]

/-- The offset as a sum (40_translate_access.md R81). -/
theorem offset_toNat (x y : Coord) : (offset x y).toNat =
    y.toNat / 64 % 4 * 2048 + y.toNat % 8 * 256 + y.toNat / 8 % 8 * 32 + x.toNat / 8 % 32 := by
  unfold offset
  erw [append_toNat, append_toNat, append_toNat, extract_toNat, extract_toNat, extract_toNat,
    extract_toNat]
  omega

/-- The digits of a number below 192 in the groups of 40_translate_access.md R81. -/
theorem row_digits {n : Nat} (h : n < 192) : n / 64 % 4 = n / 64 ∧ n / 64 ≤ 2 ∧
    n / 8 % 8 = n / 8 - n / 64 * 8 ∧ n % 8 = n - n / 8 * 8 ∧ n / 64 * 8 ≤ n / 8 ∧ n / 8 * 8 ≤ n ∧
    n / 8 < n / 64 * 8 + 8 ∧ n < n / 8 * 8 + 8 := by
  have : n / 64 = n / 8 / 8 := by rw [Nat.div_div_eq_div_mul]
  omega

/-- The offset of a coordinate in range, without the remainders. -/
theorem offset_inRange {x y : Coord} (h : inRange x y = true) : (offset x y).toNat =
    y.toNat / 64 * 2048 + (y.toNat - y.toNat / 8 * 8) * 256 +
      (y.toNat / 8 - y.toNat / 64 * 8) * 32 + x.toNat / 8 := by
  rw [inRange_iff] at h
  obtain ⟨h1, -, h2, h3, -⟩ := row_digits h.2
  rw [offset_toNat, h1, h2, h3]
  omega

/-- No coordinate in range is translated outside the arrays (20_memory.md R49). -/
theorem offset_lt {x y : Coord} (h : inRange x y = true) :
    (offset x y).toNat < Config.fbBytes := by
  rw [offset_inRange h]
  rw [inRange_iff] at h
  obtain ⟨-, h1, -, -, h2⟩ := row_digits h.2
  show _ < 6144
  omega

theorem bitIndex_eq (x : Coord) : bitIndex x = 7 - x.toNat % 8 := by
  unfold bitIndex
  rw [extract_toNat]
  omega

theorem bitIndex_lt (x : Coord) : bitIndex x < 8 := by
  rw [bitIndex_eq]
  omega

/-- Two cells in range share offset and bit only if they are the same (40_translate_access.md R83). -/
theorem pixel_inj {x y x' y' : Coord} (h : inRange x y = true) (h' : inRange x' y' = true)
    (ho : (offset x y).toNat = (offset x' y').toNat) (hb : bitIndex x = bitIndex x') :
    x = x' ∧ y = y' := by
  rw [offset_inRange h, offset_inRange h'] at ho
  rw [bitIndex_eq, bitIndex_eq] at hb
  rw [inRange_iff] at h h'
  obtain ⟨-, h1, -, -, h2⟩ := row_digits h.2
  obtain ⟨-, h1', -, -, h2'⟩ := row_digits h'.2
  have h64 : y.toNat / 64 = y'.toNat / 64 := by omega
  have hlow : y.toNat - y.toNat / 8 * 8 = y'.toNat - y'.toNat / 8 * 8 := by omega
  have h8 : y.toNat / 8 = y'.toNat / 8 := by omega
  have hx : x.toNat = x'.toNat := by omega
  have hy : y.toNat = y'.toNat := by omega
  exact ⟨BitVec.eq_of_toNat_eq hx, BitVec.eq_of_toNat_eq hy⟩

/-! ### Bits of a byte -/

theorem bitMask_eq (x : Coord) : bitMask x = BitVec.twoPow 8 (bitIndex x) := by
  simp [bitMask, BitVec.twoPow]

theorem and_bitMask (b : Byte) (x : Coord) :
    ((b &&& bitMask x) != 0) = b.getLsbD (bitIndex x) := by
  rw [bitMask_eq, BitVec.and_twoPow]
  cases h : b.getLsbD (bitIndex x)
  · simp
  · have hlt := bitIndex_lt x
    simp only [if_true, bne_iff_ne, ne_eq]
    intro e
    have := congrArg (fun v : Byte => v.getLsbD (bitIndex x)) e
    simp [hlt] at this

/-- Merging writes the mask's bit and no other (40_translate_access.md R84). -/
theorem mergeBit_getLsbD (b : Byte) (x : Coord) (v : Bool) {k : Nat} (hk : k < 8) :
    (mergeBit b (bitMask x) v).getLsbD k = if k = bitIndex x then v else b.getLsbD k := by
  unfold mergeBit
  rw [bitMask_eq]
  by_cases h : k = bitIndex x
  · subst h
    cases v <;> simp [hk]
  · cases v <;> simp [h, hk]

/-! ### The bit primitives -/

/-- `BitGet` reads the cell and never leaves the array (40_translate_access.md R85). -/
@[simp] theorem bitGet_eq (m : Memory) (x y : Coord) : bitGet m x y = .ok (cellAt m x y) := by
  unfold bitGet cellAt
  cases h : inRange x y
  · simp
  · rw [portRead_ok m (offset_lt h)]
    show Except.ok _ = Except.ok _
    rw [and_bitMask]
    simp

/-- A cell is alive when its coordinates are in range and its bit is set (10_state.md R25). -/
theorem cellAt_iff (m : Memory) (x y : Coord) : cellAt m x y = true ↔
    x.toNat < 256 ∧ y.toNat < 192 ∧
      (Memory.read m (offset x y).toNat).getLsbD (7 - x.toNat % 8) = true := by
  unfold cellAt
  rw [Bool.and_eq_true, inRange_iff, bitIndex_eq, and_assoc]

theorem cellAt_outside (m : Memory) {x y : Coord} (h : inRange x y = false) :
    cellAt m x y = false := by
  unfold cellAt
  rw [h]
  rfl

/-- The copy has the cells of the original (41_snapshot_mask.md R100). -/
@[simp] theorem cellAt_copyBytes (m : Memory) (x y : Coord) :
    cellAt (Memory.copyBytes m) x y = cellAt m x y := by
  unfold cellAt
  cases h : inRange x y
  · rfl
  · rw [Memory.read_copyBytes m (offset_lt h)]

theorem resultOfBit_eq (v : Bool) : resultOfBit v = if v = true then 1 else 0 := by
  cases v <;> rfl

/-- The array after a bit write, without the port. -/
def Memory.setCell (m : Memory) (x y : Coord) (v : Bool) : Memory :=
  if inRange x y then
    Memory.write m (offset x y).toNat
      (mergeBit (Memory.read m (offset x y).toNat) (bitMask x) v)
  else m

/-- `FbSetBit` never leaves the array (40_translate_access.md R84). -/
@[simp] theorem fbSetBit_eq (m : Memory) (x y : Coord) (v : Bool) :
    fbSetBit m x y v = .ok (Memory.setCell m x y v) := by
  unfold fbSetBit Memory.setCell
  cases h : inRange x y
  · simp
  · rw [portRead_ok m (offset_lt h)]
    show portWrite _ _ _ = _
    rw [portWrite_ok _ _ (offset_lt h)]
    simp

theorem setCell_wf {m : Memory} (x y : Coord) (v : Bool) (h : Memory.wf m) :
    Memory.wf (Memory.setCell m x y v) := by
  unfold Memory.setCell
  split
  · next hr => exact Memory.write_wf _ h (offset_lt hr)
  · exact h

/-- Every bit of every byte after a bit write. -/
theorem read_setCell {m : Memory} (hm : m.Pairwise (fun c d => c.1 < d.1)) (x y : Coord) (v : Bool)
    (o : Nat) {k : Nat} (hk : k < 8) :
    (Memory.read (Memory.setCell m x y v) o).getLsbD k =
      if inRange x y = true ∧ o = (offset x y).toNat ∧ k = bitIndex x then v
      else (Memory.read m o).getLsbD k := by
  unfold Memory.setCell
  cases hr : inRange x y
  · simp
  · rw [if_pos rfl, Memory.read_write _ _ _ _ hm]
    by_cases ho : o = (offset x y).toNat
    · rw [if_pos ho, mergeBit_getLsbD _ _ _ hk, ho]
      simp
    · simp [ho]

/-- A bit write changes one cell and no other (40_translate_access.md R84, R91). -/
theorem cellAt_setCell {m : Memory} (hm : m.Pairwise (fun c d => c.1 < d.1)) (x y : Coord)
    (v : Bool) (x' y' : Coord) :
    cellAt (Memory.setCell m x y v) x' y' =
      if inRange x y = true ∧ x' = x ∧ y' = y then v else cellAt m x' y' := by
  unfold cellAt
  cases hr' : inRange x' y'
  · by_cases h : inRange x y = true ∧ x' = x ∧ y' = y
    · obtain ⟨hr, rfl, rfl⟩ := h
      simp [hr] at hr'
    · simp [h]
  · rw [read_setCell hm x y v _ (bitIndex_lt x')]
    by_cases h : inRange x y = true ∧ x' = x ∧ y' = y
    · obtain ⟨hr, rfl, rfl⟩ := h
      simp [hr]
    · rw [if_neg h, if_neg]
      rintro ⟨hr, ho, hb⟩
      exact h ⟨hr, pixel_inj hr' hr ho hb⟩

/-- The cell of an offset and a bit (40_translate_access.md R90). -/
theorem scan_spec (o : PortOffset) (b : BitVec 3) (ho : o.toNat < Config.fbBytes) :
    inRange (scanX o b) (scanY o) = true ∧ offset (scanX o b) (scanY o) = o ∧
      bitIndex (scanX o b) = b.toNat := by
  have hb := b.isLt
  have ho' : o.toNat < 6144 := ho
  generalize ht : o.toNat / 2048 = third
  generalize hr : o.toNat / 256 % 8 = raster
  generalize hc : o.toNat / 32 % 8 = row
  generalize hk : o.toNat % 32 = column
  have hd1 : o.toNat / 256 / 8 = o.toNat / 2048 := by rw [Nat.div_div_eq_div_mul]
  have hd2 : o.toNat / 32 / 8 = o.toNat / 256 := by rw [Nat.div_div_eq_div_mul]
  have hsum : o.toNat = third * 2048 + raster * 256 + row * 32 + column := by omega
  have hbounds : third ≤ 2 ∧ raster < 8 ∧ row < 8 ∧ column < 32 := by omega
  have hx : (scanX o b).toNat = column * 8 + (7 - b.toNat) := by
    have h7 : (7 - b).toNat = 7 - b.toNat := by
      rw [BitVec.toNat_sub]
      show (2 ^ 3 - b.toNat + 7) % 2 ^ 3 = _
      omega
    unfold scanX
    erw [BitVec.toNat_setWidth, append_toNat, extract_toNat, h7]
    rw [← hk]
    omega
  have hy : (scanY o).toNat = third * 64 + row * 8 + raster := by
    unfold scanY
    erw [BitVec.toNat_setWidth, append_toNat, append_toNat, extract_toNat, extract_toNat,
      extract_toNat]
    show ((o.toNat / 2048 % 4 * 8 + o.toNat / 32 % 8) * 8 + o.toNat / 256 % 8) % 65536 = _
    rw [hr, hc, ht, Nat.mod_eq_of_lt (show third < 4 by omega)]
    omega
  have hin : inRange (scanX o b) (scanY o) = true := by
    rw [inRange_iff, hx, hy]
    omega
  refine ⟨hin, BitVec.eq_of_toNat_eq ?_, ?_⟩
  · have h64 : (third * 64 + row * 8 + raster) / 64 = third := by omega
    have h8 : (third * 64 + row * 8 + raster) / 8 = third * 8 + row := by omega
    have hx8 : (column * 8 + (7 - b.toNat)) / 8 = column := by omega
    rw [offset_inRange hin, hx, hy, h64, h8, hx8]
    omega
  · rw [bitIndex_eq, hx]
    omega

/-- Arrays in canonical form with equal cells are equal. -/
theorem memory_ext_cells {m n : Memory} (hm : Memory.wf m) (hn : Memory.wf n)
    (h : ∀ x y, inRange x y = true → cellAt m x y = cellAt n x y) : m = n := by
  refine Memory.ext hm hn fun o ho => BitVec.eq_of_getLsbD_eq fun k hk => ?_
  have hto : (BitVec.ofNat 13 o).toNat = o := by
    have : o < 6144 := ho
    rw [BitVec.toNat_ofNat]
    omega
  have hkb : (BitVec.ofNat 3 k).toNat = k := by
    rw [BitVec.toNat_ofNat]
    omega
  obtain ⟨hr, hoff, hbit⟩ := scan_spec (BitVec.ofNat 13 o) (BitVec.ofNat 3 k) (by rw [hto]; exact ho)
  have := h _ _ hr
  unfold cellAt at this
  rwa [hr, Bool.true_and, Bool.true_and, hoff, hbit, hto, hkb] at this

/-! ### ActiveRegion -/

theorem build_legal (b : Build) : b.R % 2 = 0 ∧ 2 ≤ b.R ∧ b.R ≤ 192 := b.legal

theorem cellX_toNat (b : Build) {i : Nat} (h : i < b.R) : (cellX b i).toNat = b.x0 + i := by
  have := build_legal b
  unfold cellX
  rw [BitVec.toNat_ofNat]
  unfold Build.x0 Config.width
  omega

theorem cellY_toNat (b : Build) {j : Nat} (h : j < b.R) : (cellY b j).toNat = b.y0 + j := by
  have := build_legal b
  unfold cellY
  rw [BitVec.toNat_ofNat]
  unfold Build.y0 Config.height
  omega

/-- Every region cell is in range (41_snapshot_mask.md R102). -/
theorem inRange_of_inRegion {b : Build} {x y : Coord} (h : inRegion b x y = true) :
    inRange x y = true := by
  have hb := build_legal b
  unfold inRegion at h
  rw [decide_eq_true_eq] at h
  unfold Build.x0 Build.y0 Config.width Config.height at h
  rw [inRange_iff]
  omega

theorem cell_inRegion (b : Build) {i j : Nat} (hi : i < b.R) (hj : j < b.R) :
    inRegion b (cellX b i) (cellY b j) = true := by
  simp only [inRegion, decide_eq_true_eq, cellX_toNat b hi, cellY_toNat b hj]
  omega

theorem cell_inRange (b : Build) {i j : Nat} (hi : i < b.R) (hj : j < b.R) :
    inRange (cellX b i) (cellY b j) = true :=
  inRange_of_inRegion (cell_inRegion b hi hj)

/-- A coordinate in the region is the cell of its region-local coordinates (41_snapshot_mask.md
R102). -/
theorem cell_of_inRegion {b : Build} {x y : Coord} (h : inRegion b x y = true) :
    ∃ i j, i < b.R ∧ j < b.R ∧ x = cellX b i ∧ y = cellY b j := by
  have h' := h
  simp only [inRegion, decide_eq_true_eq] at h'
  have hi : x.toNat - b.x0 < b.R := by omega
  have hj : y.toNat - b.y0 < b.R := by omega
  refine ⟨x.toNat - b.x0, y.toNat - b.y0, hi, hj, BitVec.eq_of_toNat_eq ?_, BitVec.eq_of_toNat_eq ?_⟩
  · rw [cellX_toNat b hi]
    omega
  · rw [cellY_toNat b hj]
    omega

theorem cell_inj (b : Build) {i j i' j' : Nat} (hi : i < b.R) (hj : j < b.R) (hi' : i' < b.R)
    (hj' : j' < b.R) (hx : cellX b i = cellX b i') (hy : cellY b j = cellY b j') :
    i = i' ∧ j = j' := by
  have hx := congrArg BitVec.toNat hx
  have hy := congrArg BitVec.toNat hy
  rw [cellX_toNat b hi, cellX_toNat b hi'] at hx
  rw [cellY_toNat b hj, cellY_toNat b hj'] at hy
  omega

theorem mem_regionCells (b : Build) (i j : Nat) :
    (i, j) ∈ regionCells b ↔ i < b.R ∧ j < b.R := by
  simp [regionCells, and_comm]

theorem nodup_regionCells (b : Build) : (regionCells b).Nodup := by
  refine List.nodup_flatMap.2 ⟨fun j _ => ?_, ?_⟩
  · exact (List.nodup_range).map fun i i' h => (Prod.ext_iff.1 h).1
  · refine (List.nodup_range).pairwise_of_forall_ne fun j _ j' _ hne => ?_
    intro c hc hc'
    obtain ⟨i, -, rfl⟩ := List.mem_map.1 hc
    obtain ⟨i', -, h⟩ := List.mem_map.1 hc'
    exact hne (Prod.ext_iff.1 h).2.symm

end Sys2Proof.Machine
end

