-- ==== Sys2Proof/Laws/Mask.lean ====
section
/-! SUPPORT. The laws of MASK and of BUILD_MASK: what one flag changes, what one visit flags, what the
whole loop leaves. -/

namespace Sys2Proof.Machine

/-- A loop whose body never stops is a plain fold. -/
theorem foldlM_ok {α β : Type} (f : α → β → Except Fault α) (g : α → β → α)
    (h : ∀ a b, f a b = .ok (g a b)) (a : α) (l : List β) :
    l.foldlM f a = .ok (l.foldl g a) := by
  induction l generalizing a with
  | nil => rfl
  | cons b l ih =>
    rw [List.foldlM_cons, List.foldl_cons, h]
    exact ih _

/-! ### Bits of MASK -/

@[simp] theorem get_clear (i j : Nat) : DirtyMask.get DirtyMask.clear i j = false := by
  unfold DirtyMask.get DirtyMask.clear
  split <;> simp

theorem get_flag (m : DirtyMask) (a c i j : Nat) :
    DirtyMask.get (DirtyMask.flag m a c) i j =
      (DirtyMask.get m i j || decide (i = a ∧ j = c ∧ a < Config.maxSide ∧ c < Config.maxSide)) := by
  unfold DirtyMask.get DirtyMask.flag
  by_cases hj : j < Config.maxSide
  · by_cases hc : c < Config.maxSide
    · rw [dif_pos hj, dif_pos hj, dif_pos hc, Vector.getElem_set]
      by_cases h : c = j
      · subst h
        rw [if_pos rfl, BitVec.getLsbD_or, BitVec.getLsbD_twoPow]
        congr 1
        rw [Bool.eq_iff_iff, Bool.and_eq_true, decide_eq_true_eq, decide_eq_true_eq,
          decide_eq_true_eq]
        exact ⟨fun h => ⟨h.2.symm, rfl, h.1, hc⟩, fun h => ⟨h.2.2.1, h.1.symm⟩⟩
      · have h' : ¬ j = c := fun e => h e.symm
        rw [if_neg h]
        simp [h']
    · rw [dif_pos hj, dif_pos hj, dif_neg hc]
      simp [hc]
  · rw [dif_neg hj, dif_neg hj]
    have : ¬ (i = a ∧ j = c ∧ a < Config.maxSide ∧ c < Config.maxSide) := by omega
    simp [this]

/-- Masks with equal bits are equal. -/
theorem mask_ext {m n : DirtyMask}
    (h : ∀ i j, i < Config.maxSide → j < Config.maxSide → DirtyMask.get m i j = DirtyMask.get n i j) :
    m = n := by
  refine Vector.ext fun j hj => BitVec.eq_of_getLsbD_eq fun i hi => ?_
  have := h i j hi hj
  unfold DirtyMask.get at this
  rwa [dif_pos hj, dif_pos hj] at this

/-! ### One visit -/

theorem get_flagClamped {R : Nat} (hR : R ≤ Config.maxSide) (m : DirtyMask) (a c : Int) (i j : Nat) :
    DirtyMask.get (if 0 ≤ a ∧ a < R ∧ 0 ≤ c ∧ c < R then DirtyMask.flag m a.toNat c.toNat else m) i j
      = true ↔ DirtyMask.get m i j = true ∨ (i < R ∧ j < R ∧ (i : Int) = a ∧ (j : Int) = c) := by
  split
  · rw [get_flag, Bool.or_eq_true, decide_eq_true_eq]
    refine or_congr_right ?_
    omega
  · refine ⟨.inl, fun h => h.resolve_right ?_⟩
    omega

/-- A live cell flags itself and its neighbours inside the region (41_snapshot_mask.md R103). -/
theorem get_flagAround {R : Nat} (hR : R ≤ Config.maxSide) (m : DirtyMask) (a c i j : Nat) :
    DirtyMask.get (flagAround R m a c) i j = true ↔ DirtyMask.get m i j = true ∨
      (i < R ∧ j < R ∧ i ≤ a + 1 ∧ a ≤ i + 1 ∧ j ≤ c + 1 ∧ c ≤ j + 1) := by
  unfold flagAround deltas
  simp only [List.foldl_cons, List.foldl_nil, get_flagClamped hR]
  by_cases h : DirtyMask.get m i j = true
  · simp [h]
  · simp only [h, false_or, Bool.false_eq_true]
    omega

/-! ### The whole loop -/

/-- MASK rebuilt from SNAP, without the ports. -/
@[irreducible] def maskOf (b : Build) (snap : Memory) : DirtyMask :=
  (regionCells b).foldl (fun m c => if cellAt snap (cellX b c.1) (cellY b c.2)
    then flagAround b.R m c.1 c.2 else m) DirtyMask.clear

theorem flagVisit_eq (b : Build) (snap : Memory) (m : DirtyMask) (i j : Nat) :
    flagVisit b snap m i j = .ok (if cellAt snap (cellX b i) (cellY b j)
      then flagAround b.R m i j else m) := by
  unfold flagVisit
  rw [bitGet_eq]
  rfl

@[simp] theorem buildMask_eq (b : Build) (snap : Memory) :
    buildMask b snap = .ok (maskOf b snap) := by
  unfold maskOf
  exact foldlM_ok _ _ (fun m (c : Nat × Nat) => flagVisit_eq b snap m c.1 c.2) _ _

/-- What a list of visits has flagged. -/
theorem get_flagFold (b : Build) (snap : Memory) (m : DirtyMask) (l : List (Nat × Nat)) (i j : Nat) :
    DirtyMask.get (l.foldl (fun m c => if cellAt snap (cellX b c.1) (cellY b c.2)
        then flagAround b.R m c.1 c.2 else m) m) i j = true ↔ DirtyMask.get m i j = true ∨
      ∃ c ∈ l, cellAt snap (cellX b c.1) (cellY b c.2) = true ∧
        (i < b.R ∧ j < b.R ∧ i ≤ c.1 + 1 ∧ c.1 ≤ i + 1 ∧ j ≤ c.2 + 1 ∧ c.2 ≤ j + 1) := by
  induction l generalizing m with
  | nil => simp
  | cons c l ih =>
    rw [List.foldl_cons, ih]
    simp only [List.mem_cons, exists_eq_or_imp]
    rw [← or_assoc]
    refine or_congr_left ?_
    split
    · next hc => rw [get_flagAround (build_legal b).2.2, hc]; simp
    · next hc => simp [hc]

/-- The flagged cells are those with a live region cell at or around them (41_snapshot_mask.md R103,
R106). -/
theorem get_maskOf (b : Build) (snap : Memory) (i j : Nat) :
    DirtyMask.get (maskOf b snap) i j = true ↔ i < b.R ∧ j < b.R ∧ nearLive b snap i j := by
  unfold maskOf nearLive
  rw [get_flagFold]
  constructor
  · rintro (h | ⟨⟨a, c⟩, hmem, hlive, hi, hj, h1, h2, h3, h4⟩)
    · simp at h
    · obtain ⟨ha, hc⟩ := (mem_regionCells b a c).1 hmem
      exact ⟨hi, hj, a, c, ha, hc, h2, h1, h4, h3, hlive⟩
  · rintro ⟨hi, hj, a, c, ha, hc, h2, h1, h4, h3, hlive⟩
    exact .inr ⟨(a, c), (mem_regionCells b a c).2 ⟨ha, hc⟩, hlive, hi, hj, h1, h2, h3, h4⟩

end Sys2Proof.Machine
end

