-- ==== Sys2Proof/Laws/Stepper.lean ====
section
/-! SUPPORT. The laws of the stepper: the counter counts, the rule is the table, STEP never leaves
the arrays, and what it leaves in every cell. -/

namespace Sys2Proof.Machine

theorem liveNeighbours_le (m : Memory) (x y : Coord) : liveNeighbours m x y ≤ 8 :=
  (List.countP_le_length ..).trans (by decide)

/-- The neighbour counter counts the live neighbours (42_stepper.md R120). -/
@[simp] theorem neighbourCount_eq (m : Memory) (x y : Coord) :
    neighbourCount m x y = .ok (BitVec.ofNat 4 (liveNeighbours m x y)) := by
  have h : ∀ l : List (Coord × Coord), l.mapM (fun d => bitGet m (x + d.1) (y + d.2)) =
      (.ok (l.map fun d => cellAt m (x + d.1) (y + d.2)) : Except Fault (List Bool)) := by
    intro l
    induction l with
    | nil => rfl
    | cons d l ih =>
      rw [List.mapM_cons, bitGet_eq, ih]
      rfl
  unfold neighbourCount
  rw [h]
  show Except.ok _ = Except.ok _
  rw [List.countP_map]
  rfl

theorem count_toNat (m : Memory) (x y : Coord) :
    (BitVec.ofNat 4 (liveNeighbours m x y)).toNat = liveNeighbours m x y := by
  have := liveNeighbours_le m x y
  rw [BitVec.toNat_ofNat]
  omega

/-- The rule's closed form over the counter is the next value of the cell (42_stepper.md R121). -/
@[simp] theorem lifeRule_count (m : Memory) (x y : Coord) :
    lifeRule (cellAt m x y) (BitVec.ofNat 4 (liveNeighbours m x y)) = nextValue m x y := by
  have h := liveNeighbours_le m x y
  unfold lifeRule nextValue
  generalize liveNeighbours m x y = n at h ⊢
  interval_cases n <;> cases cellAt m x y <;> rfl

/-- STEP at one cell, without the ports (42_stepper.md R122). -/
@[simp] theorem stepCell_eq (snap fb : Memory) (x y : Coord) :
    stepCell snap fb x y = .ok (Memory.setCell fb x y (nextValue snap x y)) := by
  unfold stepCell
  rw [bitGet_eq, neighbourCount_eq]
  show fbSetBit _ _ _ _ = _
  rw [fbSetBit_eq, lifeRule_count]

/-- One visit of STEP, without the ports. -/
def stepOne (b : Build) (mask : DirtyMask) (snap fb : Memory) (c : Nat × Nat) : Memory :=
  if DirtyMask.get mask c.1 c.2
  then Memory.setCell fb (cellX b c.1) (cellY b c.2) (nextValue snap (cellX b c.1) (cellY b c.2))
  else fb

theorem stepVisit_eq (b : Build) (mask : DirtyMask) (snap fb : Memory) (c : Nat × Nat) :
    stepVisit b mask snap fb c.1 c.2 = .ok (stepOne b mask snap fb c) := by
  unfold stepVisit stepOne
  rw [stepCell_eq]
  split <;> rfl

@[simp] theorem stepCells_eq (b : Build) (mask : DirtyMask) (snap fb : Memory)
    (l : List (Nat × Nat)) :
    stepCells b mask snap fb l = .ok (l.foldl (stepOne b mask snap) fb) :=
  foldlM_ok _ _ (fun fb c => stepVisit_eq b mask snap fb c) _ _

theorem stepOne_wf (b : Build) (mask : DirtyMask) (snap : Memory) {fb : Memory} (c : Nat × Nat)
    (h : Memory.wf fb) : Memory.wf (stepOne b mask snap fb c) := by
  unfold stepOne
  split
  · exact setCell_wf _ _ _ h
  · exact h

theorem stepFold_wf (b : Build) (mask : DirtyMask) (snap : Memory) {fb : Memory}
    (l : List (Nat × Nat)) (h : Memory.wf fb) : Memory.wf (l.foldl (stepOne b mask snap) fb) := by
  induction l generalizing fb with
  | nil => exact h
  | cons c l ih => exact ih (stepOne_wf b mask snap c h)

/-- Every cell after a list of visits: the visited flagged ones hold their next value on SNAP, the
others what they held (42_stepper.md R124, R128). -/
theorem cellAt_stepFold (b : Build) (mask : DirtyMask) (snap : Memory) {fb : Memory}
    (l : List (Nat × Nat)) (h : Memory.wf fb) (x y : Coord) (hr : inRange x y = true) :
    cellAt (l.foldl (stepOne b mask snap) fb) x y =
      if ∃ c ∈ l, DirtyMask.get mask c.1 c.2 = true ∧ x = cellX b c.1 ∧ y = cellY b c.2
      then nextValue snap x y else cellAt fb x y := by
  classical
  induction l generalizing fb with
  | nil => simp
  | cons c l ih =>
    rw [List.foldl_cons, ih (stepOne_wf b mask snap c h)]
    by_cases htail : ∃ c ∈ l, DirtyMask.get mask c.1 c.2 = true ∧ x = cellX b c.1 ∧ y = cellY b c.2
    · rw [if_pos htail, if_pos]
      obtain ⟨d, hd, hrest⟩ := htail
      exact ⟨d, List.mem_cons_of_mem _ hd, hrest⟩
    · rw [if_neg htail]
      unfold stepOne
      by_cases hc : DirtyMask.get mask c.1 c.2 = true ∧ x = cellX b c.1 ∧ y = cellY b c.2
      · obtain ⟨hf, rfl, rfl⟩ := hc
        rw [if_pos hf, cellAt_setCell h.1, if_pos ⟨hr, rfl, rfl⟩,
          if_pos ⟨c, List.mem_cons_self .., hf, rfl, rfl⟩]
      · rw [if_neg (c := ∃ d ∈ c :: l, _)]
        · split
          · next hf => rw [cellAt_setCell h.1, if_neg fun e => hc ⟨hf, e.2.1, e.2.2⟩]
          · rfl
        · rintro ⟨d, hd, hrest⟩
          rcases List.mem_cons.1 hd with rfl | hd
          · exact hc hrest
          · exact htail ⟨d, hd, hrest⟩

/-- FB after STEP, without the ports. -/
@[irreducible] def stepFb (b : Build) (mask : DirtyMask) (snap fb : Memory) : Memory :=
  (regionCells b).foldl (stepOne b mask snap) fb

theorem stepFb_wf (b : Build) (mask : DirtyMask) (snap : Memory) {fb : Memory} (h : Memory.wf fb) :
    Memory.wf (stepFb b mask snap fb) := by
  unfold stepFb
  exact stepFold_wf b mask snap _ h

/-- STEP at a region cell (42_stepper.md R123, R128). -/
theorem cellAt_stepFb_cell (b : Build) (mask : DirtyMask) (snap : Memory) {fb : Memory}
    (h : Memory.wf fb) {i j : Nat} (hi : i < b.R) (hj : j < b.R) :
    cellAt (stepFb b mask snap fb) (cellX b i) (cellY b j) =
      if DirtyMask.get mask i j then nextValue snap (cellX b i) (cellY b j)
      else cellAt fb (cellX b i) (cellY b j) := by
  classical
  unfold stepFb
  rw [cellAt_stepFold b mask snap _ h _ _ (cell_inRange b hi hj)]
  by_cases hf : DirtyMask.get mask i j = true
  · rw [if_pos hf, if_pos ⟨(i, j), (mem_regionCells b i j).2 ⟨hi, hj⟩, hf, rfl, rfl⟩]
  · rw [if_neg hf, if_neg]
    rintro ⟨⟨i', j'⟩, hmem, hf', hx, hy⟩
    obtain ⟨hi', hj'⟩ := (mem_regionCells b i' j').1 hmem
    obtain ⟨rfl, rfl⟩ := cell_inj b hi hj hi' hj' hx hy
    exact hf hf'

/-- STEP outside the region (42_stepper.md R127). -/
theorem cellAt_stepFb_outside (b : Build) (mask : DirtyMask) (snap : Memory) {fb : Memory}
    (h : Memory.wf fb) {x y : Coord} (hr : inRegion b x y = false) :
    cellAt (stepFb b mask snap fb) x y = cellAt fb x y := by
  classical
  cases hin : inRange x y
  · simp [cellAt, hin]
  · unfold stepFb
    rw [cellAt_stepFold b mask snap _ h _ _ hin, if_neg]
    rintro ⟨⟨i, j⟩, hmem, -, rfl, rfl⟩
    obtain ⟨hi, hj⟩ := (mem_regionCells b i j).1 hmem
    rw [cell_inRegion b hi hj] at hr
    exact Bool.noConfusion hr

/-- FullStep is STEP with every cell flagged (42_stepper.md R125). -/
theorem fullStep_eq (b : Build) (snap fb : Memory) : fullStep b snap fb =
    .ok ((regionCells b).foldl (fun fb c => Memory.setCell fb (cellX b c.1) (cellY b c.2)
      (nextValue snap (cellX b c.1) (cellY b c.2))) fb) :=
  foldlM_ok _ _ (fun fb (c : Nat × Nat) => stepCell_eq snap fb (cellX b c.1) (cellY b c.2)) _ _

end Sys2Proof.Machine
end

