-- ==== Sys2Proof/Laws/Exec.lean ====
section
/-! SUPPORT. Each command as one equation, without the ports; what a step can do, once. -/

namespace Sys2Proof.Machine

@[simp] theorem outcomeOf_ok (t : State) : outcomeOf (.ok t) = .next t := rfl

section exec
variable (s : State)

theorem exec_nop : exec .nop s = .next s := rfl

theorem exec_clrstat : exec .clrstat s = .next ((s.lower .ill).lower .seqErr) := rfl

theorem exec_xlate (x y : Coord) : exec (.xlate x y) s = .next
    { s with
      result := if inRange x y then resultOfAddress (bitMask x) (offset x y) else 0 } := rfl

theorem exec_get (x y : Coord) :
    exec (.get x y) s = .next { s with result := resultOfBit (cellAt s.fb x y) } := by
  show execGet x y s = _
  unfold execGet
  rw [bitGet_eq]
  rfl

theorem exec_set (x y : Coord) (v : Bool) :
    exec (.set x y v) s = .next { s with fb := Memory.setCell s.fb x y v } := by
  show execSet x y v s = _
  unfold execSet
  rw [fbSetBit_eq]
  rfl

theorem exec_sget (x y : Coord) : exec (.sget x y) s = .next (if s.snapValid
    then { s with result := resultOfBit (cellAt s.snap x y) } else s.raise .seqErr) := by
  show execSget x y s = _
  unfold execSget
  rw [bitGet_eq]
  split <;> rfl

theorem exec_mget (i j : Coord) : exec (.mget i j) s = .next (if s.maskValid
    then
      { s with
        result := if i.toNat < s.build.R ∧ j.toNat < s.build.R
          then resultOfBit (DirtyMask.get s.mask i.toNat j.toNat) else 0 }
    else s.raise .seqErr) := by
  show execMget i j s = _
  unfold execMget
  split <;> rfl

theorem exec_snapshot : exec .snapshot s = .next (snapshotBody s) := rfl

theorem buildMaskBody_eq :
    buildMaskBody s = .ok ({ s with mask := maskOf s.build s.snap }.setMaskValid true) := by
  unfold buildMaskBody
  rw [buildMask_eq]
  rfl

theorem exec_buildMask : exec .buildMask s = .next (if s.snapValid
    then { s with mask := maskOf s.build s.snap }.setMaskValid true else s.raise .seqErr) := by
  show execBuildMask s = _
  unfold execBuildMask
  rw [buildMaskBody_eq]
  split <;> rfl

theorem stepBody_eq :
    stepBody s = .ok { s with fb := stepFb s.build s.mask s.snap s.fb } := by
  unfold stepBody stepFb
  rw [stepCells_eq]
  rfl

theorem exec_step : exec .step s = .next (if s.maskValid
    then { s with fb := stepFb s.build s.mask s.snap s.fb } else s.raise .seqErr) := by
  show execStep s = _
  unfold execStep
  rw [stepBody_eq]
  split <;> rfl

/-- TICK: SNAP is FB, MASK is rebuilt from it, FB is stepped (42_stepper.md R133). -/
theorem exec_tick : exec .tick s = .next
    { s with
      fb := stepFb s.build (maskOf s.build (Memory.copyBytes s.fb)) (Memory.copyBytes s.fb) s.fb
      snap := Memory.copyBytes s.fb
      mask := maskOf s.build (Memory.copyBytes s.fb)
      status := putBit (putBit (putBit s.status snapValidBit true) maskValidBit false)
        maskValidBit true } := by
  show execTick s = _
  unfold execTick
  rw [buildMaskBody_eq]
  show outcomeOf (stepBody _) = _
  rw [stepBody_eq]
  rfl

end exec

/-! ### What a step can do -/

/-- The cases of a step, by the host's next act (Machine/HostPort.lean, `takeInput`). -/
theorem step_cases (s : State) :
    (s.inputs = [] ∧ step s = advance s) ∨
    (∃ rest, s.inputs = .quiet :: rest ∧ step s = advance { s with inputs := rest }) ∨
    (∃ rest, s.inputs = .reset :: rest ∧ step s = .next (resetBlock { s with inputs := rest })) ∨
    (∃ rest, s.inputs = .powerCycle :: rest ∧
      step s = .next (powerCycle { s with inputs := rest })) ∨
    (∃ w rest, s.inputs = .command w :: rest ∧ s.flight = none ∧
      step s = runWord w { s with inputs := rest }) ∨
    (∃ w rest, s.inputs = .issue w :: rest ∧ s.flight = none ∧
      step s = .next (accept w { s with inputs := rest })) ∨
    (∃ w rest, (s.inputs = .command w :: rest ∨ s.inputs = .issue w :: rest) ∧
      s.flight ≠ none ∧ step s = advance s) := by
  unfold step takeInput cmdReady
  rcases h : s.inputs with _ | ⟨a, rest⟩
  · exact .inl ⟨rfl, rfl⟩
  · cases a with
    | quiet => exact .inr (.inl ⟨rest, rfl, rfl⟩)
    | reset => exact .inr (.inr (.inl ⟨rest, rfl, rfl⟩))
    | powerCycle => exact .inr (.inr (.inr (.inl ⟨rest, rfl, rfl⟩)))
    | command w =>
      cases hf : s.flight with
      | none => exact .inr (.inr (.inr (.inr (.inl ⟨w, rest, rfl, rfl, rfl⟩))))
      | some f => exact .inr (.inr (.inr (.inr (.inr (.inr ⟨w, rest, .inl rfl, by simp, rfl⟩)))))
    | issue w =>
      cases hf : s.flight with
      | none => exact .inr (.inr (.inr (.inr (.inr (.inl ⟨w, rest, rfl, rfl, rfl⟩)))))
      | some f => exact .inr (.inr (.inr (.inr (.inr (.inr ⟨w, rest, .inr rfl, by simp, rfl⟩)))))

theorem advance_idle {s : State} (h : s.flight = none) : advance s = .next s := by
  unfold advance
  rw [h]

theorem advance_busy {s : State} {f : InFlight} (h : s.flight = some f) :
    advance s = microStep f s := by
  unfold advance
  rw [h]

end Sys2Proof.Machine
end

