-- ==== Sys2Proof/Laws/Flight.lean ====
section
/-! SUPPORT. The micro-steps of an executing command, without the ports: what each phase does, once,
for a sound transient state; the visit cursor runs through `regionCells`; steps compose. -/

namespace Sys2Proof.Machine

/-! ### Each phase -/

/-- The SNAPSHOT body after its last byte. -/
def afterCopying (f : InFlight) (s : State) : State :=
  if f.isTick then startFlagging f s.snapshotTaken else complete s.snapshotTaken

/-- One byte of FB copied into SNAP (41_snapshot_mask.md R100). -/
def withSnapByte (s : State) (o : Nat) : State :=
  { s with snap := Memory.write s.snap o (Memory.read s.fb o) }

theorem copyStep_eq (f : InFlight) (s : State) (h : f.counter.toNat < Config.fbBytes) :
    copyStep f s = .ok (
      if f.counter.toNat + 1 < Config.fbBytes then
        continueWith (withSnapByte s f.counter.toNat) { f with counter := f.counter + 1 }
      else afterCopying f (withSnapByte s f.counter.toNat)) := by
  unfold copyStep afterCopying
  rw [portRead_ok _ h]
  show (portWrite _ _ _ >>= _) = _
  rw [portWrite_ok _ _ h]
  show (if _ then _ else _) = _
  split <;> rfl

theorem flagStep_eq (f : InFlight) (s : State) : flagStep f s = .ok (afterFlagging f
    { s with
      mask := if cellAt s.snap (cellX s.build f.i) (cellY s.build f.j)
        then flagAround s.build.R s.mask f.i f.j else s.mask }) := by
  unfold flagStep
  rw [flagVisit_eq]
  rfl

theorem evalStep_eq (f : InFlight) (s : State) : evalStep f s = .ok (
    if DirtyMask.get s.mask f.i f.j then
      continueWith s
        { f with
          phase := .readByte
          alive := cellAt s.snap (cellX s.build f.i) (cellY s.build f.j)
          count := BitVec.ofNat 4 (liveNeighbours s.snap (cellX s.build f.i) (cellY s.build f.j)) }
    else afterStepping f s) := by
  unfold evalStep
  rw [bitGet_eq, neighbourCount_eq]
  split <;> rfl

/-- A bit write has its cell in range (40_translate_access.md R84). -/
theorem writeTarget_inRange {f : InFlight} {s : State} (h : InFlight.Sound f s)
    (hp : f.phase = .readByte ∨ f.phase = .writeBack) :
    inRange (writeTarget f s.build).1 (writeTarget f s.build).2.1 = true := by
  have hfits := h.phase_fits
  unfold InFlight.phaseFits InFlight.runs at hfits
  have hcases : (∃ x y v, decode f.word = .ok (.set x y v) ∧ inRange x y = true) ∨
      ((decode f.word = .ok .step ∨ decode f.word = .ok .tick) ∧ s.maskValid = true) := by
    rcases hp with hp | hp <;> rw [hp] at hfits <;> exact hfits
  unfold writeTarget
  rcases hcases with ⟨x, y, v, hd, hr⟩ | ⟨hd | hd, -⟩ <;> rw [hd]
  · exact hr
  · exact cell_inRange s.build h.cursor_i h.cursor_j
  · exact cell_inRange s.build h.cursor_i h.cursor_j

theorem writeOffset_lt {f : InFlight} {s : State} (h : InFlight.Sound f s)
    (hp : f.phase = .readByte ∨ f.phase = .writeBack) :
    (writeOffset f s.build).toNat < Config.fbBytes :=
  offset_lt (writeTarget_inRange h hp)

theorem readStep_eq (f : InFlight) (s : State)
    (h : (writeOffset f s.build).toNat < Config.fbBytes) :
    readStep f s = .ok (continueWith s
      { f with phase := .writeBack, latch := Memory.read s.fb (writeOffset f s.build).toNat }) := by
  unfold readStep
  rw [portRead_ok _ h]
  rfl

/-- A bit write after its byte is written: SET is complete, STEP goes on. -/
def afterWriting (f : InFlight) (s : State) : State :=
  match decode f.word with
  | .ok (.set _ _ _) => complete s
  | _ => afterStepping f s

theorem writeStep_eq (f : InFlight) (s : State)
    (h : (writeOffset f s.build).toNat < Config.fbBytes) :
    writeStep f s = .ok (afterWriting f
      { s with
        fb := Memory.write s.fb (writeOffset f s.build).toNat (writeByte f s.build) }) := by
  unfold writeStep
  rw [portWrite_ok _ _ h]
  rfl

/-! ### The visit cursor -/

/-- The k-th region cell in row-major order (00_scope.md R14). -/
theorem regionCells_eq (b : Build) :
    regionCells b = (List.range (b.R * b.R)).map fun k => (k % b.R, k / b.R) := by
  have key : ∀ n, (List.range n).flatMap (fun j => (List.range b.R).map fun i => (i, j)) =
      (List.range (n * b.R)).map fun k => (k % b.R, k / b.R) := by
    intro n
    induction n with
    | zero => simp
    | succ n ih =>
      have hR := (build_legal b).2.1
      rw [List.range_succ, List.flatMap_append, ih, Nat.succ_mul, List.range_add, List.map_append,
        List.map_map]
      congr 1
      rw [List.flatMap_singleton]
      refine List.map_congr_left fun i hi => ?_
      have hi := List.mem_range.1 hi
      simp only [Function.comp]
      rw [Nat.mul_comm n, Nat.mul_add_mod, Nat.mod_eq_of_lt hi, Nat.mul_add_div (by omega),
        Nat.div_eq_of_lt hi, Nat.add_zero]
  exact key b.R

/-- The cursor's next position is the next cell of the list (00_scope.md R14). -/
theorem nextCell_spec (b : Build) {pre rest : List (Nat × Nat)} {i j : Nat}
    (h : regionCells b = pre ++ (i, j) :: rest) :
    (nextCell b i j = none ∧ rest = []) ∨
      ∃ i' j' rest', nextCell b i j = some (i', j') ∧ rest = (i', j') :: rest' := by
  have hR := (build_legal b).2.1
  have hlen : (regionCells b).length = b.R * b.R := by rw [regionCells_eq]; simp
  have hget : ∀ k (hk : k < (regionCells b).length), (regionCells b)[k] = (k % b.R, k / b.R) := by
    intro k hk
    simp [regionCells_eq]
  have hk : pre.length < (regionCells b).length := by rw [h]; simp
  have hij : (i, j) = (pre.length % b.R, pre.length / b.R) := by
    rw [← hget _ hk]
    simp [h]
  obtain ⟨hi, hj⟩ := Prod.ext_iff.1 hij
  simp only at hi hj
  have hsum : pre.length = b.R * j + i := by
    rw [hi, hj, Nat.div_add_mod]
  have hilt : i < b.R := hi ▸ Nat.mod_lt _ (by omega)
  have hjlt : j < b.R := by
    have := (mem_regionCells b i j).1 (by rw [h]; simp)
    exact this.2
  have hrest : ∀ i' j', (i', j') = ((pre.length + 1) % b.R, (pre.length + 1) / b.R) →
      pre.length + 1 < b.R * b.R → ∃ rest', rest = (i', j') :: rest' := by
    intro i' j' he hlt
    cases rest with
    | nil =>
      rw [h] at hlen
      simp only [List.length_append, List.length_cons, List.length_nil] at hlen
      omega
    | cons c rest' =>
      refine ⟨rest', ?_⟩
      have := hget (pre.length + 1) (by rw [hlen]; exact hlt)
      rw [he, ← this]
      simp [h]
  unfold nextCell
  by_cases h1 : i + 1 < b.R
  · rw [if_pos h1]
    have hlt : pre.length + 1 < b.R * b.R := by
      have := Nat.mul_le_mul_left b.R (show j + 1 ≤ b.R by omega)
      rw [Nat.mul_add] at this
      omega
    have hmod : (pre.length + 1) % b.R = i + 1 := by
      rw [hsum, Nat.add_assoc, Nat.mul_add_mod, Nat.mod_eq_of_lt h1]
    have hdiv : (pre.length + 1) / b.R = j := by
      rw [hsum, Nat.add_assoc, Nat.mul_add_div (by omega), Nat.div_eq_of_lt h1, Nat.add_zero]
    obtain ⟨rest', hr⟩ := hrest (i + 1) j (by rw [hmod, hdiv]) hlt
    exact .inr ⟨_, _, rest', rfl, hr⟩
  · rw [if_neg h1]
    have hi1 : i + 1 = b.R := by omega
    have hnext : pre.length + 1 = b.R * (j + 1) := by rw [Nat.mul_add]; omega
    by_cases h2 : j + 1 < b.R
    · rw [if_pos h2]
      have hlt : pre.length + 1 < b.R * b.R := by
        rw [hnext]
        exact Nat.mul_lt_mul_of_pos_left h2 (by omega)
      obtain ⟨rest', hr⟩ := hrest 0 (j + 1)
        (by rw [hnext, Nat.mul_mod_right, Nat.mul_div_cancel_left _ (by omega)]) hlt
      exact .inr ⟨_, _, rest', rfl, hr⟩
    · rw [if_neg h2]
      refine .inl ⟨rfl, ?_⟩
      have hj1 : j + 1 = b.R := by omega
      rw [hj1] at hnext
      rw [h] at hlen
      simp only [List.length_append, List.length_cons] at hlen
      exact List.eq_nil_of_length_eq_zero (by omega)

theorem nextCell_lt {b : Build} {i j i' j' : Nat} (hi : i < b.R) (hj : j < b.R)
    (h : nextCell b i j = some (i', j')) : i' < b.R ∧ j' < b.R := by
  unfold nextCell at h
  split at h
  · next h1 =>
    cases h
    exact ⟨h1, hj⟩
  · split at h
    · next h2 =>
      cases h
      exact ⟨by omega, h2⟩
    · cases h

/-! ### What a micro-step keeps -/

/-- `t` is out of the command, or still executes the word of `f` with the FB recorded at its acceptance. -/
def Continues (f : InFlight) (t : State) : Prop :=
  ∀ g, t.flight = some g → g.word = f.word ∧ g.fbBefore = f.fbBefore

theorem Continues.complete (f : InFlight) (s : State) : Continues f (complete s) :=
  fun _ h => by cases h

theorem Continues.continueWith {f g : InFlight} (s : State) (hw : g.word = f.word)
    (hb : g.fbBefore = f.fbBefore) : Continues f (continueWith s g) :=
  fun _ h => by cases h; exact ⟨hw, hb⟩

theorem continues_afterStepping (f : InFlight) (s : State) : Continues f (afterStepping f s) := by
  unfold afterStepping
  split
  · exact .continueWith _ rfl rfl
  · exact Continues.complete _ _

theorem continues_afterFlagging (f : InFlight) (s : State) : Continues f (afterFlagging f s) := by
  unfold afterFlagging
  split
  · exact .continueWith _ rfl rfl
  · simp only
    split
    · exact .continueWith _ rfl rfl
    · exact Continues.complete _ _

/-- A micro-step keeps the accepted word and the FB recorded with it (70_reset_and_hazards.md R182). -/
theorem microStep_continues {f : InFlight} {s t : State} (hs : InFlight.Sound f s)
    (h : microStep f s = .next t) : Continues f t := by
  unfold microStep at h
  split at h
  · unfold startCommand at h
    cases hd : decode f.word with
    | error e =>
      rw [hd] at h
      cases h
      exact Continues.complete _ _
    | ok i =>
      rw [hd] at h
      cases i <;> simp only at h
      case set | buildMask | step =>
        split at h <;> cases h
        · exact .continueWith _ rfl rfl
        · exact Continues.complete _ _
      case snapshot | tick =>
        cases h
        exact .continueWith _ rfl rfl
      all_goals
        split at h <;> cases h
        exact Continues.complete _ _
  · rw [copyStep_eq _ _ hs.counter_lt] at h
    cases h
    split
    · exact .continueWith _ rfl rfl
    · unfold afterCopying
      split
      · exact .continueWith _ rfl rfl
      · exact Continues.complete _ _
  · rw [flagStep_eq] at h
    cases h
    exact continues_afterFlagging _ _
  · rw [evalStep_eq] at h
    cases h
    split
    · exact .continueWith _ rfl rfl
    · exact continues_afterStepping _ _
  · next hp =>
    rw [readStep_eq _ _ (writeOffset_lt hs (.inl hp))] at h
    cases h
    exact .continueWith _ rfl rfl
  · next hp =>
    rw [writeStep_eq _ _ (writeOffset_lt hs (.inr hp))] at h
    cases h
    unfold afterWriting
    split
    · exact Continues.complete _ _
    · exact continues_afterStepping _ _

/-! ### Steps compose -/

/-- `n + m` steps are `n` steps and then `m`. -/
theorem run_add {s t : State} {n : Nat} (m : Nat) (h : Sys2Proof.core.run n s = .next t) :
    Sys2Proof.core.run (n + m) s = Sys2Proof.core.run m t := by
  induction n generalizing s with
  | zero =>
    cases h
    rw [Nat.zero_add]
  | succ n ih =>
    rw [show n + 1 + m = (n + m) + 1 by omega]
    simp only [Host.Core.run] at h ⊢
    cases hs : Sys2Proof.core.step s with
    | next u =>
      rw [hs] at h
      exact ih h
    | fault r =>
      rw [hs] at h
      cases h
    | refused r =>
      rw [hs] at h
      cases h

/-- With nothing offered, a step of a busy block is a micro-step. -/
theorem step_busy {s : State} {f : InFlight} (hi : s.inputs = []) (hf : s.flight = some f) :
    step s = microStep f s := by
  unfold step takeInput
  rw [hi]
  exact advance_busy hf

end Sys2Proof.Machine
end

