-- ==== Sys2Proof/Laws/PerInstr.lean ====
section
/-! SUPPORT. One lemma per command: its word matches its row of the opcode map (30_encoding.md R64).
The encoder is written from the fields of R61, the rows are transcribed from R64. -/

namespace Sys2Proof.Laws.EncodeHitsRow

/-- The word of a command matches the command's row. -/
def Statement (i : Instr) : Prop := i.row.hits (encode i) = true

/-- A packed word under a mask that keeps OP, RSV and the fields from bit `lo` on, all but OP 0. -/
theorem hits_of_bits (r : OpcodeRow) (op : BitVec 4) (x y : Coord) (v : Bool)
    (h : ∀ k < 64, ((packWord op x y v).getLsbD k && r.mask.getLsbD k) = r.value.getLsbD k) :
    r.hits (packWord op x y v) = true := by
  unfold OpcodeRow.hits
  rw [beq_iff_eq]
  refine BitVec.eq_of_getLsbD_eq fun k hk => ?_
  rw [BitVec.getLsbD_and]
  exact h k hk

theorem hits_xy (op : BitVec 4) (x y : Coord) (value : CmdWord)
    (h : packWord op 0 0 false = value) :
    (OpcodeRow.mk value 0xFFFFFFFF00000000).hits (packWord op x y false) = true := by
  subst h
  refine hits_of_bits _ _ _ _ _ fun k hk => ?_
  rw [packWord_getLsbD, packWord_getLsbD]
  by_cases h32 : k < 32
  · have hm : (0xFFFFFFFF00000000 : BitVec 64).getLsbD k = false := by
      interval_cases k <;> rfl
    rw [hm, Bool.and_false]
    split <;> simp
  · have hm : (0xFFFFFFFF00000000 : BitVec 64).getLsbD k = true := by
      interval_cases k <;> rfl
    rw [hm, Bool.and_true]
    simp [h32, show ¬ k < 16 by omega]

theorem hits_xyv (op : BitVec 4) (x y : Coord) (v : Bool) (value : CmdWord)
    (h : packWord op 0 0 false = value) :
    (OpcodeRow.mk value 0xFFFFFFFE00000000).hits (packWord op x y v) = true := by
  subst h
  refine hits_of_bits _ _ _ _ _ fun k hk => ?_
  rw [packWord_getLsbD, packWord_getLsbD]
  by_cases h33 : k < 33
  · have hm : (0xFFFFFFFE00000000 : BitVec 64).getLsbD k = false := by
      interval_cases k <;> rfl
    rw [hm, Bool.and_false]
    split
    · simp
    · split <;> simp
  · have hm : (0xFFFFFFFE00000000 : BitVec 64).getLsbD k = true := by
      interval_cases k <;> rfl
    rw [hm, Bool.and_true]
    simp [h33, show ¬ k < 16 by omega, show ¬ k < 32 by omega]

theorem nop : Statement .nop := rfl
theorem xlate (x y : Coord) : Statement (.xlate x y) := hits_xy 1 x y _ (by decide)
theorem get (x y : Coord) : Statement (.get x y) := hits_xy 2 x y _ (by decide)
theorem set (x y : Coord) (v : Bool) : Statement (.set x y v) := hits_xyv 3 x y v _ (by decide)
theorem snapshot : Statement .snapshot := rfl
theorem buildMask : Statement .buildMask := rfl
theorem step : Statement .step := rfl
theorem tick : Statement .tick := rfl
theorem sget (x y : Coord) : Statement (.sget x y) := hits_xy 8 x y _ (by decide)
theorem mget (i j : Coord) : Statement (.mget i j) := hits_xy 9 i j _ (by decide)
theorem clrstat : Statement .clrstat := rfl

end Sys2Proof.Laws.EncodeHitsRow
end

