-- ==== Sys2Proof/Laws/Run.lean ====
section
/-! SUPPORT. A command's loops as runs: each of the three loops, micro-step by micro-step, ends in what
its fold gives, and every FB on the way meets a property that the fold's prefixes meet. -/

namespace Sys2Proof.Machine

/-- `s` runs to `t` in finitely many steps, and FB meets `P` in every state on the way. -/
def Passes (P : Memory → Prop) (s t : State) : Prop :=
  ∃ n, Sys2Proof.core.run n s = .next t ∧
    ∀ m u, m ≤ n → Sys2Proof.core.run m s = .next u → P u.fb

/-- The state `s` while `f` executes: BUSY = 1, the transient state in place (10_state.md R29). -/
def executing (f : InFlight) (s : State) : State := { s.setBusy true with flight := some f }

variable {P : Memory → Prop}

theorem run_succ {s u : State} (h : step s = .next u) (n : Nat) :
    Sys2Proof.core.run (n + 1) s = Sys2Proof.core.run n u := by
  simp only [Host.Core.run]
  rw [show Sys2Proof.core.step s = .next u from h]

theorem Passes.refl {s : State} (h : P s.fb) : Passes P s s := by
  refine ⟨0, rfl, fun m u hm hu => ?_⟩
  obtain rfl : m = 0 := by omega
  cases hu
  exact h

theorem Passes.cons {s u t : State} (hs : step s = .next u) (hp : P s.fb) (h : Passes P u t) :
    Passes P s t := by
  obtain ⟨n, h1, h2⟩ := h
  refine ⟨n + 1, by rw [run_succ hs]; exact h1, fun m v hm hv => ?_⟩
  cases m with
  | zero =>
    cases hv
    exact hp
  | succ m =>
    rw [run_succ hs] at hv
    exact h2 m v (by omega) hv

/-! ### Operations while a command executes -/

section executing
variable (f g : InFlight) (s : State)

theorem step_executing (h : s.inputs = []) : step (executing f s) = microStep f (executing f s) :=
  step_busy h rfl

theorem complete_executing (hb : s.busy = false) (hf : s.flight = none) :
    complete (executing f s) = s := by
  obtain ⟨build, fb, snap, mask, status, result, flight, inputs, draws⟩ := s
  simp only [executing, complete, State.setBusy, putBit_putBit] at *
  rw [putBit_eq_self hb, hf]

theorem raise_executing (c : Cause) : (executing f s).raise c = executing f (s.raise c) := by
  unfold executing State.raise State.setBusy
  simp only [State.mk.injEq, true_and, and_true]
  exact putBit_comm _ _ _ (by cases c <;> decide)

theorem lower_executing (c : Cause) : (executing f s).lower c = executing f (s.lower c) := by
  unfold executing State.lower State.setBusy
  simp only [State.mk.injEq, true_and, and_true]
  exact putBit_comm _ _ _ (by cases c <;> decide)

theorem setMaskValid_executing (v : Bool) :
    (executing f s).setMaskValid v = executing f (s.setMaskValid v) := by
  unfold executing State.setMaskValid State.setBusy
  simp only [State.mk.injEq, true_and, and_true]
  exact putBit_comm _ _ _ (by decide)

theorem setSnapValid_executing (v : Bool) :
    (executing f s).setSnapValid v = executing f (s.setSnapValid v) := by
  unfold executing State.setSnapValid State.setBusy
  simp only [State.mk.injEq, true_and, and_true]
  exact putBit_comm _ _ _ (by decide)

theorem snapshotTaken_executing :
    (executing f s).snapshotTaken = executing f s.snapshotTaken := by
  unfold State.snapshotTaken
  rw [setSnapValid_executing, setMaskValid_executing]

@[simp] theorem snapValid_executing : (executing f s).snapValid = s.snapValid :=
  snapValid_setBusy s true
@[simp] theorem maskValid_executing : (executing f s).maskValid = s.maskValid :=
  maskValid_setBusy s true

theorem startFlagging_executing : startFlagging f (executing g s) =
    executing { f with phase := .flag, i := 0, j := 0 } { s with mask := DirtyMask.clear } := rfl

theorem startStepping_executing : startStepping f (executing g s) =
    executing { f with phase := .eval, i := 0, j := 0 } s := rfl

end executing

/-! ### The copy loop (41_snapshot_mask.md R100) -/

/-- From byte `k`, the bytes below it copied, the loop goes on to a SNAP equal to FB. -/
theorem copy_passes {s t : State} (hw : Memory.wf s.fb) (hi : s.inputs = []) (hp : P s.fb)
    (word : CmdWord)
    (fin : ∀ f : InFlight, f.word = word →
      Passes P (afterCopying f (executing f { s with snap := s.fb })) t) :
    ∀ d k, k + d = 6143 → ∀ (f : InFlight) (m : Memory), f.word = word → f.phase = .copy →
      f.counter.toNat = k → Memory.wf m →
      (∀ o, o < k → Memory.read m o = Memory.read s.fb o) →
      Passes P (executing f { s with snap := m }) t := by
  intro d
  induction d with
  | zero =>
    intro k hk f m hfw hph hc hm hr
    have hlt : f.counter.toNat < Config.fbBytes := by show _ < 6144; omega
    have hcopied : Memory.write m f.counter.toNat (Memory.read s.fb f.counter.toNat) = s.fb := by
      refine Memory.ext (Memory.write_wf _ hm hlt) hw fun o ho => ?_
      have ho : o < 6144 := ho
      rw [Memory.read_write _ _ _ _ hm.1]
      split
      · next h => rw [h]
      · next h => exact hr o (by omega)
    refine Passes.cons ?_ hp (fin f hfw)
    rw [step_executing _ _ (by exact hi)]
    unfold microStep
    rw [hph]
    simp only
    rw [copyStep_eq _ _ hlt, if_neg (by show ¬ _ < 6144; omega)]
    show Host.Outcome.next (afterCopying f (executing f
      { s with snap := Memory.write m f.counter.toNat (Memory.read s.fb f.counter.toNat) })) = _
    rw [hcopied]
  | succ d ih =>
    intro k hk f m hfw hph hc hm hr
    have hlt : f.counter.toNat < Config.fbBytes := by show _ < 6144; omega
    refine Passes.cons (u := executing { f with counter := f.counter + 1 }
      { s with snap := Memory.write m f.counter.toNat (Memory.read s.fb f.counter.toNat) }) ?_ hp ?_
    · rw [step_executing _ _ (by exact hi)]
      unfold microStep
      rw [hph]
      simp only
      rw [copyStep_eq _ _ hlt, if_pos (by show _ < 6144; omega), ← hph]
      rfl
    · refine ih (k + 1) (by omega) _ _ hfw hph ?_ (Memory.write_wf _ hm hlt) fun o ho => ?_
      · show (f.counter + 1).toNat = _
        rw [BitVec.toNat_add]
        simp
        omega
      · rw [Memory.read_write _ _ _ _ hm.1]
        split
        · next h => rw [h]
        · next h => exact hr o (by omega)

/-! ### The flagging loop (41_snapshot_mask.md R103) -/

/-- One visit of BUILD_MASK, without the ports. -/
abbrev flagOne (b : Build) (snap : Memory) (m : DirtyMask) (c : Nat × Nat) : DirtyMask :=
  if cellAt snap (cellX b c.1) (cellY b c.2) then flagAround b.R m c.1 c.2 else m

/-- The BUILD_MASK body after its last visit. -/
def afterMasking (f : InFlight) (s : State) : State :=
  if f.isTick then startStepping f (s.setMaskValid true) else complete (s.setMaskValid true)

/-- From the cell (i, j), the loop visits the rest of the region. -/
theorem flag_passes {s t : State} (hi : s.inputs = []) (hp : P s.fb) (word : CmdWord) :
    ∀ rest pre i j, regionCells s.build = pre ++ (i, j) :: rest →
      ∀ (f : InFlight) (m : DirtyMask), f.word = word → f.phase = .flag → f.i = i → f.j = j →
      (∀ g : InFlight, g.word = word → Passes P (afterMasking g (executing g
        { s with mask := ((i, j) :: rest).foldl (flagOne s.build s.snap) m })) t) →
      Passes P (executing f { s with mask := m }) t := by
  intro rest
  induction rest with
  | nil =>
    intro pre i j hreg f m hfw hph hfi hfj fin
    refine Passes.cons ?_ hp (fin f hfw)
    rw [step_executing _ _ (by exact hi)]
    unfold microStep
    rw [hph]
    simp only
    rw [flagStep_eq]
    show Host.Outcome.next _ = _
    congr 1
    unfold afterFlagging
    rcases nextCell_spec _ hreg with ⟨h, -⟩ | ⟨_, _, _, _, h⟩
    · rw [hfi, hfj]
      show (match nextCell s.build i j with | some (i, j) => _ | none => _) = _
      rw [h]
      rfl
    · cases h
  | cons c rest ih =>
    intro pre i j hreg f m hfw hph hfi hfj fin
    rcases nextCell_spec _ hreg with ⟨-, h⟩ | ⟨i', j', rest', hn, h⟩
    · cases h
    cases h
    refine Passes.cons (u := executing { f with i := i', j := j' }
      { s with mask := flagOne s.build s.snap m (i, j) }) ?_ hp ?_
    · rw [step_executing _ _ (by exact hi)]
      unfold microStep
      rw [hph]
      simp only
      rw [flagStep_eq]
      show Host.Outcome.next _ = _
      congr 1
      unfold afterFlagging
      rw [hfi, hfj]
      show (match nextCell s.build i j with | some (i, j) => _ | none => _) = _
      rw [hn, ← hph]
      rfl
    · exact ih (pre ++ [(i, j)]) i' j' (by rw [hreg]; simp) _ _ hfw hph rfl rfl fin

/-! ### The stepping loop (42_stepper.md R123) -/

/-- One visit: an unflagged cell takes one micro-step, a flagged one three (evaluate, read, write). -/
theorem visit_passes {s t : State} (hi : s.inputs = []) {word : CmdWord}
    (hw : decode word = .ok .step ∨ decode word = .ok .tick) (f : InFlight) (fb : Memory)
    (hiR : f.i < s.build.R) (hjR : f.j < s.build.R) (hfw : f.word = word) (hph : f.phase = .eval)
    (hp : P fb)
    (fin : ∀ g : InFlight, g.word = word → g.i = f.i → g.j = f.j →
      Passes P (afterStepping g (executing g
        { s with fb := stepOne s.build s.mask s.snap fb (f.i, f.j) })) t) :
    Passes P (executing f { s with fb := fb }) t := by
  by_cases hm : DirtyMask.get s.mask f.i f.j = true
  · generalize hx : cellX s.build f.i = x at *
    generalize hy : cellY s.build f.j = y at *
    have hr : inRange x y = true := by rw [← hx, ← hy]; exact cell_inRange _ hiR hjR
    have hlt : (offset x y).toNat < Config.fbBytes := offset_lt hr
    let f1 : InFlight :=
      { f with
        phase := .readByte
        alive := cellAt s.snap x y
        count := BitVec.ofNat 4 (liveNeighbours s.snap x y) }
    let f2 : InFlight := { f1 with phase := .writeBack, latch := Memory.read fb (offset x y).toNat }
    have htarget : ∀ g : InFlight, g.word = word → g.i = f.i → g.j = f.j →
        g.alive = f1.alive → g.count = f1.count →
        writeTarget g s.build = (x, y, nextValue s.snap x y) := by
      intro g h1 h2 h3 h4 h5
      unfold writeTarget
      rw [h1, h2, h3, h4, h5, hx, hy]
      rcases hw with h | h <;> rw [h] <;> simp only <;> rw [lifeRule_count]
    have h1 := htarget f1 hfw rfl rfl rfl rfl
    have h2 := htarget f2 hfw rfl rfl rfl rfl
    have ho1 : writeOffset f1 s.build = offset x y := by unfold writeOffset; rw [h1]
    have ho2 : writeOffset f2 s.build = offset x y := by unfold writeOffset; rw [h2]
    have hone : stepOne s.build s.mask s.snap fb (f.i, f.j) =
        Memory.write fb (offset x y).toNat (writeByte f2 s.build) := by
      unfold stepOne writeByte
      rw [if_pos hm, h2]
      simp only
      rw [hx, hy]
      unfold Memory.setCell
      rw [if_pos hr]
    refine Passes.cons (u := executing f1 { s with fb := fb }) ?_ hp ?_
    · rw [step_executing _ _ (by exact hi)]
      unfold microStep
      rw [hph]
      simp only
      rw [evalStep_eq, if_pos (by exact hm)]
      show Host.Outcome.next (executing
        { f with
          phase := .readByte
          alive := cellAt s.snap (cellX s.build f.i) (cellY s.build f.j)
          count := BitVec.ofNat 4
            (liveNeighbours s.snap (cellX s.build f.i) (cellY s.build f.j)) }
        { s with fb := fb }) = _
      rw [hx, hy]
    refine Passes.cons (u := executing f2 { s with fb := fb }) ?_ hp ?_
    · rw [step_executing _ _ (by exact hi)]
      show outcomeOf (readStep f1 (executing f1 { s with fb := fb })) = _
      rw [readStep_eq _ _ (by show (writeOffset f1 s.build).toNat < _; rw [ho1]; exact hlt)]
      show Host.Outcome.next (executing
        { f1 with
          phase := .writeBack
          latch := Memory.read fb (writeOffset f1 s.build).toNat } { s with fb := fb }) = _
      rw [ho1]
    refine Passes.cons ?_ hp (fin f2 hfw rfl rfl)
    rw [step_executing _ _ (by exact hi)]
    show outcomeOf (writeStep f2 (executing f2 { s with fb := fb })) = _
    rw [writeStep_eq _ _ (by show (writeOffset f2 s.build).toNat < _; rw [ho2]; exact hlt)]
    show Host.Outcome.next (afterWriting f2 (executing f2
      { s with
        fb := Memory.write fb (writeOffset f2 s.build).toNat (writeByte f2 s.build) })) = _
    rw [ho2, ← hone]
    unfold afterWriting
    rw [show f2.word = word from hfw]
    rcases hw with h | h <;> rw [h]
  · refine Passes.cons ?_ hp (fin f hfw rfl rfl)
    rw [step_executing _ _ (by exact hi)]
    unfold microStep
    rw [hph]
    simp only
    rw [evalStep_eq, if_neg (by exact hm)]
    unfold stepOne
    rw [if_neg (by exact hm)]
    rfl

/-- From the cell (i, j), the loop visits the rest of the region. -/
theorem step_passes {s t : State} (hi : s.inputs = []) {word : CmdWord}
    (hw : decode word = .ok .step ∨ decode word = .ok .tick) :
    ∀ rest pre i j, regionCells s.build = pre ++ (i, j) :: rest →
      ∀ (f : InFlight) (fb : Memory), f.word = word → f.phase = .eval → f.i = i → f.j = j →
      (∀ p q, (i, j) :: rest = p ++ q → P (p.foldl (stepOne s.build s.mask s.snap) fb)) →
      (∀ g : InFlight, g.word = word → Passes P (complete (executing g
        { s with fb := ((i, j) :: rest).foldl (stepOne s.build s.mask s.snap) fb })) t) →
      Passes P (executing f { s with fb := fb }) t := by
  intro rest
  induction rest with
  | nil =>
    intro pre i j hreg f fb hfw hph hfi hfj hP fin
    subst hfi hfj
    obtain ⟨hiR, hjR⟩ := (mem_regionCells s.build f.i f.j).1 (by rw [hreg]; simp)
    refine visit_passes hi hw f fb hiR hjR hfw hph (hP [] _ rfl) fun g hg hgi hgj => ?_
    rcases nextCell_spec _ hreg with ⟨h, -⟩ | ⟨_, _, _, _, h⟩
    · have hend : afterStepping g (executing g
          { s with fb := stepOne s.build s.mask s.snap fb (f.i, f.j) }) = complete (executing g
          { s with fb := stepOne s.build s.mask s.snap fb (f.i, f.j) }) := by
        unfold afterStepping
        rw [hgi, hgj]
        show (match nextCell s.build f.i f.j with | some (i, j) => _ | none => _) = _
        rw [h]
      rw [hend]
      exact fin g hg
    · cases h
  | cons c rest ih =>
    intro pre i j hreg f fb hfw hph hfi hfj hP fin
    subst hfi hfj
    obtain ⟨hiR, hjR⟩ := (mem_regionCells s.build f.i f.j).1 (by rw [hreg]; simp)
    rcases nextCell_spec _ hreg with ⟨-, h⟩ | ⟨i', j', rest', hn, h⟩
    · cases h
    cases h
    refine visit_passes hi hw f fb hiR hjR hfw hph (hP [] _ rfl) fun g hg hgi hgj => ?_
    have hnext : afterStepping g (executing g
        { s with fb := stepOne s.build s.mask s.snap fb (f.i, f.j) }) =
        executing { g with phase := .eval, i := i', j := j' }
          { s with fb := stepOne s.build s.mask s.snap fb (f.i, f.j) } := by
      unfold afterStepping
      rw [hgi, hgj]
      show (match nextCell s.build f.i f.j with | some (i, j) => _ | none => _) = _
      rw [hn]
      rfl
    rw [hnext]
    refine ih (pre ++ [(f.i, f.j)]) i' j' (by rw [hreg]; simp) _ _ hg rfl rfl rfl
      (fun p q hpq => ?_) fin
    exact hP ((f.i, f.j) :: p) q (by rw [hpq]; rfl)

/-- The region is not empty, and the loops start at its first cell. -/
theorem regionCells_cons (b : Build) : ∃ rest, regionCells b = [] ++ (0, 0) :: rest := by
  have hR := (build_legal b).2.1
  have hpos : 0 < b.R * b.R := Nat.mul_pos (by omega) (by omega)
  obtain ⟨n, hn⟩ : ∃ n, b.R * b.R = n + 1 := ⟨b.R * b.R - 1, by omega⟩
  rw [regionCells_eq, hn, List.range_succ_eq_map]
  exact ⟨_, by simp; rfl⟩

end Sys2Proof.Machine
end

