-- ==== Sys2Proof/Laws/Safety.lean ====
section
/-! SUPPORT. The parts of the invariant that need an argument of their own: the reserved STATUS bits
under a write of a defined one, and the bits of MASK outside the region. -/

namespace Sys2Proof.Machine

/-- Writing a defined STATUS bit leaves the reserved ones 0 (10_state.md R23). -/
theorem reserved_putBit {st : Word32} {k : Nat} (v : Bool) (hk : reservedStatus.getLsbD k = false)
    (h : st &&& reservedStatus = 0) : putBit st k v &&& reservedStatus = 0 := by
  refine BitVec.eq_of_getLsbD_eq fun n hn => ?_
  have hb := congrArg (fun w : Word32 => w.getLsbD n) h
  simp only [BitVec.getLsbD_and] at hb ⊢
  rw [putBit_getLsbD _ _ _ hn]
  split
  · next e =>
    subst e
    simp [hk]
  · exact hb

theorem maskInside_clear (b : Build) : maskInside b DirtyMask.clear := by
  intro i j h
  simp at h

theorem maskInside_maskOf (b : Build) (m : Memory) : maskInside b (maskOf b m) := fun i j h =>
  ⟨((get_maskOf b m i j).1 h).1, ((get_maskOf b m i j).1 h).2.1⟩

theorem maskInside_flagAround {b : Build} {m : DirtyMask} (h : maskInside b m) (a c : Nat) :
    maskInside b (flagAround b.R m a c) := by
  intro i j hij
  rcases (get_flagAround b.legal.2.2 _ _ _ _ _).1 hij with h1 | h1
  · exact h i j h1
  · exact ⟨h1.1, h1.2.1⟩

theorem maskInside_unspecified (draw : Nat) (b : Build) :
    maskInside b (DirtyMask.unspecified draw b.R) := by
  intro i j h
  unfold DirtyMask.get DirtyMask.unspecified at h
  split at h
  · simp only [Vector.getElem_ofFn] at h
    split at h
    · next hj =>
      rw [BitVec.getLsbD_and, Bool.and_eq_true, BitVec.getLsbD_ofNat] at h
      have := h.2
      simp [Nat.testBit_two_pow_sub_one] at this
      exact ⟨this.2, hj⟩
    · simp at h
  · cases h

/-- TICK is the one command whose bodies follow each other (42_stepper.md R133). -/
theorem isTick_iff (f : InFlight) : f.isTick = true ↔ f.runs .tick := by
  unfold InFlight.isTick InFlight.runs
  rcases decode f.word with e | i
  · simp
  · cases i <;> simp

end Sys2Proof.Machine
end

