-- ==== Sys2Proof/Tests/Slice0.lean ====
section
/-! SUPPORT. The model's own tests. Expected values are those of 95_test_vectors.md (the V- and W-names)
or written out by hand from the rule named. After them, for every obligation with hypotheses, a state
and operands that meet them (`witness_…`). -/

namespace Sys2Proof.Tests

open Sys2Proof Sys2Proof.Machine

/-! ### Well-formedness: an ill-formed term for each check -/

theorem test_opOk_refuses_reserved_opcode :
    (Fields.opOk ⟨0xB, 0, false, 0, 0⟩, decode 0xB000000000000000) =
      (false, .error .reservedOpcode) := by decide

theorem test_rsvOk_refuses_bits_33_and_59 :
    (Fields.rsvOk ⟨0x0, 1, false, 0, 0⟩, decode 0x3000000200000000, decode 0x0800000000000000) =
      (false, .error .reservedBits, .error .reservedBits) := by decide

theorem test_unusedOk_refuses_operands_of_n :
    (Fields.unusedOk ⟨0x7, 0, false, 0, 1⟩, decode 0x7000000000000001, decode 0x4000000000010000,
      decode 0xA000000100000000) =
      (false, .error .unusedField, .error .unusedField, .error .unusedField) := by decide

theorem test_unusedOk_refuses_v_of_xy :
    (Fields.unusedOk ⟨0x2, 0, true, 0, 0⟩, decode 0x2000000100000000) =
      (false, .error .unusedField) := by decide

theorem test_wellFormed_refuses_each_case :
    ([⟨0xF, 0, false, 0, 0⟩, ⟨0x3, 0x4000000, true, 0, 0⟩, ⟨0x0, 0, false, 0, 1⟩,
      ⟨0x9, 0, true, 0, 0⟩].map Fields.wellFormed) = [false, false, false, false] := by decide

theorem test_asmCoordOk_bounds :
    [asmCoordOk (-2), asmCoordOk (-1), asmCoordOk 0xFFFF, asmCoordOk 0x10000] =
      [false, true, true, false] := by decide

theorem test_asmBitOk_refuses_two : (assemble (.set 0 0 2), assemble (.set 0 0 (-1))) =
    (none, none) := by decide

theorem test_ticks_refuses_negative : (assemble (.ticks (-1)), assemble (.ticks 0)) =
    (none, some []) := by decide

theorem test_build_refuses_odd_and_oversized :
    [Build.ofSide 31, Build.ofSide 0, Build.ofSide 194] = [none, none, none] := by decide

/-! ### Decoding: words written bit by bit, OP RSV V Y X (30_encoding.md R61, R64) -/

theorem test_decode_nop : decode
    0b0000_000000000000000000000000000_0_0000000000000000_0000000000000000 = .ok .nop := by decide
theorem test_decode_xlate : decode
    0b0001_000000000000000000000000000_0_0000000001011111_0000000010000000 =
    .ok (.xlate 128 95) := by decide
theorem test_decode_get : decode
    0b0010_000000000000000000000000000_0_0000000000000001_1000000000000000 =
    .ok (.get 32768 1) := by decide
theorem test_decode_set : decode
    0b0011_000000000000000000000000000_1_0000000001100000_0000000010000000 =
    .ok (.set 128 96 true) := by decide
theorem test_decode_set_to_zero : decode
    0b0011_000000000000000000000000000_0_1000000000000000_0000000000000001 =
    .ok (.set 1 32768 false) := by decide
theorem test_decode_snapshot : decode
    0b0100_000000000000000000000000000_0_0000000000000000_0000000000000000 =
    .ok .snapshot := by decide
theorem test_decode_buildMask : decode
    0b0101_000000000000000000000000000_0_0000000000000000_0000000000000000 =
    .ok .buildMask := by decide
theorem test_decode_step : decode
    0b0110_000000000000000000000000000_0_0000000000000000_0000000000000000 = .ok .step := by decide
theorem test_decode_tick : decode
    0b0111_000000000000000000000000000_0_0000000000000000_0000000000000000 = .ok .tick := by decide
theorem test_decode_sget : decode
    0b1000_000000000000000000000000000_0_0000000010111111_0000000011111111 =
    .ok (.sget 255 191) := by decide
theorem test_decode_mget : decode
    0b1001_000000000000000000000000000_0_0000000000011110_0000000000011111 =
    .ok (.mget 31 30) := by decide
theorem test_decode_clrstat : decode
    0b1010_000000000000000000000000000_0_0000000000000000_0000000000000000 =
    .ok .clrstat := by decide

/-- V-E2 to V-E8: the illegal words. -/
theorem test_decode_illegal_words :
    ([0x0000000000000001, 0x0800000000000000, 0x3000000200000000, 0x2000000100000000,
      0xB000000000000000, 0xF000000000000000, 0x7000000000000001].map (decodeTableWord 64)) =
      [none, none, none, none, none, none, none] := by decide

/-! ### One command on a small state -/

/-- The next state, `none` for a stop. -/
def nxt (o : Host.Outcome State Fault Refusal) : Option State :=
  match o with
  | .next t => some t
  | _ => none

/-- A build with a small region: R = 4, X0 = 126, Y0 = 94. -/
def small : Build := ⟨4, by decide⟩

/-- R = 4, with these bytes in FB and in SNAP and this STATUS. -/
def stateOf (fb snap : Memory) (status : Word32) : State :=
  { State.reset with
    build := small
    fb := fb, snap := snap, status := status }

/-- What a command leaves in RESULT and in STATUS. -/
def registers (o : Host.Outcome State Fault Refusal) : Option (Word32 × Word32) :=
  (nxt o).map fun t => (t.result, t.status)

/-- What a command leaves in FB. -/
def frame (o : Host.Outcome State Fault Refusal) : Option Memory := (nxt o).map fun t => t.fb

/-- The flagged cells of a region of side `R`, rows of columns. -/
def flags (R : Nat) (o : Host.Outcome State Fault Refusal) : Option (List (List Bool)) :=
  (nxt o).map fun t => (List.range R).map fun j => (List.range R).map fun i => t.mask.get i j

/-- V-C4. -/
theorem test_nop_keeps_status : registers (exec .nop (stateOf [] [] 0x306)) = some (0, 0x306) := by
  decide
/-- V-C1. -/
theorem test_clrstat : registers (exec .clrstat (stateOf [] [] 0x306)) = some (0, 0x6) := by decide
/-- V-C3. -/
theorem test_illegal_clrstat :
    registers (runWord 0xA000000000000001 (stateOf [] [] 0x200)) = some (0, 0x300) := by decide

/-- V-T1, V-T3, V-T6, V-T8, V-T11, V-T14, V-T17, V-T20. -/
theorem test_xlate_in_range :
    ([(0, 0), (7, 0), (0, 1), (0, 8), (0, 64), (128, 95), (100, 50), (255, 191)].map fun p =>
      (nxt (exec (.xlate p.1 p.2) State.reset)).map State.result) =
    [some 0x80800000, some 0x80010000, some 0x80800100, some 0x80800020, some 0x80800800,
      some 0x80800F70, some 0x800802CC, some 0x800117FF] := by decide
/-- V-T21 to V-T24. -/
theorem test_xlate_out_of_range :
    ([(256, 0), (0, 192), (0xFFFF, 0), (0, 0xFFFF)].map fun p =>
      (nxt (exec (.xlate p.1 p.2) State.reset)).map State.result) =
    [some 0, some 0, some 0, some 0] := by decide

/-- V-A3: one bit cleared, its neighbour in the byte kept. -/
theorem test_set_clears_one_bit :
    frame (exec (.set 128 96 false) (stateOf [(2192, 0xC0)] [] 0)) = some [(2192, 0x40)] := by decide
/-- V-A14, V-A7, V-A8: outside the region a SET is performed, outside the grid it is not. -/
theorem test_set_outside :
    [frame (exec (.set 50 20 true) State.reset), frame (exec (.set 256 0 true) State.reset),
      frame (exec (.set 0 192 true) State.reset)] = [some [(1094, 0x20)], some [], some []] := by
  decide
/-- V-A5, V-A6. -/
theorem test_get : [registers (exec (.get 129 96) (stateOf [(2192, 0xC0)] [] 0)),
    registers (exec (.get 130 96) (stateOf [(2192, 0xC0)] [] 0))] = [some (1, 0), some (0, 0)] := by
  decide
/-- V-A11, V-A12. -/
theorem test_get_last_cell : [registers (exec (.get 255 191) (stateOf [(6143, 0xFF)] [] 0)),
    registers (exec (.get 255 192) (stateOf [(6143, 0xFF)] [] 0))] = [some (1, 0), some (0, 0)] := by
  decide
/-- V-N3: SGET reads SNAP, not FB. -/
theorem test_sget_reads_snap :
    registers (exec (.sget 128 96) (stateOf [] [(2192, 0x80)] 0x2)) = some (1, 0x2) := by decide
/-- V-N1. -/
theorem test_sget_refused :
    registers (exec (.sget 128 96) (stateOf [(2192, 0x80)] [(2192, 0x80)] 0)) = some (0, 0x200) := by
  decide

/-- V-N5: SNAP is FB, MASK_VALID is cleared. -/
theorem test_snapshot :
    (nxt (exec .snapshot (stateOf [(2192, 0x80)] [(0, 0x01)] 0x6))).map
      (fun t => (t.snap, t.fb, t.status)) = some ([(2192, 0x80)], [(2192, 0x80)], 0x2) := by decide
/-- R106: a live cell in the corner (126, 94) flags 4 cells, the cell (125, 94) outside none. Offset
3695 is character column 15 of line 94: 1·2048 + 6·256 + 3·32 + 15 = 3695. -/
theorem test_buildMask_corner :
    flags 4 (exec .buildMask (stateOf [] [(3695, 0x06)] 0x2)) = some
      [[true, true, false, false], [true, true, false, false], [false, false, false, false],
        [false, false, false, false]] := by decide
/-- V-M8. -/
theorem test_buildMask_refused : registers (exec .buildMask (stateOf [] [] 0)) = some (0, 0x200) := by
  decide
/-- V-M10, at R = 4: a flag read, and the coordinates R and −1 outside. -/
theorem test_mget :
    [registers (exec (.mget 3 1) { stateOf [] [] 0x6 with mask := DirtyMask.clear.flag 3 1 }),
      registers (exec (.mget 4 1) { stateOf [] [] 0x6 with mask := DirtyMask.clear.flag 3 1 }),
      registers (exec (.mget 0xFFFF 1) { stateOf [] [] 0x6 with mask := DirtyMask.clear.flag 3 1 })] =
    [some (1, 0x6), some (0, 0x6), some (0, 0x6)] := by decide
/-- V-M9. -/
theorem test_mget_refused : registers (exec (.mget 0 0) (stateOf [] [] 0x2)) = some (0, 0x202) := by
  decide
/-- R128, R123: (128, 96) is flagged and dies; (129, 96), not flagged, is kept though it would die. -/
theorem test_step_writes_flagged_cells :
    frame (exec .step
      { stateOf [(2192, 0xC0)] [(2192, 0xC0)] 0x6 with mask := DirtyMask.clear.flag 2 2 }) =
    some [(2192, 0x40)] := by decide +kernel
/-- P3, first row. -/
theorem test_step_refused : registers (exec .step (stateOf [] [] 0x2)) = some (0, 0x202) := by decide
/-- V-S3, second tick's direction, at R = 4: the vertical blinker turns. -/
theorem test_tick_blinker :
    (nxt (exec .tick (stateOf [(2192, 0x80), (2448, 0x80), (3952, 0x80)] [] 0))).map
      (fun t => (t.fb, t.status)) = some ([(2191, 0x01), (2192, 0xC0)], 0x6) := by decide +kernel
/-- V-S3 at the default R = 32, from reset: the horizontal blinker turns. -/
theorem test_tick_from_reset :
    (nxt (exec .tick { State.reset with fb := [(2191, 0x01), (2192, 0xC0)] })).map
      (fun t => (t.fb, t.snap, t.status)) =
    some ([(2192, 0x80), (2448, 0x80), (3952, 0x80)], [(2191, 0x01), (2192, 0xC0)], 0x6) := by
  decide +kernel
/-- V-S7 at R = 192: no wraparound to row 191. -/
theorem test_neighbours_at_grid_edge :
    ([(101, 0), (101, 1), (101, 191), (100, 0)].map fun p =>
      liveNeighbours [(12, 0x0E)] p.1 p.2) = [2, 3, 0, 1] := by decide
/-- Section 2.5, every input of the rule evaluator. -/
theorem test_lifeRule :
    [false, true].map (fun a => ([0, 1, 2, 3, 4, 5, 6, 7, 8].map fun n => lifeRule a n)) =
    [[false, false, false, true, false, false, false, false, false],
      [false, false, true, true, false, false, false, false, false]] := by decide

/-! ### The step, reset and the assembler -/

/-- R181: after reset the block waits for the host; a word offered then runs in the very next step. -/
theorem test_withFetchWord :
    frame (step (State.reset.withFetchWord 64 0x3000000100600080)) = some [(2192, 0x80)] := by decide
/-- R50: a word offered while a command executes waits. -/
theorem test_busy_word_waits :
    (nxt (step { accept 0x3000000100600080 (stateOf [] [] 0) with inputs := [.command 0] })).map
      (fun t => (t.inputs, t.status, t.fb)) = some ([.command 0], 0x1, []) := by decide
/-- R31. -/
theorem test_reset_registers :
    (State.reset.status, State.reset.result, State.reset.flight, State.reset.build.R) =
      (0, 0, none, 32) := by decide
/-- R31: a reset between commands leaves FB alone. -/
theorem test_reset_keeps_fb :
    (resetBlock { stateOf [(5, 0x10)] [] 0x306 with result := 7 }).fb = [(5, 0x10)] := by decide
/-- P1, first word; R68, R69. -/
theorem test_assembler :
    assembleText ["SET 127, 96, 1 ; seed".toList, "".toList, "get 0,0".toList] = none ∧
    assembleText ["SET 127, 0x60, 1 ; seed".toList, "; none".toList, "GET -1, 0".toList,
      "TICKS 2".toList, "UNPLOT 1, 2".toList] =
      some [0x300000010060007F, 0x200000000000FFFF, 0x7000000000000000, 0x7000000000000000,
        0x3000000000020001] := by decide
/-- R68, R69: the lines of format N as printed, one with a comment right behind it; a mnemonic alone
whose form takes operands is refused. -/
theorem test_bare_mnemonics :
    assembleText ["NOP".toList, "SNAPSHOT".toList, "BUILD_MASK".toList, "STEP;rule".toList,
      "TICK".toList, "CLRSTAT".toList, "TICK3".toList] =
      some [0x0000000000000000, 0x4000000000000000, 0x5000000000000000, 0x6000000000000000,
        0x7000000000000000, 0xA000000000000000, 0x4000000000000000, 0x5000000000000000,
        0x6000000000000000] ∧
    ["SET", "GET", "XLATE", "SGET", "MGET", "PLOT", "UNPLOT", "TICKS", "SET;x"].map
      (fun t => asmParse t.toList) = List.replicate 9 none := by decide
/-- Section 2.1, inverse: offset 0xF70, bit 7 is the cell (128, 95). -/
theorem test_scan : (scanX 0xF70 7, scanY 0xF70) = (128, 95) := by decide
/-- R44: SET reads its byte, then writes it. The offset is shown under a strobe, the data in a write. -/
theorem test_port_signals :
    ([Phase.start, .readByte, .writeBack].map fun p =>
      let q := portSignals { stateOf [] [] 0x1 with
        flight := some { word := 0x3000000100600081, phase := p, counter := 0, i := 0, j := 0,
                         alive := false, count := 0, latch := 0x80, fbBefore := [] } }
      (q.re, q.we, if q.re || q.we then some q.off else none, if q.we then some q.wdata else none)) =
    [(false, false, none, none), (true, false, some 2192, none),
      (false, true, some 2192, some 0xC0)] := by decide

/-! ### Witnesses

For every obligation with hypotheses, a state and operands that meet all of them together; for one
with several clauses, a witness for each clause at a boundary of its range. -/

/-- One live cell, (128, 96), in FB and in SNAP; R = 4, where it is the cell (2, 2). -/
def point (status : Word32) : State := stateOf [(2192, 0x80)] [(2192, 0x80)] status

/-- The live cells of `point`. -/
theorem point_cells (x y : Coord) : cellAt [(2192, 0x80)] x y = true ↔ x = 128 ∧ y = 96 := by
  have h : [((2192 : Nat), (0x80 : Byte))] = Memory.setCell [] 128 96 true := by decide
  rw [h, cellAt_setCell List.Pairwise.nil]
  have h0 : ∀ x y, cellAt [] x y = false := fun x y => by simp [cellAt]
  have hr : inRange 128#16 96#16 = true := by decide
  simp +contextual [h0, hr]

theorem point_wf : Memory.wf [(2192, 0x80)] := by decide

theorem point_ringDead : ringDead small [(2192, 0x80)] := by
  intro x y h
  cases hc : cellAt [(2192, 0x80)] x y
  · rfl
  · obtain ⟨rfl, rfl⟩ := (point_cells x y).1 hc
    exact absurd h (by decide)

theorem empty_cells (x y : Coord) : cellAt [] x y = false := by simp [cellAt]

theorem witness_EncodeOfDecode : decode 0x30000001FFFFFFFF = .ok (.set 0xFFFF 0xFFFF true) := by
  decide

theorem witness_EveryWordHasOneMeaning :
    (0xB ≤ ((0xB000000000000000 : CmdWord).extractLsb' 60 4).toNat) ∧
    ((0x0000000200000000 : CmdWord).extractLsb' 33 27 ≠ 0) ∧
    (((0xA000000000000001 : CmdWord).extractLsb' 60 4).toNat ∈ [0x0, 0x4, 0x5, 0x6, 0x7, 0xA] ∧
      (0xA000000000000001 : CmdWord).extractLsb' 0 33 ≠ 0) ∧
    (((0x9000000100000000 : CmdWord).extractLsb' 60 4).toNat ∈ [0x1, 0x2, 0x8, 0x9] ∧
      (0x9000000100000000 : CmdWord).getLsbD 32 = true) ∧
    (Fields.ofWord 0x30000001FFFFFFFF).wellFormed = true := by decide

/-- Each bound of R68 from both sides. -/
theorem witness_AssembledLinesDecode :
    ((-1 : Int) ≤ -1 ∧ (65535 : Int) ≤ 0xFFFF) ∧ ¬ ((-1 : Int) ≤ -2) ∧ ¬ ((65536 : Int) ≤ 0xFFFF) ∧
    ((2 : Int) ≠ 0 ∧ (2 : Int) ≠ 1) ∧ ((-1 : Int) ≠ 0 ∧ (-1 : Int) ≠ 1) ∧ (-1 : Int) < 0 ∧
    (AsmLine.set 0 65536 1).wellFormed = false ∧ (AsmLine.set (-1) 65535 1).wellFormed = true := by
  decide

/-- Operands without blanks or commas, a mnemonic that is none of the fifteen, and the digits at the
ends of each base. -/
theorem witness_AssemblerReadsText :
    (∀ t ∈ [['0'], ['-', '1'], ['0', 'x', 'F']], asmPlain t) ∧ asmPlain ['S', 'E', 'T', 'S'] ∧
    (∀ form ∈ asmForms, form.1 ≠ ['S', 'E', 'T', 'S']) ∧
    [['0'], ['9'], ['0', 'x', 'f'], ['0', 'x', 'F'], ['-', '1']].map asmOperand =
      [some 0, some 9, some 15, some 15, some (-1)] ∧
    [['a'], ['0', 'x', 'g'], ['0', 'x'], ['-', '2'], []].map asmOperand =
      [none, none, none, none, none] := by
  refine ⟨?_, ?_, by decide, by decide, by decide⟩ <;> simp [asmPlain]

theorem witness_StepRunsOfferedCommand :
    (State.reset.withFetchWord 64 0x7000000000000000).flight = none ∧
    (State.reset.withFetchWord 64 0x7000000000000000).inputs = .command 0x7000000000000000 :: [] ∧
    decode 0x7000000000000000 = .ok .tick := by decide

theorem witness_StepRefusesIllegalWord :
    (State.reset.withFetchWord 64 0xF000000000000000).flight = none ∧
    (State.reset.withFetchWord 64 0xF000000000000000).inputs = .command 0xF000000000000000 :: [] ∧
    decode 0xF000000000000000 = .error .reservedOpcode := by decide

theorem witness_IdleBlockStays : (point 0x6).flight = none ∧ (point 0x6).inputs = [] := by decide

/-- A SET that has been accepted, with another command waiting behind it. -/
def busySet (i : HostInput) : State :=
  { accept 0x3000000100600080 (point 0) with inputs := [i] }

theorem witness_BusyBlockHoldsOffer : ∀ i ∈ [HostInput.command 0, HostInput.issue 0],
    (busySet i).flight.isSome = true ∧
    ((busySet i).inputs = .command 0 :: [] ∨ (busySet i).inputs = .issue 0 :: []) ∧
    (nxt (step (busySet i))).isSome = true := by decide

theorem witness_AcceptSetsBusy : ({ point 0 with inputs := [.issue 0] } : State).flight = none ∧
    ({ point 0 with inputs := [.issue 0] } : State).inputs = .issue 0 :: [] := by decide

theorem witness_NopDoesNothing : (0x0000000000000001 : CmdWord).extractLsb' 60 4 = 0x0 ∧
    (0x0000000000000001 : CmdWord) ≠ 0 := by decide

theorem witness_ClrstatClearsStickyBits :
    ((0xA000000000000001 : CmdWord).extractLsb' 60 4 = 0xA ∧
      (0xA000000000000001 : CmdWord) ≠ 0xA000000000000000) ∧
    ((point 0x6).ill = false ∧ (point 0x6).seqErr = false) ∧ (point 0x302).status = 0x302 := by
  decide

theorem witness_MaskHasOneBit : (0 : Nat) < 8 ∧ (7 : Nat) < 8 := by decide

theorem witness_TranslatorIsBijection :
    (inRange 0 0 = true ∧ inRange 255 191 = true) ∧ offset 255 191 = offset 255 191 ∧
    bitIndex 255 = bitIndex 255 ∧ (6143 < 6144 ∧ 7 < 8) := by decide

theorem witness_ScanInvertsTranslator : (6143 : PortOffset).toNat < 6144 ∧
    inRange 255 191 = true := by decide

theorem witness_XlateWritesAddress :
    ((255 : Coord).toNat < 256 ∧ (191 : Coord).toNat < 192) ∧
    ¬ ((256 : Coord).toNat < 256 ∧ (0 : Coord).toNat < 192) ∧
    ¬ ((0 : Coord).toNat < 256 ∧ (192 : Coord).toNat < 192) := by decide

theorem witness_SetWritesOneBit : Memory.wf (point 0).fb ∧
    ((255 : Coord).toNat < 256 ∧ (191 : Coord).toNat < 192) ∧
    ¬ ((0 : Coord).toNat < 256 ∧ (192 : Coord).toNat < 192) ∧ 0 ≠ (offset 255 191).toNat := by
  decide

theorem witness_SgetReadsFrozenCell : (point 0x2).snapValid = true ∧ (point 0).snapValid = false := by
  decide

theorem witness_GetAfterSet : Memory.wf (point 0).fb ∧ inRange 255 191 = true ∧
    inRange 256 0 = false ∧ ¬ ((254 : Coord) = 255 ∧ (191 : Coord) = 191) := by decide

theorem witness_RewritingABitChangesNothing : Memory.wf (point 0x2).fb ∧
    (point 0x2).snapValid = true := by decide

theorem witness_OutOfRangeIsNoError :
    ¬ ((256 : Coord).toNat < 256 ∧ (0 : Coord).toNat < 192) ∧ (point 0x2).snapValid = true ∧
    ((point 0x6).build.R ≤ (4 : Coord).toNat ∨ (point 0x6).build.R ≤ (0 : Coord).toNat) ∧
    (point 0x6).maskValid = true := by decide

theorem witness_SnapshotCopiesEveryByte : (6143 : Nat) < 6144 ∧ (31 : Nat) < 32 ∧ (31 : Nat) ≠ 1 ∧
    (31 : Nat) ≠ 2 := by decide

theorem witness_BuildMaskFlagsNeighbourhoods :
    (point 0x2).snapValid = true ∧ (point 0).snapValid = false := by decide

/-- One live cell: a corner, an edge cell and an inner cell of the region. -/
theorem witness_IsolatedCellFlagCounts :
    ∀ p ∈ [((0, 0), [(3695, (0x02 : Byte))]), ((1, 0), [(3695, 0x01)]), ((2, 2), [(2192, 0x80)]),
      ((3, 3), [(2448, 0x40)])],
      p.1.1 < small.R ∧ p.1.2 < small.R ∧
      (∀ i < small.R, ∀ j < small.R,
        (cellAt (stateOf [] p.2 0x2).snap (cellX small i) (cellY small j) = true ↔
          i = p.1.1 ∧ j = p.1.2)) ∧
      (stateOf [] p.2 0x2).snapValid = true ∧
      ∃ t, exec .buildMask (stateOf [] p.2 0x2) = .next t := by
  intro p hp
  refine ⟨?_, ?_, ?_, ?_, _, exec_buildMask _⟩ <;> revert hp p <;> decide

theorem witness_MgetReadsFlag : (point 0x6).maskValid = true ∧ (point 0x2).maskValid = false := by
  decide

theorem witness_MaskCoversChanges : ∃ t, (point 0x2).snapValid = true ∧
    ringDead (point 0x2).build (point 0x2).snap ∧ exec .buildMask (point 0x2) = .next t ∧
    (2 : Nat) < small.R ∧ nextValue (point 0x2).snap (cellX small 2) (cellY small 2) ≠
      cellAt (point 0x2).snap (cellX small 2) (cellY small 2) :=
  ⟨_, rfl, point_ringDead, exec_buildMask _, by decide, by decide⟩

theorem witness_LifeRuleIsTheTable : (8 : BitVec 4).toNat ≤ 8 ∧ (2 : BitVec 4) = 2 ∧
    (1 : BitVec 4).toNat < 2 ∧ 3 < (4 : BitVec 4).toNat ∧ (4 : BitVec 4) ≠ 3 := by decide

theorem witness_WriteBackReplacesOneBit : (3 : Nat) < small.R ∧
    DirtyMask.get (DirtyMask.clear.flag 3 3) 3 3 = true := by decide

/-- MASK_VALID with the cell (2, 2) of `point` flagged, and without. -/
def pointMasked : State := { point 0x6 with mask := DirtyMask.clear.flag 2 2 }

theorem witness_StepAppliesRuleToFlaggedCells : Memory.wf pointMasked.fb ∧
    pointMasked.maskValid = true ∧ (point 0x2).maskValid = false ∧
    DirtyMask.get pointMasked.mask 2 2 = true ∧ DirtyMask.get pointMasked.mask 3 3 = false ∧
    inRegion small 125 96 = false := by decide

theorem witness_StepIgnoresVisitOrder : Memory.wf (point 0).fb ∧
    (regionCells small).reverse.Perm (regionCells small) :=
  ⟨point_wf, List.reverse_perm _⟩

theorem witness_StepIsIdempotent : ∃ t, Memory.wf pointMasked.fb ∧ pointMasked.maskValid = true ∧
    exec .step pointMasked = .next t :=
  ⟨_, point_wf, rfl, exec_step _⟩

theorem witness_TickIsThreeCommands : (31 : Nat) < 32 ∧ (31 : Nat) ≠ 1 ∧ (31 : Nat) ≠ 2 := by decide

theorem witness_MaskedStepEqualsFullStep : Memory.wf (point 0).fb ∧
    ringDead (point 0).build (point 0).fb := ⟨point_wf, point_ringDead⟩

theorem witness_TickIsOneGeneration : Memory.wf (point 0).fb ∧
    ringDead (point 0).build (point 0).fb ∧ inRegion (point 0).build 129 97 = true ∧
    inRegion (point 0).build 130 97 = false :=
  ⟨point_wf, point_ringDead, by decide, by decide⟩

theorem witness_IsolatedCellDies : ∃ t, Memory.wf (point 0).fb ∧
    inRegion (point 0).build 128 96 = true ∧
    (∀ x' y', cellAt (point 0).fb x' y' = true ↔ x' = 128 ∧ y' = 96) ∧
    exec .tick (point 0) = .next t :=
  ⟨_, point_wf, by decide, point_cells, exec_tick _⟩

theorem witness_RingStaysDead : ∃ t, Memory.wf (point 0).fb ∧
    (∀ x y v, Instr.tick ≠ .set x y v) ∧ ringDead (point 0).build (point 0).fb ∧
    exec .tick (point 0) = .next t :=
  ⟨_, point_wf, by simp, point_ringDead, exec_tick _⟩

theorem witness_SetBetweenSnapshotAndStep : Memory.wf (point 0).fb ∧ (0 : Nat) < small.R ∧
    (3 : Nat) < small.R := by decide

theorem witness_WhoWritesWhat : ∃ t, exec .clrstat (point 0x306) = .next t ∧
    (∀ x y v, Instr.clrstat ≠ .set x y v) ∧ Instr.clrstat ≠ .step ∧ Instr.clrstat ≠ .tick ∧
    Instr.clrstat ≠ .snapshot ∧ Instr.clrstat ≠ .buildMask ∧
    (∀ x y, Instr.clrstat ≠ .xlate x y) ∧ (∀ x y, Instr.clrstat ≠ .get x y) ∧
    (∀ x y, Instr.clrstat ≠ .sget x y) ∧ (∀ x y, Instr.clrstat ≠ .mget x y) :=
  ⟨_, rfl, by simp, by simp, by simp, by simp, by simp, by simp, by simp, by simp, by simp⟩

theorem witness_OnlySetWritesOutsideRegion : ∃ t, Memory.wf pointMasked.fb ∧
    (∀ x y v, Instr.step ≠ .set x y v) ∧ exec .step pointMasked = .next t ∧
    inRegion pointMasked.build 125 96 = false :=
  ⟨_, point_wf, by simp, exec_step _, by decide⟩

theorem witness_StatusBitsOfEveryCommand : ∃ t u, exec .step (point 0x2) = .next t ∧
    t.seqErr = true ∧ exec (.sget 0 0) (point 0) = .next u ∧ u.seqErr = true :=
  ⟨_, _, rfl, by decide, rfl, by decide⟩

theorem witness_IllIsCheckedFirst : ∃ t u v,
    runWord 0xB000000000000000 (point 0) = .next t ∧ decode 0xB000000000000000 = .error .reservedOpcode ∧
    runWord 0x0000000000000000 (point 0x100) = .next u ∧ decode 0x0000000000000000 = .ok .nop ∧
    u.ill = true ∧
    runWord 0x6000000000000000 (point 0x2) = .next v ∧ (point 0x2).seqErr = false ∧
    v.seqErr = true :=
  ⟨_, _, _, rfl, by decide, rfl, by decide, by decide, rfl, by decide, by decide⟩

theorem witness_ResultRegister : ∃ a b c d e f, exec (.xlate 255 191) (point 0) = .next a ∧
    exec (.get 128 96) (point 0) = .next b ∧ exec (.sget 128 96) (point 0x2) = .next c ∧
    exec (.mget 3 3) (point 0x6) = .next d ∧ exec .nop (point 0) = .next e ∧
    decode 0xF000000000000000 = .error .reservedOpcode ∧
    runWord 0xF000000000000000 (point 0) = .next f :=
  ⟨_, _, _, _, _, _, rfl, exec_get .., exec_sget .., exec_mget .., rfl, by decide, rfl⟩

theorem witness_RegionIsCentredAndInRange :
    (192 % 2 = 0 ∧ 2 ≤ 192 ∧ 192 ≤ 192) ∧ (2 % 2 = 0 ∧ 2 ≤ 2 ∧ 2 ≤ 192) ∧
    inRegion Build.standard 112 80 = true ∧ inRegion Build.standard 143 111 = true := by decide

theorem witness_ResetBetweenCommands : ({ point 0x306 with inputs := [.reset] } : State).flight = none ∧
    ({ point 0x306 with inputs := [.reset] } : State).inputs = .reset :: [] := by decide

theorem witness_PowerCycleClearsRegisters :
    (busySet .powerCycle).inputs = .powerCycle :: [] := by decide

/-- A STEP about to write back the cell (2, 2). -/
def writing : InFlight :=
  { word := 0x6000000000000000, phase := .writeBack, counter := 0, i := 2, j := 2, alive := true,
    count := 0, latch := 0x80, fbBefore := [(2192, 0x80)] }

/-- `pointMasked` while `writing` executes. -/
def pointWriting : State := { pointMasked with status := 0x7, flight := some writing }

theorem masked_inside (i j : Nat) (h : DirtyMask.get pointMasked.mask i j = true) :
    i < small.R ∧ j < small.R := by
  rw [show pointMasked.mask = DirtyMask.clear.flag 2 2 from rfl, get_flag, get_clear] at h
  simp only [Bool.false_or, decide_eq_true_eq] at h
  rw [h.1, h.2.1]
  decide

theorem pointMasked_inv : State.Inv pointMasked where
  fb_wf := point_wf
  snap_wf := point_wf
  mask_inside := masked_inside
  reserved_zero := by decide
  mask_needs_snap := fun _ => by decide
  busy_iff := by decide
  flight_sound := fun _ h => by cases h

theorem pointWriting_inv : State.Inv pointWriting where
  fb_wf := point_wf
  snap_wf := point_wf
  mask_inside := masked_inside
  reserved_zero := by decide
  mask_needs_snap := fun _ => by decide
  busy_iff := by decide
  flight_sound := fun f h => by
    cases h
    exact ⟨by decide, by decide, by decide, by decide, point_wf,
      .inr ⟨.inl (by show decode _ = _; decide), by decide⟩⟩

/-- A reset while SET waits for its first micro-step, one right after an acceptance, and one before it. -/
theorem witness_ResetDuringCommand : (busySet .reset).flight.isSome = true ∧
    (busySet .reset).inputs = .reset :: [] ∧ State.Inv pointMasked ∧ pointMasked.flight = none ∧
    (∃ u, Sys2Proof.core.run 0 { pointMasked with inputs := [.issue 0x6000000000000000] } = .next u) ∧
    (∃ u f, Sys2Proof.core.run 1 { pointMasked with inputs := [.issue 0x6000000000000000] } = .next u ∧
      u.flight = some f ∧ f.fbBefore = pointMasked.fb) ∧
    (6143 : Nat) < 6144 ∧ (7 : Nat) < 8 :=
  ⟨by decide, by decide, pointMasked_inv, rfl, ⟨_, rfl⟩, ⟨_, _, rfl, rfl, rfl⟩, by decide, by decide⟩

theorem witness_StepKeepsInvariant : State.Inv pointWriting ∧
    (nxt (step pointWriting)).isSome = true := ⟨pointWriting_inv, by decide⟩

theorem witness_SoundStatesNeverStop : State.Inv pointWriting := pointWriting_inv

theorem witness_FbChangesOnlyThroughPort : State.Inv pointWriting ∧
    (portSignals pointWriting).we = true := ⟨pointWriting_inv, by decide⟩

theorem witness_VisitsRefineTransaction : State.Inv pointMasked ∧ pointMasked.flight = none :=
  ⟨pointMasked_inv, rfl⟩

theorem witness_DisplaySeesOldOrNew : ∃ t, State.Inv pointMasked ∧ pointMasked.flight = none ∧
    step { pointMasked with inputs := [.command 0x6000000000000000] } = .next t ∧
    (6143 : PortOffset).toNat < 6144 :=
  ⟨_, pointMasked_inv, rfl,
    exec_step { pointMasked with inputs := [] }, by decide⟩

end Sys2Proof.Tests
end

section
/-! The block's parameters and the atomic step (00_scope.md R9, R10, R15). -/

namespace Sys2Proof.Machine

/-- A build is granted for exactly the side lengths of 00_scope.md R9. -/
theorem exists_ofSide_iff (n : Nat) :
    (∃ b, Build.ofSide n = some b ∧ b.R = n) ↔ n % 2 = 0 ∧ 2 ≤ n ∧ n ≤ 192 := by
  constructor
  · rintro ⟨b, -, rfl⟩
    exact b.legal
  · intro h
    exact ⟨⟨n, h⟩, dif_pos h, rfl⟩

/-- The region lies in the middle of the grid (00_scope.md R10): R is even, so the margins are
equal. -/
theorem region_centred (b : Build) : b.x0 = 128 - b.R / 2 ∧ b.y0 = 96 - b.R / 2 ∧
    b.x0 + b.R + b.x0 = 256 ∧ b.y0 + b.R + b.y0 = 192 := by
  have hx : b.x0 = 128 - b.R / 2 := rfl
  have hy : b.y0 = 96 - b.R / 2 := rfl
  obtain ⟨heven, hmin, hmax⟩ := build_legal b
  omega

/-- Settles O48: the side lengths, the region's place and its range are a law each. -/
theorem regionIsCentredAndInRange : Obligations.RegionIsCentredAndInRange :=
  ⟨exists_ofSide_iff, region_centred, fun _ _ _ => inRange_of_inRegion, rfl⟩

/-- An idle block runs an offered word as one transaction (00_scope.md R15, 20_memory.md R50). -/
theorem step_command {s : State} {w : CmdWord} {rest : List HostInput} (hidle : s.flight = none)
    (hoffer : s.inputs = .command w :: rest) : step s = runWord w { s with inputs := rest } := by
  unfold step takeInput cmdReady
  rw [hoffer, hidle]
  rfl

/-- An idle block accepts an issued word (10_state.md R29). -/
theorem step_issue {s : State} {w : CmdWord} {rest : List HostInput} (hidle : s.flight = none)
    (hoffer : s.inputs = .issue w :: rest) :
    step s = .next (accept w { s with inputs := rest }) := by
  unfold step takeInput cmdReady
  rw [hoffer, hidle]
  rfl

theorem runWord_of_legal {w : CmdWord} {i : Instr} (h : decode w = .ok i) (s : State) :
    runWord w s = exec i s := by
  unfold runWord
  rw [h]

theorem runWord_of_illegal {w : CmdWord} {e : Illegal} (h : decode w = .error e) (s : State) :
    runWord w s = .next (s.raise .ill) := by
  unfold runWord
  rw [h]

/-- Settles O6: the step runs the offered word, and a legal word is its command. -/
theorem stepRunsOfferedCommand : Obligations.StepRunsOfferedCommand := by
  intro s w i rest hidle hoffer hlegal
  rw [step_command hidle hoffer, runWord_of_legal hlegal]

end Sys2Proof.Machine
end

section
/-! A command visit by visit ends where its atomic transaction ends (00_scope.md R15, 10_state.md
R29). The runs are built backwards from the completion: each body of a command (copy, flag, step) is
taken through its loop by `copy_passes`, `flag_passes`, `step_passes` to the state that `exec` gives.
FB on the way is kept in the statements (`FbOnTheWay`), for what is seen during a command. -/

namespace Sys2Proof.Machine

/-- A state at a command boundary with nothing offered: where a command starts and ends. -/
structure Idle (s : State) : Prop where
  flight : s.flight = none
  busy : s.busy = false
  inputs : s.inputs = []

/-- What FB may hold on the way of a command from `s` to `t`: FB as at one of the two ends, or FB
after a first part of the region's visits, where the command is a STEP or ends in one. -/
def FbOnTheWay (s t : State) (m : Memory) : Prop :=
  m = s.fb ∨ m = t.fb ∨
    (t.fb = stepFb s.build t.mask t.snap s.fb ∧ ∃ p q, regionCells s.build = p ++ q ∧
      m = p.foldl (stepOne s.build t.mask t.snap) s.fb)

variable {P : Memory → Prop} {s t : State} {f g : InFlight}

/-! ### The first micro-step -/

theorem microStep_start (h : f.phase = .start) : microStep f s = startCommand f s := by
  unfold microStep
  rw [h]

/-- A completed command is at a command boundary. -/
theorem passes_complete (ht : Idle t) (hp : P t.fb) : Passes P (complete (executing f t)) t := by
  rw [complete_executing f t ht.busy ht.flight]
  exact .refl hp

/-- The run of a command goes on from what its first micro-step gives. -/
theorem passes_of_start {u : State} (hs : Idle s) (hph : f.phase = .start) (hp : P s.fb)
    (hstart : startCommand f (executing f s) = .next u) (h : Passes P u t) :
    Passes P (executing f s) t :=
  .cons (by rw [step_executing f s hs.inputs, microStep_start hph, hstart]) hp h

/-- The executing command and BUSY have no part in any command's effect. -/
theorem exec_executing (i : Instr) (h : exec i s = .next t) :
    exec i (executing f s) = .next (executing f t) := by
  cases i with
  | nop => cases h; rfl
  | clrstat =>
    cases h
    rw [exec_clrstat, lower_executing, lower_executing]
  | xlate x y => cases h; rfl
  | get x y => rw [exec_get] at h ⊢; cases h; rfl
  | set x y v => rw [exec_set] at h ⊢; cases h; rfl
  | sget x y =>
    rw [exec_sget] at h ⊢
    cases h
    rw [snapValid_executing, raise_executing]
    split <;> rfl
  | mget i j =>
    rw [exec_mget] at h ⊢
    cases h
    rw [maskValid_executing, raise_executing]
    split <;> rfl
  | snapshot =>
    cases h
    rw [exec_snapshot]
    exact congrArg _ (snapshotTaken_executing f { s with snap := Memory.copyBytes s.fb })
  | buildMask =>
    rw [exec_buildMask] at h ⊢
    cases h
    rw [snapValid_executing, raise_executing]
    split
    · exact congrArg _ (setMaskValid_executing f { s with mask := maskOf s.build s.snap } true)
    · rfl
  | step =>
    rw [exec_step] at h ⊢
    cases h
    rw [maskValid_executing, raise_executing]
    split <;> rfl
  | tick =>
    rw [exec_tick] at h ⊢
    cases h
    unfold executing State.setBusy
    simp only [Host.Outcome.next.injEq, State.mk.injEq, true_and, and_true]
    rw [putBit_comm s.status true true (k := busyBit) (l := snapValidBit) (by decide),
      putBit_comm _ true false (k := busyBit) (l := maskValidBit) (by decide),
      putBit_comm _ true true (k := busyBit) (l := maskValidBit) (by decide)]

section idle
variable (hs : Idle s)
include hs

theorem Idle.raise (c : Cause) : Idle (s.raise c) := ⟨hs.flight, by simp [hs.busy], hs.inputs⟩
theorem Idle.lower (c : Cause) : Idle (s.lower c) := ⟨hs.flight, by simp [hs.busy], hs.inputs⟩
theorem Idle.setMaskValid (v : Bool) : Idle (s.setMaskValid v) :=
  ⟨hs.flight, by simp [hs.busy], hs.inputs⟩
theorem Idle.snapshotTaken : Idle s.snapshotTaken :=
  ⟨hs.flight, by simp [State.snapshotTaken, hs.busy], hs.inputs⟩
theorem Idle.withData (fb snap : Memory) (mask : DirtyMask) (result : Word32) :
    Idle { s with fb := fb, snap := snap, mask := mask, result := result } :=
  ⟨hs.flight, hs.busy, hs.inputs⟩

end idle

/-- No command leaves the command boundary (10_state.md R23, R29). -/
theorem exec_idle (i : Instr) (hs : Idle s) (h : exec i s = .next t) : Idle t := by
  cases i with
  | nop => cases h; exact hs
  | clrstat => cases h; exact (hs.lower .ill).lower .seqErr
  | xlate x y => cases h; exact hs.withData ..
  | get x y => rw [exec_get] at h; cases h; exact hs.withData ..
  | set x y v => rw [exec_set] at h; cases h; exact hs.withData ..
  | sget x y =>
    rw [exec_sget] at h
    cases h
    split
    · exact hs.withData ..
    · exact hs.raise .seqErr
  | mget i j =>
    rw [exec_mget] at h
    cases h
    split
    · exact hs.withData ..
    · exact hs.raise .seqErr
  | snapshot => cases h; exact (hs.withData ..).snapshotTaken
  | buildMask =>
    rw [exec_buildMask] at h
    cases h
    split
    · exact (hs.withData ..).setMaskValid true
    · exact hs.raise .seqErr
  | step =>
    rw [exec_step] at h
    cases h
    split
    · exact hs.withData ..
    · exact hs.raise .seqErr
  | tick =>
    rw [exec_tick] at h
    cases h
    exact ((hs.withData ..).snapshotTaken.setMaskValid true)

/-! ### The bodies -/

/-- The SNAPSHOT body, from its start to what follows its last byte (41_snapshot_mask.md R100). -/
theorem passes_copying (hs : Idle s) (hfb : Memory.wf s.fb) (hsnap : Memory.wf s.snap) (hp : P s.fb)
    (fin : ∀ g : InFlight, g.word = f.word →
      Passes P (afterCopying g (executing g { s with snap := s.fb })) t) :
    Passes P (continueWith (executing f s) { f with phase := .copy, counter := 0 }) t :=
  copy_passes hfb hs.inputs hp f.word fin 6143 0 rfl { f with phase := .copy, counter := 0 } s.snap
    rfl rfl rfl hsnap fun _ h => absurd h (Nat.not_lt_zero _)

/-- The BUILD_MASK body, from its start to what follows its last visit (41_snapshot_mask.md
R103). -/
theorem passes_flagging (hs : Idle s) (hp : P s.fb)
    (fin : ∀ g : InFlight, g.word = f.word →
      Passes P (afterMasking g (executing g { s with mask := maskOf s.build s.snap })) t) :
    Passes P (startFlagging f (executing g s)) t := by
  obtain ⟨rest, hrest⟩ := regionCells_cons s.build
  unfold maskOf at fin
  rw [hrest] at fin
  exact flag_passes hs.inputs hp f.word rest [] 0 0 hrest { f with phase := .flag, i := 0, j := 0 }
    DirtyMask.clear rfl rfl rfl rfl fin

/-- The STEP body, from its start to the command's completion (42_stepper.md R123). -/
theorem passes_stepping (hs : Idle s)
    (hword : decode f.word = .ok .step ∨ decode f.word = .ok .tick)
    (hp : ∀ p q, regionCells s.build = p ++ q → P (p.foldl (stepOne s.build s.mask s.snap) s.fb)) :
    Passes P (startStepping f (executing g s))
      { s with fb := stepFb s.build s.mask s.snap s.fb } := by
  obtain ⟨rest, hrest⟩ := regionCells_cons s.build
  have hfold : stepFb s.build s.mask s.snap s.fb =
      ((0, 0) :: rest).foldl (stepOne s.build s.mask s.snap) s.fb := by
    unfold stepFb
    rw [hrest]
    rfl
  rw [hfold]
  refine step_passes hs.inputs hword rest [] 0 0 hrest { f with phase := .eval, i := 0, j := 0 }
    s.fb rfl rfl rfl rfl (fun p q h => hp p q (hrest.trans h)) fun g _ => ?_
  exact passes_complete (hs.withData _ s.snap s.mask s.result)
    (hp _ [] (hrest.trans (List.append_nil _).symm))

section write
variable {x y : Coord} {v : Bool} (hs : Idle s) (hr : inRange x y = true)
include hs hr

/-- The micro-step that reads the byte of a bit write (40_translate_access.md R84). -/
theorem step_readByte (hph : f.phase = .readByte) (htarget : writeTarget f s.build = (x, y, v)) :
    step (executing f s) = .next (executing
      { f with phase := .writeBack, latch := Memory.read s.fb (offset x y).toNat } s) := by
  have hoffset : writeOffset f s.build = offset x y := by unfold writeOffset; rw [htarget]
  rw [step_executing f s hs.inputs, ← hoffset]
  unfold microStep
  rw [hph]
  exact congrArg outcomeOf (readStep_eq f (executing f s) (hoffset ▸ offset_lt hr))

/-- The micro-step that writes back the byte read, with one bit replaced (40_translate_access.md
R84). -/
theorem step_writeBack (hph : f.phase = .writeBack) (htarget : writeTarget f s.build = (x, y, v))
    (hlatch : f.latch = Memory.read s.fb (offset x y).toNat) :
    step (executing f s) =
      .next (afterWriting f (executing f { s with fb := Memory.setCell s.fb x y v })) := by
  have hoffset : writeOffset f s.build = offset x y := by unfold writeOffset; rw [htarget]
  have hbyte : Memory.setCell s.fb x y v =
      Memory.write s.fb (writeOffset f s.build).toNat (writeByte f s.build) := by
    unfold Memory.setCell writeByte
    rw [if_pos hr, hoffset, htarget, hlatch]
  rw [step_executing f s hs.inputs, hbyte]
  unfold microStep
  rw [hph]
  exact congrArg outcomeOf (writeStep_eq f (executing f s) (hoffset ▸ offset_lt hr))

/-- The read and the write of SET (40_translate_access.md R84, R86). -/
theorem passes_writing (hword : decode f.word = .ok (.set x y v)) (hp : P s.fb)
    (hend : P (Memory.setCell s.fb x y v)) :
    Passes P (continueWith (executing f s) { f with phase := .readByte })
      { s with fb := Memory.setCell s.fb x y v } := by
  have htarget : ∀ k : InFlight, k.word = f.word → writeTarget k s.build = (x, y, v) := by
    intro k hk
    unfold writeTarget
    rw [hk, hword]
  refine .cons (step_readByte hs hr rfl (htarget _ rfl)) hp
    (.cons (step_writeBack hs hr rfl (htarget _ rfl) rfl) hp ?_)
  unfold afterWriting
  rw [show decode _ = _ from hword]
  exact passes_complete (hs.withData _ s.snap s.mask s.result) hend

end write

/-! ### What follows a body: the command's end, or in a TICK the next body (42_stepper.md R133) -/

theorem not_isTick {i : Instr} (h : decode f.word = .ok i) (hi : i ≠ .tick) :
    ¬ f.isTick = true := by
  rw [isTick_iff, InFlight.runs, h]
  exact fun e => hi (Except.ok.inj e)

theorem afterCopying_alone (h : ¬ f.isTick = true) :
    afterCopying f (executing f s) = complete (executing f s.snapshotTaken) := by
  unfold afterCopying
  rw [if_neg h, snapshotTaken_executing]

theorem afterCopying_tick (h : f.isTick = true) :
    afterCopying f (executing f s) = startFlagging f (executing f s.snapshotTaken) := by
  unfold afterCopying
  rw [if_pos h, snapshotTaken_executing]

theorem afterMasking_alone (h : ¬ f.isTick = true) :
    afterMasking f (executing f s) = complete (executing f (s.setMaskValid true)) := by
  unfold afterMasking
  rw [if_neg h, setMaskValid_executing]

theorem afterMasking_tick (h : f.isTick = true) :
    afterMasking f (executing f s) = startStepping f (executing f (s.setMaskValid true)) := by
  unfold afterMasking
  rw [if_pos h, setMaskValid_executing]

/-! ### Each command -/

theorem FbOnTheWay.first : FbOnTheWay s t s.fb := .inl rfl
theorem FbOnTheWay.last : FbOnTheWay s t t.fb := .inr (.inl rfl)

/-- Every part of the visits is on the way of a command that ends with all of them. -/
theorem FbOnTheWay.visits (h : t.fb = stepFb s.build t.mask t.snap s.fb) (p q : List (Nat × Nat))
    (hpq : regionCells s.build = p ++ q) :
    FbOnTheWay s t (p.foldl (stepOne s.build t.mask t.snap) s.fb) :=
  .inr (.inr ⟨h, p, q, hpq, rfl⟩)

section command
variable (hs : Idle s) (hph : f.phase = .start)
include hs hph

/-- A command that ends with its first micro-step. -/
theorem passes_at_once (ht : Idle t)
    (hstart : startCommand f (executing f s) = .next (complete (executing f t))) :
    Passes (FbOnTheWay s t) (executing f s) t :=
  passes_of_start hs hph .first hstart (passes_complete ht .last)

theorem passes_illegal {e : Illegal} (hword : decode f.word = .error e) :
    Passes (FbOnTheWay s (s.raise .ill)) (executing f s) (s.raise .ill) := by
  refine passes_at_once hs hph (hs.raise .ill) ?_
  unfold startCommand
  rw [hword, ← raise_executing]

theorem passes_set {x y : Coord} {v : Bool} (hword : decode f.word = .ok (.set x y v)) :
    Passes (FbOnTheWay s { s with fb := Memory.setCell s.fb x y v }) (executing f s)
      { s with fb := Memory.setCell s.fb x y v } := by
  cases hr : inRange x y
  · have hout : Memory.setCell s.fb x y v = s.fb := by
      unfold Memory.setCell
      rw [if_neg (by simp [hr])]
    rw [hout]
    refine passes_at_once hs hph hs ?_
    unfold startCommand
    rw [hword]
    exact if_neg (by simp [hr])
  · refine passes_of_start hs hph .first ?_ (passes_writing hs hr hword .first .last)
    unfold startCommand
    rw [hword]
    exact if_pos hr

theorem passes_snapshot (hfb : Memory.wf s.fb) (hsnap : Memory.wf s.snap)
    (hword : decode f.word = .ok .snapshot) :
    Passes (FbOnTheWay s (snapshotBody s)) (executing f s) (snapshotBody s) := by
  refine passes_of_start hs hph .first (u := continueWith (executing f s)
    { f with phase := .copy, counter := 0 }) ?_ (passes_copying hs hfb hsnap .first fun g hg => ?_)
  · unfold startCommand
    rw [hword]
  · rw [afterCopying_alone (not_isTick (hg ▸ hword) (by decide)), snapshotBody,
      Memory.copyBytes_eq hfb]
    exact passes_complete (hs.withData _ s.fb s.mask s.result).snapshotTaken .first

theorem passes_buildMask (hvalid : s.snapValid = true) (hword : decode f.word = .ok .buildMask) :
    Passes (FbOnTheWay s ({ s with mask := maskOf s.build s.snap }.setMaskValid true))
      (executing f s) ({ s with mask := maskOf s.build s.snap }.setMaskValid true) := by
  refine passes_of_start hs hph .first (u := startFlagging f (executing f s)) ?_
    (passes_flagging hs .first fun g hg => ?_)
  · unfold startCommand
    rw [hword]
    exact if_pos ((snapValid_executing f s).trans hvalid)
  · rw [afterMasking_alone (not_isTick (hg ▸ hword) (by decide))]
    exact passes_complete ((hs.withData s.fb s.snap _ s.result).setMaskValid true) .first

theorem passes_step (hvalid : s.maskValid = true) (hword : decode f.word = .ok .step) :
    Passes (FbOnTheWay s { s with fb := stepFb s.build s.mask s.snap s.fb }) (executing f s)
      { s with fb := stepFb s.build s.mask s.snap s.fb } := by
  refine passes_of_start hs hph .first (u := startStepping f (executing f s)) ?_
    (passes_stepping hs (.inl hword) (FbOnTheWay.visits rfl))
  unfold startCommand
  rw [hword]
  exact if_pos ((maskValid_executing f s).trans hvalid)

/-- TICK runs the three bodies one after the other (42_stepper.md R133). -/
theorem passes_tick (hfb : Memory.wf s.fb) (hsnap : Memory.wf s.snap)
    (hword : decode f.word = .ok .tick) (h : exec .tick s = .next t) :
    Passes (FbOnTheWay s t) (executing f s) t := by
  rw [exec_tick, Memory.copyBytes_eq hfb] at h
  cases h
  have htick : ∀ g : InFlight, g.word = f.word → g.isTick = true := by
    intro g hg
    rw [isTick_iff, InFlight.runs, hg, hword]
  have hcopied : Idle ({ s with snap := s.fb }.snapshotTaken) :=
    (hs.withData s.fb s.fb s.mask s.result).snapshotTaken
  refine passes_of_start hs hph .first (u := continueWith (executing f s)
    { f with phase := .copy, counter := 0 }) ?_ (passes_copying hs hfb hsnap .first fun g hg => ?_)
  · unfold startCommand
    rw [hword]
  · rw [afterCopying_tick (htick g hg)]
    refine passes_flagging hcopied .first fun k hk => ?_
    rw [afterMasking_tick (htick k (hk.trans hg))]
    exact passes_stepping ((hcopied.withData s.fb s.fb _ s.result).setMaskValid true)
      (.inr (hk.trans hg ▸ hword)) fun p q hpq => FbOnTheWay.visits rfl p q hpq

/-- A refused command ends with its first micro-step (60_exceptions.md R160). -/
theorem passes_refused (hstart : startCommand f (executing f s) =
    .next (complete ((executing f s).raise .seqErr))) :
    Passes (FbOnTheWay s (s.raise .seqErr)) (executing f s) (s.raise .seqErr) :=
  passes_at_once hs hph (hs.raise .seqErr) (by rw [hstart, raise_executing])

/-- Every command, run visit by visit from its acceptance, ends where `exec` ends. -/
theorem passes_command (hfb : Memory.wf s.fb) (hsnap : Memory.wf s.snap) {i : Instr}
    (hword : decode f.word = .ok i) (h : exec i s = .next t) :
    Passes (FbOnTheWay s t) (executing f s) t := by
  cases i with
  | nop | clrstat | xlate | get | sget | mget =>
    refine passes_at_once hs hph (exec_idle _ hs h) ?_
    unfold startCommand
    rw [hword]
    simp only [exec_executing _ h]
  | set x y v =>
    rw [exec_set] at h
    cases h
    exact passes_set hs hph hword
  | snapshot =>
    cases h
    exact passes_snapshot hs hph hfb hsnap hword
  | buildMask =>
    rw [exec_buildMask] at h
    cases h
    split
    · next hvalid => exact passes_buildMask hs hph hvalid hword
    · next hinvalid =>
      refine passes_refused hs hph ?_
      unfold startCommand
      rw [hword]
      exact if_neg (by rwa [snapValid_executing])
  | step =>
    rw [exec_step] at h
    cases h
    split
    · next hvalid => exact passes_step hs hph hvalid hword
    · next hinvalid =>
      refine passes_refused hs hph ?_
      unfold startCommand
      rw [hword]
      exact if_neg (by rwa [maskValid_executing])
  | tick => exact passes_tick hs hph hfb hsnap hword h

end command

/-- Every command answers a next state (60_exceptions.md R160). -/
theorem exec_completes (i : Instr) (s : State) : ∃ t, exec i s = .next t := by
  cases i with
  | nop => exact ⟨_, exec_nop s⟩
  | clrstat => exact ⟨_, exec_clrstat s⟩
  | xlate x y => exact ⟨_, exec_xlate s x y⟩
  | get x y => exact ⟨_, exec_get s x y⟩
  | set x y v => exact ⟨_, exec_set s x y v⟩
  | sget x y => exact ⟨_, exec_sget s x y⟩
  | mget i j => exact ⟨_, exec_mget s i j⟩
  | snapshot => exact ⟨_, exec_snapshot s⟩
  | buildMask => exact ⟨_, exec_buildMask s⟩
  | step => exact ⟨_, exec_step s⟩
  | tick => exact ⟨_, exec_tick s⟩

/-- An accepted word, legal or not, runs to the state of its atomic transaction. -/
theorem accept_passes (hs : Idle s) (hfb : Memory.wf s.fb) (hsnap : Memory.wf s.snap)
    (w : CmdWord) :
    ∃ t, runWord w s = .next t ∧ Idle t ∧ Passes (FbOnTheWay s t) (accept w s) t := by
  cases hw : decode w with
  | error e =>
    refine ⟨_, runWord_of_illegal hw s, hs.raise .ill, ?_⟩
    exact passes_illegal hs rfl hw
  | ok i =>
    obtain ⟨t, ht⟩ := exec_completes i s
    refine ⟨t, (runWord_of_legal hw s).trans ht, exec_idle i hs ht, ?_⟩
    exact passes_command hs rfl hfb hsnap hw ht

/-- A sound state with no command executing is at a command boundary, once nothing is offered. -/
theorem State.Inv.idle (h : State.Inv s) (hflight : s.flight = none) :
    Idle { s with inputs := [] } :=
  ⟨hflight, h.busy_iff.trans (by rw [hflight]; rfl), rfl⟩

/-- Issued alone from a sound idle state, a word runs to the state the atomic transaction gives, and
FB on the way is as `FbOnTheWay` says. -/
theorem issue_passes (hinv : State.Inv s) (hidle : s.flight = none) (w : CmdWord) :
    ∃ t, step { s with inputs := [.command w] } = .next t ∧ t.flight = none ∧
      Passes (FbOnTheWay s t) { s with inputs := [.issue w] } t := by
  obtain ⟨t, hrun, ht, hpasses⟩ := accept_passes (hinv.idle hidle) hinv.fb_wf hinv.snap_wf w
  exact ⟨t, (step_command (s := { s with inputs := [.command w] }) hidle rfl).trans hrun, ht.flight,
    .cons (step_issue (s := { s with inputs := [.issue w] }) hidle rfl) .first hpasses⟩

/-- Settles O56: the run that `issue_passes` gives ends in the transaction's state. -/
theorem visitsRefineTransaction : Obligations.VisitsRefineTransaction := by
  intro s w hinv hidle
  obtain ⟨t, hstep, hflight, n, hrun, -⟩ := issue_passes hinv hidle w
  exact ⟨n, t, hstep, hflight, hrun⟩

end Sys2Proof.Machine
end

section
/-! What every command changes and leaves unchanged, part by part of the state (10_state.md R23 to
R27). Each law reads off `effect`, the state that `exec` answers. -/

namespace Sys2Proof.Machine

/-- The state a command answers, without the ports. -/
def effect (i : Instr) (s : State) : State :=
  match i with
  | .nop => s
  | .clrstat => (s.lower .ill).lower .seqErr
  | .xlate x y =>
    { s with result := if inRange x y then resultOfAddress (bitMask x) (offset x y) else 0 }
  | .get x y => { s with result := resultOfBit (cellAt s.fb x y) }
  | .set x y v => { s with fb := Memory.setCell s.fb x y v }
  | .sget x y =>
    if s.snapValid then { s with result := resultOfBit (cellAt s.snap x y) } else s.raise .seqErr
  | .mget i j =>
    if s.maskValid then
      { s with
        result := if i.toNat < s.build.R ∧ j.toNat < s.build.R
          then resultOfBit (DirtyMask.get s.mask i.toNat j.toNat) else 0 }
    else s.raise .seqErr
  | .snapshot => snapshotBody s
  | .buildMask =>
    if s.snapValid then { s with mask := maskOf s.build s.snap }.setMaskValid true
    else s.raise .seqErr
  | .step =>
    if s.maskValid then { s with fb := stepFb s.build s.mask s.snap s.fb } else s.raise .seqErr
  | .tick =>
    let m := maskOf s.build (Memory.copyBytes s.fb)
    let u := { snapshotBody s with mask := m }.setMaskValid true
    { u with fb := stepFb u.build u.mask u.snap u.fb }

/-- `exec` answers a command's effect, in every state (60_exceptions.md R160). -/
theorem exec_eq_effect (i : Instr) (s : State) : exec i s = .next (effect i s) := by
  cases i with
  | nop => exact exec_nop s
  | clrstat => exact exec_clrstat s
  | xlate x y => exact exec_xlate s x y
  | get x y => exact exec_get s x y
  | set x y v => exact exec_set s x y v
  | sget x y => exact exec_sget s x y
  | mget i j => exact exec_mget s i j
  | snapshot => exact exec_snapshot s
  | buildMask => exact exec_buildMask s
  | step => exact exec_step s
  | tick => exact exec_tick s

theorem eq_effect_of_exec {i : Instr} {s t : State} (h : exec i s = .next t) : t = effect i s :=
  Host.Outcome.next.inj (h.symm.trans (exec_eq_effect i s))

/-! ### What a command leaves unchanged -/

section frame
variable {i : Instr} (s : State)

theorem effect_fb (hset : ∀ x y v, i ≠ .set x y v) (hstep : i ≠ .step) (htick : i ≠ .tick) :
    (effect i s).fb = s.fb := by
  cases i with
  | set x y v => exact absurd rfl (hset x y v)
  | step => exact absurd rfl hstep
  | tick => exact absurd rfl htick
  | sget | mget | buildMask => dsimp only [effect]; split <;> rfl
  | _ => rfl

theorem effect_snap (hsnapshot : i ≠ .snapshot) (htick : i ≠ .tick) :
    (effect i s).snap = s.snap := by
  cases i with
  | snapshot => exact absurd rfl hsnapshot
  | tick => exact absurd rfl htick
  | sget | mget | buildMask | step => dsimp only [effect]; split <;> rfl
  | _ => rfl

theorem effect_mask (hbuildMask : i ≠ .buildMask) (htick : i ≠ .tick) :
    (effect i s).mask = s.mask := by
  cases i with
  | buildMask => exact absurd rfl hbuildMask
  | tick => exact absurd rfl htick
  | sget | mget | step => dsimp only [effect]; split <;> rfl
  | _ => rfl

theorem effect_result (hxlate : ∀ x y, i ≠ .xlate x y) (hget : ∀ x y, i ≠ .get x y)
    (hsget : ∀ x y, i ≠ .sget x y) (hmget : ∀ x y, i ≠ .mget x y) :
    (effect i s).result = s.result := by
  cases i with
  | xlate x y => exact absurd rfl (hxlate x y)
  | get x y => exact absurd rfl (hget x y)
  | sget x y => exact absurd rfl (hsget x y)
  | mget x y => exact absurd rfl (hmget x y)
  | buildMask | step => dsimp only [effect]; split <;> rfl
  | _ => rfl

variable (i)

/-- No command touches the build, the transient state, the host's acts or the free values. -/
theorem effect_outside : (effect i s).build = s.build ∧ (effect i s).flight = s.flight ∧
    (effect i s).inputs = s.inputs ∧ (effect i s).draws = s.draws := by
  cases i with
  | sget | mget | buildMask | step => dsimp only [effect]; split <;> exact ⟨rfl, rfl, rfl, rfl⟩
  | _ => exact ⟨rfl, rfl, rfl, rfl⟩

/-- A command writes no STATUS bit but SNAP_VALID, MASK_VALID, ILL and SEQERR (10_state.md R23). -/
theorem effect_status_bit {k : Nat} (hk : k < 32) (h1 : k ≠ 1) (h2 : k ≠ 2) (h8 : k ≠ 8)
    (h9 : k ≠ 9) : (effect i s).status.getLsbD k = s.status.getLsbD k := by
  have keep (st : Word32) {n : Nat} (v : Bool) (hn : k ≠ n) :
      (putBit st n v).getLsbD k = st.getLsbD k :=
    (putBit_getLsbD st n v hk).trans (if_neg hn)
  cases i with
  | clrstat => exact (keep _ false h9).trans (keep _ false h8)
  | snapshot => exact (keep _ false h2).trans (keep _ true h1)
  | tick => exact ((keep _ true h2).trans (keep _ false h2)).trans (keep _ true h1)
  | buildMask =>
    dsimp only [effect]
    split
    · exact keep _ true h2
    · exact keep _ true h9
  | sget | mget | step =>
    dsimp only [effect]
    split
    · rfl
    · exact keep _ true h9
  | nop | xlate | get | set => rfl

theorem effect_busy : (effect i s).busy = s.busy :=
  effect_status_bit i s (by decide) (by decide) (by decide) (by decide) (by decide)

end frame

/-- Settles O43: the frame laws of `effect` together. -/
theorem whoWritesWhat : Obligations.WhoWritesWhat := by
  intro i s t h
  obtain rfl := eq_effect_of_exec h
  exact ⟨effect_fb s, effect_snap s, effect_mask s, effect_result s,
    fun _ => effect_status_bit i s, effect_outside i s⟩

/-! ### The STATUS bits a command sets and clears (10_state.md R23, 60_exceptions.md R160) -/

/-- The STATUS writes of a command, without what it does to the data. -/
def statusEffect (i : Instr) (s : State) : State :=
  match i with
  | .clrstat => (s.lower .ill).lower .seqErr
  | .snapshot => s.snapshotTaken
  | .tick => s.snapshotTaken.setMaskValid true
  | .buildMask => if s.snapValid then s.setMaskValid true else s.raise .seqErr
  | .sget _ _ => if s.snapValid then s else s.raise .seqErr
  | .step | .mget _ _ => if s.maskValid then s else s.raise .seqErr
  | .nop | .xlate _ _ | .get _ _ | .set _ _ _ => s

section status
variable (i : Instr) (s : State)

theorem effect_status : (effect i s).status = (statusEffect i s).status := by
  cases i with
  | buildMask | sget | mget | step => dsimp only [effect, statusEffect]; split <;> rfl
  | _ => rfl

theorem snapValid_statusEffect :
    (statusEffect i s).snapValid = (s.snapValid || (i == .snapshot || i == .tick)) := by
  cases i with
  | buildMask | sget | mget | step => dsimp only [statusEffect]; split <;> simp
  | _ => simp [statusEffect]

theorem maskValid_statusEffect : (statusEffect i s).maskValid =
    (i == .tick || (i == .buildMask && s.snapValid) || (s.maskValid && i != .snapshot)) := by
  rw [Bool.eq_iff_iff]
  cases i with
  | buildMask | sget | mget | step => dsimp only [statusEffect]; split <;> simp [*]
  | _ => simp [statusEffect]

theorem ill_statusEffect : (statusEffect i s).ill = (s.ill && i != .clrstat) := by
  rw [Bool.eq_iff_iff]
  cases i with
  | buildMask | sget | mget | step => dsimp only [statusEffect]; split <;> simp
  | _ => simp [statusEffect]

theorem seqErr_statusEffect : (statusEffect i s).seqErr = true ↔
    (s.seqErr = true ∧ i ≠ .clrstat) ∨
      (s.snapValid = false ∧ (i = .buildMask ∨ ∃ x y, i = .sget x y)) ∨
      (s.maskValid = false ∧ (i = .step ∨ ∃ x y, i = .mget x y)) := by
  cases i with
  | buildMask | sget | mget | step => dsimp only [statusEffect]; split <;> simp [*]
  | _ => simp [statusEffect]

end status

/-- Settles O45: a flag reads STATUS alone, and STATUS is as `statusEffect` leaves it. -/
theorem statusBitsOfEveryCommand : Obligations.StatusBitsOfEveryCommand := by
  intro i s t h
  obtain rfl := eq_effect_of_exec h
  simp only [State.snapValid, State.maskValid, State.ill, State.seqErr, effect_status]
  exact ⟨snapValid_statusEffect i s, maskValid_statusEffect i s, ill_statusEffect i s,
    seqErr_statusEffect i s⟩

/-! ### RESULT (10_state.md R24) -/

/-- XLATE's word, field by field: all of them 0 outside the grid (40_translate_access.md R89). -/
theorem xlate_fields (x y : Coord) :
    (if inRange x y then resultOfAddress (bitMask x) (offset x y) else 0) =
      BitVec.ofBool (inRange x y) ++ 0#7 ++ (if inRange x y then bitMask x else 0#8) ++ 0#3 ++
        (if inRange x y then offset x y else 0#13) := by
  cases inRange x y
  · show (0 : Word32) = BitVec.ofBool false ++ 0#7 ++ 0#8 ++ 0#3 ++ 0#13
    decide
  · rfl

/-- MGET's word is a bit's, 0 outside the region (41_snapshot_mask.md R105). -/
theorem mget_bit (p : Prop) [Decidable p] (v : Bool) :
    (if p then resultOfBit v else 0) = (BitVec.ofBool (decide p && v)).setWidth 32 := by
  by_cases h : p <;> simp [h, resultOfBit]

/-- Settles O47: RESULT of `effect` for the four commands that write it, `effect_result` for the
others. -/
theorem resultRegister : Obligations.ResultRegister := by
  refine ⟨fun x y s t h => ?_, fun x y s t h => ?_, fun x y s t h => ?_, fun i j s t h => ?_,
    fun i s t hxlate hget hsget hmget h => ?_, fun w e s t hillegal h => ?_, rfl⟩
  · rw [eq_effect_of_exec h]
    exact xlate_fields x y
  · rw [eq_effect_of_exec h]
    rfl
  · rw [eq_effect_of_exec h]
    dsimp only [effect]
    split <;> rfl
  · rw [eq_effect_of_exec h]
    dsimp only [effect]
    split
    · exact mget_bit _ _
    · rfl
  · rw [eq_effect_of_exec h]
    exact effect_result s hxlate hget hsget hmget
  · rw [runWord_of_illegal hillegal] at h
    cases h
    rfl

end Sys2Proof.Machine
end

section
/-! A word taken and a reset at a command boundary (10_state.md R29, R31). -/

namespace Sys2Proof.Machine

/-- Settles O10: the step is `accept`, whose STATUS write is bit 0. -/
theorem acceptSetsBusy : Obligations.AcceptSetsBusy := fun _ _ _ hidle hoffer =>
  ⟨_, _, step_issue hidle hoffer, rfl, rfl, rfl, rfl, rfl⟩

/-- A reset never waits (70_reset_and_hazards.md R182). -/
theorem step_reset {s : State} {rest : List HostInput} (hreset : s.inputs = .reset :: rest) :
    step s = .next (resetBlock { s with inputs := rest }) := by
  unfold step takeInput
  rw [hreset]

/-- A reset at a command boundary leaves FB alone (10_state.md R31). -/
theorem fbAfterReset_idle {s : State} (h : s.flight = none) : fbAfterReset s = s.fb := by
  unfold fbAfterReset
  rw [h]

section cleared
variable {s : State} (h : s.status = 0)
include h

theorem snapValid_cleared : s.snapValid = false := by
  unfold State.snapValid
  rw [h]
  rfl

theorem maskValid_cleared : s.maskValid = false := by
  unfold State.maskValid
  rw [h]
  rfl

/-- A command refused while STATUS is 0 leaves SEQERR as its one bit (60_exceptions.md R160). -/
theorem raise_seqErr_cleared : s.raise .seqErr = { s with status := 0x200 } := by
  rw [raise_seqErr_eq, h]
  rfl

/-- With STATUS = 0 each of the four gates refuses (60_exceptions.md R160). -/
theorem gates_refuse_cleared :
    (∀ x y, exec (.sget x y) s = .next { s with status := 0x200 }) ∧
    (∀ i j, exec (.mget i j) s = .next { s with status := 0x200 }) ∧
    exec .buildMask s = .next { s with status := 0x200 } ∧
    exec .step s = .next { s with status := 0x200 } := by
  have hsnap := snapValid_cleared h
  have hmask := maskValid_cleared h
  have hrefused := raise_seqErr_cleared h
  refine ⟨fun x y => ?_, fun i j => ?_, ?_, ?_⟩
  · simp [exec_sget, hsnap, hrefused]
  · simp [exec_mget, hmask, hrefused]
  · simp [exec_buildMask, hsnap, hrefused]
  · simp [exec_step, hmask, hrefused]

end cleared

/-- Settles O49: the step is `resetBlock`, which leaves FB at a command boundary and clears
STATUS. -/
theorem resetBetweenCommands : Obligations.ResetBetweenCommands := by
  intro s rest hidle hreset
  have hfb : fbAfterReset { s with inputs := rest } = s.fb := fbAfterReset_idle hidle
  exact ⟨_, step_reset hreset, rfl, rfl, hfb, rfl, rfl, rfl, rfl, gates_refuse_cleared rfl⟩

end Sys2Proof.Machine
end

section
/-! Every step keeps the invariant (Safety.lean). `Stored` is its part that does not speak of the
executing command: every operation on FB, SNAP, MASK and STATUS keeps it. A micro-step ends in one
of two ways, `complete` or `continueWith` a sound transient state, and each turns `Stored` into
`State.Inv`. -/

namespace Sys2Proof.Machine

/-- The part of `State.Inv` about the arrays and the STATUS bits a command's effect is made of. -/
structure Stored (s : State) : Prop where
  fb_wf : Memory.wf s.fb
  snap_wf : Memory.wf s.snap
  mask_inside : maskInside s.build s.mask
  reserved_zero : s.status &&& reservedStatus = 0
  mask_needs_snap : s.maskValid = true → s.snapValid = true

variable {s t : State} {f : InFlight}

theorem State.Inv.stored (h : State.Inv s) : Stored s :=
  ⟨h.fb_wf, h.snap_wf, h.mask_inside, h.reserved_zero, h.mask_needs_snap⟩

/-! ### The operations keep the stored part -/

section stored
variable (h : Stored s)
include h

/-- RESULT, the transient state, the host's acts and the free values have no part in it. -/
theorem Stored.withData {fb snap : Memory} {mask : DirtyMask} (hfb : Memory.wf fb)
    (hsnap : Memory.wf snap) (hmask : maskInside s.build mask) (result : Word32)
    (flight : Option InFlight) (inputs : List HostInput) (draws : Nat) :
    Stored ⟨s.build, fb, snap, mask, s.status, result, flight, inputs, draws⟩ :=
  ⟨hfb, hsnap, hmask, h.reserved_zero, h.mask_needs_snap⟩

theorem Stored.withResult (result : Word32) : Stored { s with result := result } :=
  h.withData h.fb_wf h.snap_wf h.mask_inside ..
theorem Stored.withFlight (flight : Option InFlight) : Stored { s with flight := flight } :=
  h.withData h.fb_wf h.snap_wf h.mask_inside ..
theorem Stored.withFb {fb : Memory} (hfb : Memory.wf fb) : Stored { s with fb := fb } :=
  h.withData hfb h.snap_wf h.mask_inside ..
theorem Stored.withSnap {snap : Memory} (hsnap : Memory.wf snap) : Stored { s with snap := snap } :=
  h.withData h.fb_wf hsnap h.mask_inside ..
theorem Stored.withMask {mask : DirtyMask} (hmask : maskInside s.build mask) :
    Stored { s with mask := mask } :=
  h.withData h.fb_wf h.snap_wf hmask ..

theorem Stored.setBusy (v : Bool) : Stored (s.setBusy v) :=
  ⟨h.fb_wf, h.snap_wf, h.mask_inside, reserved_putBit v rfl h.reserved_zero,
    by simpa using h.mask_needs_snap⟩

theorem Stored.raise (c : Cause) : Stored (s.raise c) :=
  ⟨h.fb_wf, h.snap_wf, h.mask_inside, reserved_putBit true (by cases c <;> rfl) h.reserved_zero,
    by simpa using h.mask_needs_snap⟩

theorem Stored.lower (c : Cause) : Stored (s.lower c) :=
  ⟨h.fb_wf, h.snap_wf, h.mask_inside, reserved_putBit false (by cases c <;> rfl) h.reserved_zero,
    by simpa using h.mask_needs_snap⟩

/-- MASK_VALID is set only while SNAP_VALID is (41_snapshot_mask.md R103). -/
theorem Stored.setMaskValid (hsnap : s.snapValid = true) : Stored (s.setMaskValid true) :=
  ⟨h.fb_wf, h.snap_wf, h.mask_inside, reserved_putBit true rfl h.reserved_zero,
    fun _ => by simpa using hsnap⟩

theorem Stored.snapshotTaken : Stored s.snapshotTaken :=
  ⟨h.fb_wf, h.snap_wf, h.mask_inside,
    reserved_putBit false rfl (reserved_putBit true rfl h.reserved_zero), fun _ => by simp⟩

theorem Stored.snapshotBody : Stored (snapshotBody s) :=
  (h.withSnap (by rw [Memory.copyBytes_eq h.fb_wf]; exact h.fb_wf)).snapshotTaken

/-- Every command keeps the stored part. -/
theorem Stored.effect (i : Instr) : Stored (effect i s) := by
  cases i with
  | nop => exact h
  | clrstat => exact (h.lower .ill).lower .seqErr
  | xlate x y => exact h.withResult _
  | get x y => exact h.withResult _
  | set x y v => exact h.withFb (setCell_wf x y v h.fb_wf)
  | snapshot => exact h.snapshotBody
  | sget | mget =>
    dsimp only [Machine.effect]
    split
    · exact h.withResult _
    · exact h.raise .seqErr
  | buildMask =>
    dsimp only [Machine.effect]
    split
    · next hvalid => exact (h.withMask (maskInside_maskOf _ _)).setMaskValid hvalid
    · exact h.raise .seqErr
  | step =>
    dsimp only [Machine.effect]
    split
    · exact h.withFb (stepFb_wf _ _ _ h.fb_wf)
    · exact h.raise .seqErr
  | tick =>
    have hmasked : Stored { Machine.snapshotBody s with mask := _ } :=
      h.snapshotBody.withMask (maskInside_maskOf s.build (Memory.copyBytes s.fb))
    exact (hmasked.setMaskValid (snapValid_snapshotBody s)).withFb (stepFb_wf _ _ _ h.fb_wf)

/-! ### The ends of a micro-step -/

theorem Stored.inv_of_idle (hbusy : s.busy = false) (hflight : s.flight = none) : State.Inv s :=
  ⟨h.fb_wf, h.snap_wf, h.mask_inside, h.reserved_zero, h.mask_needs_snap,
    by rw [hbusy, hflight]; rfl, fun f hf => by rw [hflight] at hf; cases hf⟩

theorem Stored.inv_complete : State.Inv (complete s) :=
  Stored.inv_of_idle ((h.setBusy false).withFlight none) (busy_complete s) rfl

theorem Stored.inv_continueWith (hbusy : s.busy = true) (hsound : InFlight.Sound f s) :
    State.Inv (continueWith s f) where
  fb_wf := h.fb_wf
  snap_wf := h.snap_wf
  mask_inside := h.mask_inside
  reserved_zero := h.reserved_zero
  mask_needs_snap := h.mask_needs_snap
  busy_iff := hbusy
  flight_sound g hg := by
    cases hg
    exact { hsound with }

end stored

/-- An outcome that is a next state comes from a computation that did not stop. -/
theorem ok_of_outcomeOf {r : Except Fault State} (hr : outcomeOf r = .next t) : r = .ok t := by
  cases r with
  | ok u => cases hr; rfl
  | error e => cases hr

/-! ### What the phase says of the command (Safety.lean, `InFlight.phaseFits`) -/

theorem phaseFits_copy (hp : f.phase = .copy) :
    f.phaseFits s ↔ f.runs .snapshot ∨ f.runs .tick := by
  unfold InFlight.phaseFits
  rw [hp]

theorem phaseFits_flag (hp : f.phase = .flag) :
    f.phaseFits s ↔ (f.runs .buildMask ∨ f.runs .tick) ∧ s.snapValid = true := by
  unfold InFlight.phaseFits
  rw [hp]

theorem phaseFits_eval (hp : f.phase = .eval) :
    f.phaseFits s ↔ (f.runs .step ∨ f.runs .tick) ∧ s.maskValid = true := by
  unfold InFlight.phaseFits
  rw [hp]

theorem phaseFits_write (hp : f.phase = .readByte ∨ f.phase = .writeBack) :
    f.phaseFits s ↔ (∃ x y v, f.runs (.set x y v) ∧ inRange x y = true) ∨
      ((f.runs .step ∨ f.runs .tick) ∧ s.maskValid = true) := by
  unfold InFlight.phaseFits
  rcases hp with hp | hp <;> rw [hp]

/-! ### Where the bodies start and end -/

/-- The region has a first cell (00_scope.md R9). -/
theorem side_pos (b : Build) : 0 < b.R :=
  Nat.lt_of_lt_of_le Nat.zero_lt_two (build_legal b).2.1

section body
variable (h : Stored s) (hbusy : s.busy = true) (hsound : InFlight.Sound f s)
include h hbusy hsound

theorem inv_startFlagging (hrun : f.runs .buildMask ∨ f.runs .tick) (hsnap : s.snapValid = true) :
    State.Inv (startFlagging f s) :=
  (h.withMask (maskInside_clear _)).inv_continueWith hbusy
    { hsound with
      cursor_i := side_pos _, cursor_j := side_pos _, phase_fits := ⟨hrun, hsnap⟩ }

theorem inv_startStepping (hrun : f.runs .step ∨ f.runs .tick) (hmask : s.maskValid = true) :
    State.Inv (startStepping f s) :=
  h.inv_continueWith hbusy
    { hsound with
      cursor_i := side_pos _, cursor_j := side_pos _, phase_fits := ⟨hrun, hmask⟩ }

theorem inv_afterStepping (hrun : f.runs .step ∨ f.runs .tick) (hmask : s.maskValid = true) :
    State.Inv (afterStepping f s) := by
  unfold afterStepping
  split
  · next hnext =>
    obtain ⟨hi, hj⟩ := nextCell_lt hsound.cursor_i hsound.cursor_j hnext
    exact h.inv_continueWith hbusy
      { hsound with cursor_i := hi, cursor_j := hj, phase_fits := ⟨hrun, hmask⟩ }
  · exact h.inv_complete

theorem inv_afterFlagging (hp : f.phase = .flag) : State.Inv (afterFlagging f s) := by
  obtain ⟨-, hsnap⟩ := (phaseFits_flag hp).1 hsound.phase_fits
  unfold afterFlagging
  split
  · next hnext =>
    obtain ⟨hi, hj⟩ := nextCell_lt hsound.cursor_i hsound.cursor_j hnext
    exact h.inv_continueWith hbusy
      { hsound with cursor_i := hi, cursor_j := hj, phase_fits := hsound.phase_fits }
  · have hset := h.setMaskValid hsnap
    dsimp only
    split
    · next htick =>
      have hrun := (isTick_iff f).1 htick
      have hsound' : InFlight.Sound f (s.setMaskValid true) :=
        { hsound with phase_fits := (phaseFits_flag hp).2 ⟨.inr hrun, by simpa using hsnap⟩ }
      exact inv_startStepping hset (by simpa using hbusy) hsound' (.inr hrun)
        (maskValid_setMaskValid s true)
    · exact hset.inv_complete

theorem inv_afterCopying (hp : f.phase = .copy) : State.Inv (afterCopying f s) := by
  unfold afterCopying
  split
  · next htick =>
    have hrun := (isTick_iff f).1 htick
    have hsound' : InFlight.Sound f s.snapshotTaken :=
      { hsound with phase_fits := (phaseFits_copy hp).2 (.inr hrun) }
    exact inv_startFlagging h.snapshotTaken (by simpa using hbusy) hsound' (.inr hrun)
      (snapValid_snapshotTaken s)
  · exact h.snapshotTaken.inv_complete

theorem inv_afterWriting (hp : f.phase = .writeBack) : State.Inv (afterWriting f s) := by
  unfold afterWriting
  split
  · exact h.inv_complete
  · next hset =>
    rcases (phaseFits_write (.inr hp)).1 hsound.phase_fits with ⟨x, y, v, hrun, -⟩ | ⟨hrun, hmask⟩
    · exact absurd hrun (hset x y v)
    · exact inv_afterStepping h hbusy hsound hrun hmask

/-! ### The micro-steps -/

theorem startCommand_inv (hstart : startCommand f s = .next t) : State.Inv t := by
  have hzero : (0 : PortOffset).toNat < Config.fbBytes := by decide
  unfold startCommand at hstart
  cases hw : decode f.word with
  | error e =>
    rw [hw] at hstart
    cases hstart
    exact (h.raise .ill).inv_complete
  | ok i =>
    rw [hw] at hstart
    cases i <;> simp only at hstart
    case set x y v =>
      split at hstart <;> cases hstart
      · next hr =>
        exact h.inv_continueWith hbusy { hsound with phase_fits := .inl ⟨x, y, v, hw, hr⟩ }
      · exact h.inv_complete
    case snapshot =>
      cases hstart
      exact h.inv_continueWith hbusy
        { hsound with counter_lt := hzero, phase_fits := .inl hw }
    case tick =>
      cases hstart
      exact h.inv_continueWith hbusy
        { hsound with counter_lt := hzero, phase_fits := .inr hw }
    case buildMask =>
      split at hstart <;> cases hstart
      · next hsnap => exact inv_startFlagging h hbusy hsound (.inl hw) hsnap
      · exact (h.raise .seqErr).inv_complete
    case step =>
      split at hstart <;> cases hstart
      · next hmask => exact inv_startStepping h hbusy hsound (.inl hw) hmask
      · exact (h.raise .seqErr).inv_complete
    all_goals
      rw [exec_eq_effect] at hstart
      cases hstart
      exact (h.effect _).inv_complete

theorem copyStep_inv (hp : f.phase = .copy) (hstep : copyStep f s = .ok t) : State.Inv t := by
  rw [copyStep_eq f s hsound.counter_lt] at hstep
  cases hstep
  have hcopied : Stored (withSnapByte s f.counter.toNat) :=
    h.withSnap (Memory.write_wf _ h.snap_wf hsound.counter_lt)
  split
  · next hlt =>
    refine hcopied.inv_continueWith hbusy
      { hsound with counter_lt := ?_, phase_fits := hsound.phase_fits }
    rw [BitVec.toNat_add]
    exact (Nat.mod_le _ _).trans_lt hlt
  · exact inv_afterCopying hcopied hbusy { hsound with phase_fits := hsound.phase_fits } hp

theorem flagStep_inv (hp : f.phase = .flag) (hstep : flagStep f s = .ok t) : State.Inv t := by
  rw [flagStep_eq] at hstep
  cases hstep
  refine inv_afterFlagging (h.withMask ?_) hbusy { hsound with phase_fits := hsound.phase_fits } hp
  split
  · exact maskInside_flagAround h.mask_inside _ _
  · exact h.mask_inside

theorem evalStep_inv (hp : f.phase = .eval) (hstep : evalStep f s = .ok t) : State.Inv t := by
  obtain ⟨hrun, hmask⟩ := (phaseFits_eval hp).1 hsound.phase_fits
  rw [evalStep_eq] at hstep
  cases hstep
  split
  · refine h.inv_continueWith hbusy
      { hsound with count_le := ?_, phase_fits := .inr ⟨hrun, hmask⟩ }
    exact (count_toNat ..).le.trans (liveNeighbours_le ..)
  · exact inv_afterStepping h hbusy hsound hrun hmask

theorem readStep_inv (hp : f.phase = .readByte) (hstep : readStep f s = .ok t) : State.Inv t := by
  rw [readStep_eq f s (writeOffset_lt hsound (.inl hp))] at hstep
  cases hstep
  exact h.inv_continueWith hbusy
    { hsound with phase_fits := (phaseFits_write (.inl hp)).1 hsound.phase_fits }

theorem writeStep_inv (hp : f.phase = .writeBack) (hstep : writeStep f s = .ok t) :
    State.Inv t := by
  have hlt := writeOffset_lt hsound (.inr hp)
  rw [writeStep_eq f s hlt] at hstep
  cases hstep
  exact inv_afterWriting (h.withFb (Memory.write_wf _ h.fb_wf hlt)) hbusy
    { hsound with phase_fits := hsound.phase_fits } hp

theorem microStep_inv (hstep : microStep f s = .next t) : State.Inv t := by
  unfold microStep at hstep
  split at hstep
  · exact startCommand_inv h hbusy hsound hstep
  · next hp => exact copyStep_inv h hbusy hsound hp (ok_of_outcomeOf hstep)
  · next hp => exact flagStep_inv h hbusy hsound hp (ok_of_outcomeOf hstep)
  · next hp => exact evalStep_inv h hbusy hsound hp (ok_of_outcomeOf hstep)
  · next hp => exact readStep_inv h hbusy hsound hp (ok_of_outcomeOf hstep)
  · next hp => exact writeStep_inv h hbusy hsound hp (ok_of_outcomeOf hstep)

end body

/-! ### The host's acts -/

/-- The registers at their reset values over sound arrays make a sound state (10_state.md R31). -/
theorem inv_of_cleared (hfb : Memory.wf s.fb) (hsnap : Memory.wf s.snap)
    (hmask : maskInside s.build s.mask) (hstatus : s.status = 0) (hflight : s.flight = none) :
    State.Inv s := by
  have hstored : Stored s :=
    ⟨hfb, hsnap, hmask, by rw [hstatus]; rfl,
      fun hvalid => by rw [maskValid_cleared hstatus] at hvalid; cases hvalid⟩
  exact hstored.inv_of_idle (by unfold State.busy; rw [hstatus]; rfl) hflight

theorem inv_clearRegisters (hfb : Memory.wf s.fb) : State.Inv (clearRegisters s) :=
  inv_of_cleared hfb (Memory.tabulate_wf _) (maskInside_unspecified s.draws s.build) rfl rfl

theorem fbAfterReset_wf (hfb : Memory.wf s.fb) : Memory.wf (fbAfterReset s) := by
  unfold fbAfterReset
  split
  · exact hfb
  · exact Memory.tabulate_wf _

section act
variable (h : State.Inv s)
include h

theorem State.Inv.withInputs (inputs : List HostInput) : State.Inv { s with inputs := inputs } :=
  { h with flight_sound := fun f hf => { h.flight_sound f hf with } }

theorem advance_inv (hstep : advance s = .next t) : State.Inv t := by
  cases hf : s.flight with
  | none =>
    rw [advance_idle hf] at hstep
    cases hstep
    exact h
  | some f =>
    rw [advance_busy hf] at hstep
    exact microStep_inv h.stored (by rw [h.busy_iff, hf]; rfl) (h.flight_sound f hf) hstep

theorem runWord_inv (hidle : s.flight = none) {w : CmdWord} (hrun : runWord w s = .next t) :
    State.Inv t := by
  have hbusy : s.busy = false := by rw [h.busy_iff, hidle]; rfl
  cases hw : decode w with
  | error e =>
    rw [runWord_of_illegal hw] at hrun
    cases hrun
    exact (h.stored.raise .ill).inv_of_idle (by simpa using hbusy) hidle
  | ok i =>
    rw [runWord_of_legal hw] at hrun
    rw [eq_effect_of_exec hrun]
    obtain ⟨-, hflight, -, -⟩ := effect_outside i s
    exact (h.stored.effect i).inv_of_idle ((effect_busy i s).trans hbusy) (hflight.trans hidle)

theorem accept_inv (w : CmdWord) : State.Inv (accept w s) := by
  have hzero : (0 : PortOffset).toNat < Config.fbBytes := by decide
  exact (h.stored.setBusy true).inv_continueWith (busy_setBusy s true)
    ⟨hzero, side_pos _, side_pos _, Nat.zero_le 8, h.fb_wf, trivial⟩

end act

/-- Settles O52: the empty arrays are sound, the registers are at their reset values. -/
theorem resetMeetsInvariant : Obligations.ResetMeetsInvariant :=
  inv_of_cleared Memory.nil_wf Memory.nil_wf (maskInside_clear Build.standard) rfl rfl

/-- Settles O53, by the host's next act (`step_cases`). -/
theorem stepKeepsInvariant : Obligations.StepKeepsInvariant := by
  intro s t h hstep
  rcases step_cases s with ⟨-, heq⟩ | ⟨rest, -, heq⟩ | ⟨rest, -, heq⟩ | ⟨rest, -, heq⟩ |
    ⟨w, rest, -, hidle, heq⟩ | ⟨w, rest, -, hidle, heq⟩ | ⟨w, rest, -, -, heq⟩ <;>
    rw [heq] at hstep
  · exact advance_inv h hstep
  · exact advance_inv (h.withInputs rest) hstep
  · cases hstep
    exact inv_clearRegisters (fbAfterReset_wf (h.withInputs rest).fb_wf)
  · cases hstep
    exact inv_clearRegisters (Memory.tabulate_wf _)
  · exact runWord_inv (h.withInputs rest) hidle hstep
  · cases hstep
    exact accept_inv (h.withInputs rest) w
  · exact advance_inv h hstep

end Sys2Proof.Machine
end

section
/-! Reads and rewrites change nothing (20_memory.md R46). -/

namespace Sys2Proof.Machine

/-- Writing the value a cell holds is the identity, as cells determine the canonical form. -/
theorem setCell_cellAt {m : Memory} (hm : Memory.wf m) (x y : Coord) :
    Memory.setCell m x y (cellAt m x y) = m := by
  refine memory_ext_cells (setCell_wf x y _ hm) hm fun x' y' _ => ?_
  rw [cellAt_setCell hm.1]
  split
  · next hcell =>
    obtain ⟨-, rfl, rfl⟩ := hcell
    rfl
  · rfl

/-- Settles O21: SET by `setCell_cellAt`; GET and SGET read an array they do not write. -/
theorem rewritingABitChangesNothing : Obligations.RewritingABitChangesNothing := by
  intro x y s hfb
  refine ⟨?_, ⟨_, exec_get s x y, rfl, exec_get _ x y⟩, fun hvalid => ?_⟩
  · rw [exec_set, setCell_cellAt hfb]
  · have hread : ∀ u : State, u.snapValid = true →
        exec (.sget x y) u = .next { u with result := resultOfBit (cellAt u.snap x y) } :=
      fun u hu => by rw [exec_sget, if_pos hu]
    exact ⟨_, hread s hvalid, rfl, hread _ hvalid⟩

end Sys2Proof.Machine
end

section
/-! A command offered while one executes waits on the handshake (20_memory.md R50): no micro-step
reads or writes the host's acts, so it commutes with replacing them. -/

namespace Sys2Proof.Machine

/-- The state with other acts of the host still to be taken. -/
def State.withInputs (s : State) (l : List HostInput) : State := { s with inputs := l }

/-- The outcome with other acts of the host still to be taken. -/
def outcomeWithInputs (l : List HostInput) :
    Host.Outcome State Fault Refusal → Host.Outcome State Fault Refusal
  | .next t => .next (t.withInputs l)
  | .fault e => .fault e
  | .refused r => .refused r

variable (f : InFlight) (s : State) (l : List HostInput)

theorem withInputs_ite (c : Prop) [Decidable c] (t u : State) :
    (if c then t else u).withInputs l = if c then t.withInputs l else u.withInputs l :=
  apply_ite (State.withInputs · l) c t u

theorem effect_withInputs (i : Instr) :
    effect i (s.withInputs l) = (effect i s).withInputs l := by
  cases i with
  | sget | mget | buildMask | step =>
    dsimp only [effect]
    rw [withInputs_ite]
    rfl
  | _ => rfl

theorem afterStepping_withInputs :
    afterStepping f (s.withInputs l) = (afterStepping f s).withInputs l := by
  unfold afterStepping
  show (match nextCell s.build f.i f.j with | some (i, j) => _ | none => _) = _
  cases nextCell s.build f.i f.j <;> rfl

theorem afterFlagging_withInputs :
    afterFlagging f (s.withInputs l) = (afterFlagging f s).withInputs l := by
  unfold afterFlagging
  show (match nextCell s.build f.i f.j with | some (i, j) => _ | none => _) = _
  cases nextCell s.build f.i f.j with
  | some c => rfl
  | none =>
    dsimp only
    rw [withInputs_ite]
    rfl

theorem startCommand_withInputs :
    startCommand f (s.withInputs l) = outcomeWithInputs l (startCommand f s) := by
  unfold startCommand
  cases decode f.word with
  | error e => rfl
  | ok i =>
    cases i with
    | set | buildMask | step =>
      dsimp only
      rw [apply_ite (outcomeWithInputs l)]
      rfl
    | snapshot | tick => rfl
    | _ =>
      dsimp only
      rw [exec_eq_effect, exec_eq_effect, effect_withInputs]
      rfl

theorem afterCopying_withInputs :
    afterCopying f (s.withInputs l) = (afterCopying f s).withInputs l := by
  unfold afterCopying
  rw [withInputs_ite]
  rfl

theorem afterWriting_withInputs :
    afterWriting f (s.withInputs l) = (afterWriting f s).withInputs l := by
  unfold afterWriting
  split
  · rfl
  · exact afterStepping_withInputs f s l

theorem copyStep_withInputs :
    outcomeOf (copyStep f (s.withInputs l)) = outcomeWithInputs l (outcomeOf (copyStep f s)) := by
  by_cases h : f.counter.toNat < Config.fbBytes
  · rw [copyStep_eq f _ h, copyStep_eq f s h]
    show Host.Outcome.next _ = .next (State.withInputs _ l)
    rw [withInputs_ite, ← afterCopying_withInputs]
    rfl
  · unfold copyStep portRead
    rw [if_neg h, if_neg h]
    rfl

theorem flagStep_withInputs :
    outcomeOf (flagStep f (s.withInputs l)) = outcomeWithInputs l (outcomeOf (flagStep f s)) := by
  rw [flagStep_eq, flagStep_eq]
  show Host.Outcome.next _ = .next (State.withInputs _ l)
  rw [← afterFlagging_withInputs]
  rfl

theorem evalStep_withInputs :
    outcomeOf (evalStep f (s.withInputs l)) = outcomeWithInputs l (outcomeOf (evalStep f s)) := by
  rw [evalStep_eq, evalStep_eq]
  show Host.Outcome.next _ = .next (State.withInputs _ l)
  rw [withInputs_ite, ← afterStepping_withInputs]
  rfl

theorem readStep_withInputs :
    outcomeOf (readStep f (s.withInputs l)) = outcomeWithInputs l (outcomeOf (readStep f s)) := by
  unfold readStep
  show outcomeOf (portRead s.fb (writeOffset f s.build) >>= _) = _
  cases portRead s.fb (writeOffset f s.build) <;> rfl

theorem writeStep_withInputs :
    outcomeOf (writeStep f (s.withInputs l)) = outcomeWithInputs l (outcomeOf (writeStep f s)) := by
  by_cases h : (writeOffset f s.build).toNat < Config.fbBytes
  · rw [writeStep_eq f s h, writeStep_eq f (s.withInputs l) h]
    show Host.Outcome.next _ = .next (State.withInputs _ l)
    rw [← afterWriting_withInputs]
    rfl
  · unfold writeStep portWrite
    rw [if_neg h, if_neg (by exact h)]
    rfl

/-- A micro-step does not look at the host's acts and keeps them. -/
theorem microStep_withInputs :
    microStep f (s.withInputs l) = outcomeWithInputs l (microStep f s) := by
  unfold microStep
  cases f.phase with
  | start => exact startCommand_withInputs f s l
  | copy => exact copyStep_withInputs f s l
  | flag => exact flagStep_withInputs f s l
  | eval => exact evalStep_withInputs f s l
  | readByte => exact readStep_withInputs f s l
  | writeBack => exact writeStep_withInputs f s l

theorem eq_withInputs_of_next {l : List HostInput} {o : Host.Outcome State Fault Refusal}
    {t : State} (h : outcomeWithInputs l o = .next t) : ∃ u, o = .next u ∧ t = u.withInputs l := by
  cases o with
  | next u => exact ⟨u, rfl, (Host.Outcome.next.inj h).symm⟩
  | fault e => cases h
  | refused r => cases h

/-- A busy block goes on with its command, whatever word is offered (20_memory.md R50). -/
theorem step_offered {s : State} {f : InFlight} {w : CmdWord} {rest : List HostInput}
    (hf : s.flight = some f)
    (hoffer : s.inputs = .command w :: rest ∨ s.inputs = .issue w :: rest) :
    step s = microStep f s := by
  unfold step takeInput cmdReady
  rcases hoffer with hoffer | hoffer <;> rw [hoffer, hf] <;> exact advance_busy hf

/-- Settles O9: the step is a micro-step, which commutes with what the host still offers. -/
theorem busyBlockHoldsOffer : Obligations.BusyBlockHoldsOffer := by
  intro s t f w rest hf hoffer hstep
  have hmicro : outcomeWithInputs s.inputs (microStep f (s.withInputs [])) = .next t := by
    rw [← microStep_withInputs, ← hstep, step_offered hf hoffer]
    rfl
  obtain ⟨u, hu, rfl⟩ := eq_withInputs_of_next hmicro
  exact ⟨rfl, u, (step_busy (s := s.withInputs []) rfl hf).trans hu, rfl⟩

end Sys2Proof.Machine
end

section
/-! FB and the display-memory port (20_memory.md R42 to R49): a sound state's micro-step answers, and FB
changes only as the port's write strobe says. -/

namespace Sys2Proof.Machine

variable {s t : State} {f : InFlight}

/-! ### What follows a visit leaves FB alone -/

@[simp] theorem afterStepping_fb (f : InFlight) (s : State) : (afterStepping f s).fb = s.fb := by
  unfold afterStepping
  split <;> rfl

@[simp] theorem afterFlagging_fb (f : InFlight) (s : State) : (afterFlagging f s).fb = s.fb := by
  unfold afterFlagging
  split
  · rfl
  · dsimp only
    split <;> rfl

@[simp] theorem afterCopying_fb (f : InFlight) (s : State) : (afterCopying f s).fb = s.fb := by
  unfold afterCopying
  split <;> rfl

@[simp] theorem afterWriting_fb (f : InFlight) (s : State) : (afterWriting f s).fb = s.fb := by
  unfold afterWriting
  split
  · rfl
  · exact afterStepping_fb f s

/-! ### FB after a micro-step -/

/-- The first micro-step answers and does not write FB (60_exceptions.md R160). -/
theorem startCommand_fb (f : InFlight) (s : State) :
    ∃ t, startCommand f s = .next t ∧ t.fb = s.fb := by
  unfold startCommand
  cases decode f.word with
  | error e => exact ⟨_, rfl, rfl⟩
  | ok i =>
    cases i with
    | set | buildMask | step =>
      dsimp only
      split <;> exact ⟨_, rfl, rfl⟩
    | snapshot | tick => exact ⟨_, rfl, rfl⟩
    | _ =>
      dsimp only
      rw [exec_eq_effect]
      exact ⟨_, rfl, effect_fb s nofun nofun nofun⟩

/-- A sound command's micro-step answers; only a write-back writes FB (20_memory.md R44, R49). -/
theorem microStep_fb (hsound : InFlight.Sound f s) :
    ∃ t, microStep f s = .next t ∧ t.fb = if f.phase = .writeBack
      then Memory.write s.fb (writeOffset f s.build).toNat (writeByte f s.build) else s.fb := by
  unfold microStep
  cases hp : f.phase with
  | start => exact startCommand_fb f s
  | copy =>
    dsimp only
    rw [copyStep_eq f s hsound.counter_lt]
    refine ⟨_, rfl, ?_⟩
    split
    · rfl
    · exact afterCopying_fb f _
  | flag =>
    dsimp only
    rw [flagStep_eq]
    exact ⟨_, rfl, afterFlagging_fb f _⟩
  | eval =>
    dsimp only
    rw [evalStep_eq]
    refine ⟨_, rfl, ?_⟩
    split
    · rfl
    · exact afterStepping_fb f s
  | readByte =>
    dsimp only
    rw [readStep_eq f s (writeOffset_lt hsound (.inl hp))]
    exact ⟨_, rfl, rfl⟩
  | writeBack =>
    dsimp only
    rw [writeStep_eq f s (writeOffset_lt hsound (.inr hp))]
    exact ⟨_, rfl, afterWriting_fb f _⟩

/-! ### No step stops -/

theorem advance_completes (h : State.Inv s) : ∃ t, advance s = .next t := by
  cases hf : s.flight with
  | none => exact ⟨s, advance_idle hf⟩
  | some f =>
    obtain ⟨t, ht, -⟩ := microStep_fb (h.flight_sound f hf)
    exact ⟨t, (advance_busy hf).trans ht⟩

theorem runWord_completes (w : CmdWord) (s : State) : ∃ t, runWord w s = .next t := by
  cases hw : decode w with
  | error e => exact ⟨_, runWord_of_illegal hw s⟩
  | ok i =>
    rw [runWord_of_legal hw]
    exact exec_completes i s

/-- Settles O54, by the host's next act (`step_cases`). -/
theorem soundStatesNeverStop : Obligations.SoundStatesNeverStop := by
  intro s h
  rcases step_cases s with ⟨-, heq⟩ | ⟨rest, -, heq⟩ | ⟨rest, -, heq⟩ | ⟨rest, -, heq⟩ |
    ⟨w, rest, -, -, heq⟩ | ⟨w, rest, -, -, heq⟩ | ⟨w, rest, -, -, heq⟩ <;>
    rw [heq]
  · exact advance_completes h
  · exact advance_completes (h.withInputs rest)
  · exact ⟨_, rfl⟩
  · exact ⟨_, rfl⟩
  · exact runWord_completes w _
  · exact ⟨_, rfl⟩
  · exact advance_completes h

/-! ### The port -/

theorem portSignals_writeBack (hf : s.flight = some f) (hp : f.phase = .writeBack) :
    portSignals s = portWrites (writeOffset f s.build) (writeByte f s.build) := by
  unfold portSignals
  rw [hf]
  dsimp only
  rw [hp]

/-- But in a write-back the port is idle or reads, and it reads at an offset that exists (20_memory.md
R42, R49). -/
theorem portSignals_reads (h : State.Inv s)
    (hphase : ∀ f, s.flight = some f → f.phase ≠ .writeBack) : (portSignals s).we = false ∧
      ((portSignals s).re = true → (portSignals s).off.toNat < Config.fbBytes) := by
  unfold portSignals
  cases hf : s.flight with
  | none => exact ⟨rfl, nofun⟩
  | some f =>
    have hsound := h.flight_sound f hf
    dsimp only
    cases hp : f.phase with
    | start =>
      dsimp only
      split
      · split
        · next hr => exact ⟨rfl, fun _ => offset_lt hr⟩
        · exact ⟨rfl, nofun⟩
      · exact ⟨rfl, nofun⟩
    | copy => exact ⟨rfl, fun _ => hsound.counter_lt⟩
    | flag | eval => exact ⟨rfl, nofun⟩
    | readByte => exact ⟨rfl, fun _ => writeOffset_lt hsound (.inl hp)⟩
    | writeBack => exact absurd hp (hphase f hf)

/-- A step in which the block takes nothing from the host answers, and writes FB in a write-back
only. -/
theorem advance_fb_unchanged (h : State.Inv s)
    (hphase : ∀ f, s.flight = some f → f.phase ≠ .writeBack) :
    ∃ t, advance s = .next t ∧ t.fb = s.fb := by
  cases hf : s.flight with
  | none => exact ⟨s, advance_idle hf, rfl⟩
  | some f =>
    obtain ⟨t, ht, hfb⟩ := microStep_fb (h.flight_sound f hf)
    exact ⟨t, (advance_busy hf).trans ht, hfb.trans (if_neg (hphase f hf))⟩

/-- Settles O55: in a write-back the port writes and FB changes as it says; else it is idle or reads,
and FB stays. -/
theorem fbChangesOnlyThroughPort : Obligations.FbChangesOnlyThroughPort := by
  intro s h
  by_cases hwrite : ∃ f, s.flight = some f ∧ f.phase = .writeBack
  · obtain ⟨f, hf, hp⟩ := hwrite
    have hsound := h.flight_sound f hf
    obtain ⟨t, ht, hfb⟩ := microStep_fb hsound
    rw [portSignals_writeBack hf hp]
    exact ⟨fun _ => writeOffset_lt hsound (.inr hp), nofun, t, (advance_busy hf).trans ht,
      hfb.trans (if_pos hp)⟩
  · have hphase : ∀ f, s.flight = some f → f.phase ≠ .writeBack :=
      fun f hf hp => hwrite ⟨f, hf, hp⟩
    obtain ⟨hwe, hoff⟩ := portSignals_reads h hphase
    obtain ⟨t, ht, hfb⟩ := advance_fb_unchanged h hphase
    rw [hwe]
    exact ⟨fun hre => hoff (hre.resolve_right nofun), nofun, t, ht, hfb⟩

end Sys2Proof.Machine
end

section
/-! The display during a command (20_memory.md R45, R47): every state of the run has an FB that is
`FbOnTheWay`, and such an FB holds the old or the new value in every bit. -/

namespace Sys2Proof.Machine

variable {P : Memory → Prop} {s t u : State} {w : CmdWord}

/-- Every bit of `m` is that of `before` or that of `after`, at the offsets that exist. -/
def OldOrNew (before after m : Memory) : Prop :=
  ∀ o < Config.fbBytes, ∀ k < 8, (Memory.read m o).getLsbD k = (Memory.read before o).getLsbD k ∨
    (Memory.read m o).getLsbD k = (Memory.read after o).getLsbD k

/-- It is enough to look at the cells: each bit of each byte is one (40_translate_access.md R90). -/
theorem oldOrNew_of_cells {before after m : Memory} (h : ∀ x y, inRange x y = true →
    cellAt m x y = cellAt before x y ∨ cellAt m x y = cellAt after x y) :
    OldOrNew before after m := by
  intro o ho k hk
  have hoff : (BitVec.ofNat 13 o).toNat = o := Nat.mod_eq_of_lt (ho.trans (by decide))
  have hbit : (BitVec.ofNat 3 k).toNat = k := Nat.mod_eq_of_lt hk
  obtain ⟨hr, ho', hb⟩ := scan_spec (BitVec.ofNat 13 o) (BitVec.ofNat 3 k) (hoff.symm ▸ ho)
  have hcell := h _ _ hr
  unfold cellAt at hcell
  rwa [hr, ho', hb, hoff, hbit, Bool.true_and, Bool.true_and, Bool.true_and] at hcell

/-- After a part of the visits a cell holds what it held, or its next value if the part has visited
it; then so it does after all of them (42_stepper.md R124). -/
theorem oldOrNew_visits (b : Build) (mask : DirtyMask) (snap : Memory) {fb : Memory}
    (hfb : Memory.wf fb) {p q : List (Nat × Nat)} (hpq : regionCells b = p ++ q) :
    OldOrNew fb (stepFb b mask snap fb) (p.foldl (stepOne b mask snap) fb) := by
  refine oldOrNew_of_cells fun x y hr => ?_
  unfold stepFb
  rw [cellAt_stepFold b mask snap p hfb x y hr, cellAt_stepFold b mask snap _ hfb x y hr]
  by_cases hvisited : ∃ c ∈ p, DirtyMask.get mask c.1 c.2 = true ∧ x = cellX b c.1 ∧ y = cellY b c.2
  · obtain ⟨c, hc, hcell⟩ := hvisited
    refine .inr ?_
    rw [if_pos ⟨c, hc, hcell⟩, if_pos ⟨c, hpq ▸ List.mem_append_left q hc, hcell⟩]
  · exact .inl (if_neg hvisited)

theorem FbOnTheWay.oldOrNew (hfb : Memory.wf s.fb) {m : Memory} (h : FbOnTheWay s t m) :
    OldOrNew s.fb t.fb m := by
  rcases h with rfl | rfl | ⟨hend, p, q, hpq, rfl⟩
  · exact fun _ _ _ _ => .inl rfl
  · exact fun _ _ _ _ => .inr rfl
  · rw [hend]
    exact oldOrNew_visits s.build t.mask t.snap hfb hpq

/-! ### The whole run -/

/-- At a command boundary with nothing offered the machine stays (70_reset_and_hazards.md R181). -/
theorem Idle.run (h : Idle s) (n : Nat) : Sys2Proof.core.run n s = .next s := by
  induction n with
  | zero => rfl
  | succ n ih =>
    have hstep : step s = .next s := by
      unfold step takeInput
      rw [h.inputs]
      exact advance_idle h.flight
    rw [run_succ hstep, ih]

/-- Once at a command boundary, a run meets no other FB, however long it is. -/
theorem Passes.always (h : Passes P s t) (ht : Idle t) (n : Nat)
    (hrun : Sys2Proof.core.run n s = .next u) : P u.fb := by
  obtain ⟨k, hk, hway⟩ := h
  rcases Nat.le_total n k with hn | hn
  · exact hway n u hn hrun
  · obtain ⟨d, rfl⟩ := Nat.exists_eq_add_of_le hn
    rw [run_add d hk, ht.run d] at hrun
    cases hrun
    exact hway k t le_rfl hk

/-- A word run as one transaction ends at a command boundary (00_scope.md R15). -/
theorem idle_of_command (hinv : State.Inv s) (hidle : s.flight = none)
    (hstep : step { s with inputs := [.command w] } = .next t) : Idle t := by
  obtain ⟨t', hrun, ht', -⟩ := accept_passes (hinv.idle hidle) hinv.fb_wf hinv.snap_wf w
  have hword := step_command (s := { s with inputs := [.command w] }) hidle rfl
  cases hstep.symm.trans (hword.trans hrun)
  exact ht'

/-- At every step of an issued word, and after it, each bit of FB is old or new (20_memory.md
R47). -/
theorem oldOrNew_of_issue (hinv : State.Inv s) (hidle : s.flight = none)
    (hstep : step { s with inputs := [.command w] } = .next t) (n : Nat)
    (hrun : Sys2Proof.core.run n { s with inputs := [.issue w] } = .next u) :
    OldOrNew s.fb t.fb u.fb := by
  obtain ⟨t', hstep', -, hpasses⟩ := issue_passes hinv hidle w
  cases hstep.symm.trans hstep'
  exact (hpasses.always (idle_of_command hinv hidle hstep) n hrun).oldOrNew hinv.fb_wf

/-! ### What the display reads -/

theorem displayMaySee_iff (before after seen : Byte) : displayMaySee before after seen = true ↔
    ∀ k < 8, seen.getLsbD k = before.getLsbD k ∨ seen.getLsbD k = after.getLsbD k := by
  simp [displayMaySee]

/-- The free choice of a read during a command takes each bit from one of the two ends. -/
theorem displayMaySee_mixByte (pick before after : Byte) :
    displayMaySee before after (mixByte pick before after) = true := by
  refine (displayMaySee_iff _ _ _).2 fun k _ => ?_
  rw [Memory.mixByte_getLsbD]
  split
  · exact .inr rfl
  · exact .inl rfl

theorem displayReadDuring_eq (n : Nat) (before after : Memory) {o : PortOffset}
    (ho : o.toNat < Config.fbBytes) : displayReadDuring n before after o = .ok
      (mixByte (Config.displayChanged n o.toNat) (Memory.read before o.toNat)
        (Memory.read after o.toNat)) := by
  unfold displayReadDuring
  rw [portRead_ok before ho, portRead_ok after ho]
  rfl

/-- Settles O57: `oldOrNew_of_issue` at every step of the run, `displayMaySee_mixByte` for the free
choice. -/
theorem displaySeesOldOrNew : Obligations.DisplaySeesOldOrNew := by
  intro s t w hinv hidle hstep
  refine ⟨fun n u hrun o ho => ⟨_, portRead_ok u.fb ho, ?_⟩,
    fun n o ho => ⟨_, displayReadDuring_eq n s.fb t.fb ho, displayMaySee_mixByte _ _ _⟩⟩
  exact (displayMaySee_iff _ _ _).2 (oldOrNew_of_issue hinv hidle hstep n hrun o.toNat ho)

end Sys2Proof.Machine
end

section
/-! The code of the command words (30_encoding.md R61 to R67). A word that the decoder accepts is the
encoding of its command, and so is a word that matches a row of the opcode map: a legal word has one
command and one row, an illegal word none. -/

namespace Sys2Proof

variable {f : Fields} {w : CmdWord} {i : Instr}

/-! ### Encoding and decoding -/

theorem decode_encode (i : Instr) : decode (encode i) = .ok i := by
  rw [decode_eq_ok_iff]
  cases i <;> (rw [encode, ofWord_packWord]; exact ⟨rfl, rfl⟩)

/-- Settles O1: the fields of a packed word are the ones packed. -/
theorem decodeOfEncode : Obligations.DecodeOfEncode := decode_encode

theorem opcode_of_command (h : f.command = some i) : i.opcode = f.op := by
  unfold Fields.command at h
  split at h <;> cases h
  all_goals next hop => exact BitVec.eq_of_toNat_eq hop.symm

/-- The fields that a format does not use are 0 in a legal word (30_encoding.md R62), so the command
and its operands fix the word. -/
theorem encode_of_command (hunused : f.unusedOk = true) (h : f.command = some i) :
    encode i = packWord f.op f.x f.y f.v := by
  have hopcode := opcode_of_command h
  unfold Fields.command at h
  split at h <;> cases h
  all_goals next hop =>
    simp [Fields.unusedOk, Format.ofOpcode, hop] at hunused
    simp [encode, hopcode, hunused]

theorem encode_of_decode (h : decode w = .ok i) : encode i = w := by
  obtain ⟨hwf, hcommand⟩ := (decode_eq_ok_iff w i).1 h
  simp only [Fields.wellFormed, Fields.rsvOk, Bool.and_eq_true, beq_iff_eq] at hwf
  obtain ⟨⟨-, hrsv⟩, hunused⟩ := hwf
  rw [encode_of_command hunused hcommand, packWord_ofWord hrsv]

/-- Settles O2: a legal word is the packing of its fields. -/
theorem encodeOfDecode : Obligations.EncodeOfDecode := fun _ _ => encode_of_decode

/-! ### Legal and illegal words -/

/-- The four cases of 30_encoding.md R66. -/
def IllegalWord (w : CmdWord) : Prop :=
  0xB ≤ (w.extractLsb' 60 4).toNat ∨ w.extractLsb' 33 27 ≠ 0 ∨
    ((w.extractLsb' 60 4).toNat ∈ [0x0, 0x4, 0x5, 0x6, 0x7, 0xA] ∧ w.extractLsb' 0 33 ≠ 0) ∨
    ((w.extractLsb' 60 4).toNat ∈ [0x1, 0x2, 0x8, 0x9] ∧ w.getLsbD 32 = true)

/-- Which opcodes have which format (30_encoding.md R64, R65). -/
theorem format_ofOpcode_iff : ∀ op : BitVec 4,
    (Format.ofOpcode op = none ↔ 0xB ≤ op.toNat) ∧
    (Format.ofOpcode op = some .n ↔ op.toNat ∈ [0x0, 0x4, 0x5, 0x6, 0x7, 0xA]) ∧
    (Format.ofOpcode op = some .xy ↔ op.toNat ∈ [0x1, 0x2, 0x8, 0x9]) := by
  decide

/-- The bits below RSV are V, Y and X (30_encoding.md R61). -/
theorem operands_eq (w : CmdWord) : w.extractLsb' 0 33 =
    BitVec.ofBool (Fields.ofWord w).v ++ (Fields.ofWord w).y ++ (Fields.ofWord w).x := by
  have hv : BitVec.ofBool (w.getLsbD 32) = w.extractLsb' 32 1 := by
    refine BitVec.eq_of_getLsbD_eq fun k hk => ?_
    obtain rfl : k = 0 := by omega
    simp
  simp only [Fields.ofWord, hv]
  rw [BitVec.extractLsb'_append_extractLsb'_eq_extractLsb' (by decide),
    BitVec.extractLsb'_append_extractLsb'_eq_extractLsb' (by decide)]

theorem append_eq_zero_iff {m n : Nat} (a : BitVec m) (b : BitVec n) :
    a ++ b = 0 ↔ a = 0 ∧ b = 0 := by
  constructor
  · intro h
    have ha := BitVec.extractLsb'_append_eq_left (a := a) (b := b)
    have hb := BitVec.extractLsb'_append_eq_right (a := a) (b := b)
    rw [h] at ha hb
    exact ⟨by simpa using ha.symm, by simpa using hb.symm⟩
  · rintro ⟨rfl, rfl⟩
    exact BitVec.zero_append_zero

theorem operands_eq_zero_iff (w : CmdWord) : w.extractLsb' 0 33 = 0 ↔
    ((Fields.ofWord w).v = false ∧ (Fields.ofWord w).y = 0) ∧ (Fields.ofWord w).x = 0 := by
  have hv : ∀ v : Bool, BitVec.ofBool v = 0 ↔ v = false := by decide
  rw [operands_eq, append_eq_zero_iff, append_eq_zero_iff, hv]

theorem not_wellFormed_iff (f : Fields) : ¬ f.wellFormed = true ↔
    Format.ofOpcode f.op = none ∨ f.rsv ≠ 0 ∨
    (Format.ofOpcode f.op = some .n ∧ ¬ ((f.v = false ∧ f.y = 0) ∧ f.x = 0)) ∨
    (Format.ofOpcode f.op = some .xy ∧ f.v = true) := by
  unfold Fields.wellFormed Fields.opOk Fields.rsvOk Fields.unusedOk
  rcases Format.ofOpcode f.op with _ | _ | _ | _ <;> simp [imp_iff_not_or, or_comm, or_left_comm]

theorem isSome_command (f : Fields) : f.command.isSome = f.opOk := by
  unfold Fields.command Fields.opOk Format.ofOpcode
  split <;> simp [*]

theorem exists_decode_iff (w : CmdWord) :
    (∃ i, decode w = .ok i) ↔ (Fields.ofWord w).wellFormed = true := by
  simp only [decode_eq_ok_iff, exists_and_left, ← Option.isSome_iff_exists, isSome_command,
    and_iff_left_iff_imp]
  intro hwf
  simp only [Fields.wellFormed, Bool.and_eq_true] at hwf
  exact hwf.1.1

theorem not_illegalWord_iff (w : CmdWord) : ¬ IllegalWord w ↔ ∃ i, decode w = .ok i := by
  rw [exists_decode_iff, not_iff_comm, not_wellFormed_iff, ← operands_eq_zero_iff]
  obtain ⟨hnone, hn, hxy⟩ := format_ofOpcode_iff (Fields.ofWord w).op
  rw [hnone, hn, hxy]
  rfl

theorem illegalWord_iff (w : CmdWord) : IllegalWord w ↔ ∃ e, decode w = .error e := by
  rw [← not_iff_not, not_illegalWord_iff]
  cases decode w <;> simp

/-! ### Rows of the opcode map -/

theorem ofWord_and (w m : CmdWord) : Fields.ofWord (w &&& m) =
    { op := (Fields.ofWord w).op &&& (Fields.ofWord m).op
      rsv := (Fields.ofWord w).rsv &&& (Fields.ofWord m).rsv
      v := (Fields.ofWord w).v && (Fields.ofWord m).v
      y := (Fields.ofWord w).y &&& (Fields.ofWord m).y
      x := (Fields.ofWord w).x &&& (Fields.ofWord m).x } := by
  simp only [Fields.ofWord, BitVec.extractLsb'_and, BitVec.getLsbD_and]

/-- A row whose mask leaves X and Y free: V is free too (`keepV = false`), or it is 0. -/
theorem packWord_of_hits {value mask : CmdWord} {op : BitVec 4} {keepV : Bool}
    (hvalue : Fields.ofWord value = ⟨op, 0, false, 0, 0⟩)
    (hmask : Fields.ofWord mask = ⟨BitVec.allOnes 4, BitVec.allOnes 27, keepV, 0, 0⟩)
    (h : (OpcodeRow.mk value mask).hits w = true) :
    packWord op (Fields.ofWord w).x (Fields.ofWord w).y (Fields.ofWord w).v = w ∧
      ((Fields.ofWord w).v && keepV) = false := by
  have hfields := congrArg Fields.ofWord (beq_iff_eq.1 h)
  simp only [ofWord_and, hvalue, hmask, BitVec.and_allOnes, Fields.mk.injEq] at hfields
  obtain ⟨hop, hrsv, hv, -, -⟩ := hfields
  exact ⟨hop ▸ packWord_ofWord hrsv, hv⟩

theorem packWord_of_hits_xy {value : CmdWord} {op : BitVec 4}
    (hvalue : Fields.ofWord value = ⟨op, 0, false, 0, 0⟩)
    (h : (OpcodeRow.mk value 0xFFFFFFFF00000000).hits w = true) :
    packWord op (Fields.ofWord w).x (Fields.ofWord w).y false = w := by
  obtain ⟨hpack, hv⟩ := packWord_of_hits (keepV := true) hvalue (by decide) h
  rwa [(Bool.and_true _).symm.trans hv] at hpack

theorem eq_of_hits_full {value : CmdWord}
    (h : (OpcodeRow.mk value 0xFFFFFFFFFFFFFFFF).hits w = true) : value = w := by
  have hand : w &&& BitVec.allOnes 64 = value := beq_iff_eq.1 h
  rw [← hand, BitVec.and_allOnes]

/-- A word that matches a command's row is the encoding of that command with some operands. -/
theorem exists_encode_of_hits (h : i.row.hits w = true) :
    ∃ j : Instr, encode j = w ∧ j.row = i.row := by
  cases i with
  | nop => exact ⟨.nop, eq_of_hits_full h, rfl⟩
  | xlate => exact ⟨.xlate _ _, packWord_of_hits_xy rfl h, rfl⟩
  | get => exact ⟨.get _ _, packWord_of_hits_xy rfl h, rfl⟩
  | set => exact ⟨.set _ _ _, (packWord_of_hits (keepV := false) rfl rfl h).1, rfl⟩
  | snapshot => exact ⟨.snapshot, eq_of_hits_full h, rfl⟩
  | buildMask => exact ⟨.buildMask, eq_of_hits_full h, rfl⟩
  | step => exact ⟨.step, eq_of_hits_full h, rfl⟩
  | tick => exact ⟨.tick, eq_of_hits_full h, rfl⟩
  | sget => exact ⟨.sget _ _, packWord_of_hits_xy rfl h, rfl⟩
  | mget => exact ⟨.mget _ _, packWord_of_hits_xy rfl h, rfl⟩
  | clrstat => exact ⟨.clrstat, eq_of_hits_full h, rfl⟩

theorem exists_decode_of_hits {r : OpcodeRow} (hr : r ∈ opcodeRows) (h : r.hits w = true) :
    ∃ i, decode w = .ok i ∧ i.row = r := by
  obtain ⟨j, -, rfl⟩ := List.mem_map.1 hr
  obtain ⟨i, rfl, hrow⟩ := exists_encode_of_hits h
  exact ⟨i, decode_encode i, hrow⟩

theorem row_mem_opcodeRows (i : Instr) : i.row ∈ opcodeRows := by
  cases i <;> simp [opcodeRows, Instr.row]

theorem row_hits_encode (i : Instr) : i.row.hits (encode i) = true := by
  cases i with
  | nop => exact Laws.EncodeHitsRow.nop
  | xlate x y => exact Laws.EncodeHitsRow.xlate x y
  | get x y => exact Laws.EncodeHitsRow.get x y
  | set x y v => exact Laws.EncodeHitsRow.set x y v
  | snapshot => exact Laws.EncodeHitsRow.snapshot
  | buildMask => exact Laws.EncodeHitsRow.buildMask
  | step => exact Laws.EncodeHitsRow.step
  | tick => exact Laws.EncodeHitsRow.tick
  | sget x y => exact Laws.EncodeHitsRow.sget x y
  | mget a b => exact Laws.EncodeHitsRow.mget a b
  | clrstat => exact Laws.EncodeHitsRow.clrstat

/-- A legal word matches its command's row. -/
theorem hits_of_decode (h : decode w = .ok i) : i.row.hits w = true :=
  encode_of_decode h ▸ row_hits_encode i

/-- A legal word matches no other row. -/
theorem eq_row_of_hits (h : decode w = .ok i) {r : OpcodeRow} (hr : r ∈ opcodeRows)
    (hhits : r.hits w = true) : r = i.row := by
  obtain ⟨j, hj, rfl⟩ := exists_decode_of_hits hr hhits
  cases hj.symm.trans h
  rfl

/-- An illegal word matches no row. -/
theorem hits_eq_false {e : Illegal} (h : decode w = .error e) {r : OpcodeRow}
    (hr : r ∈ opcodeRows) : r.hits w = false := by
  by_contra hhits
  obtain ⟨j, hj, -⟩ := exists_decode_of_hits hr (by simpa using hhits)
  cases hj.symm.trans h

end Sys2Proof

namespace Sys2Proof.Machine

/-- An illegal word sets ILL and nothing else (60_exceptions.md R160). -/
theorem runWord_sets_ill {w : CmdWord} {e : Illegal} (h : decode w = .error e) (s : State) :
    runWord w s = .next { s with status := s.status ||| 0x100 } := by
  rw [runWord_of_illegal h, raise_ill_eq]

/-- Settles O3: the four cases are the words the decoder refuses; a row that a word matches is its
command's. -/
theorem everyWordHasOneMeaning : Obligations.EveryWordHasOneMeaning := by
  intro w
  show (IllegalWord w → _) ∧ (¬ IllegalWord w → _)
  rw [not_illegalWord_iff, illegalWord_iff]
  constructor
  · rintro ⟨e, he⟩
    exact ⟨⟨e, he⟩, fun _ => hits_eq_false he, runWord_sets_ill he⟩
  · rintro ⟨i, hi⟩
    exact ⟨i, hi, hits_of_decode hi, row_mem_opcodeRows i, fun _ => eq_row_of_hits hi⟩

/-- Settles O4: the decoder computes each word. -/
theorem sampleWordsDecode : Obligations.SampleWordsDecode := by
  unfold Obligations.SampleWordsDecode
  decide

/-- Settles O7: the step runs the offered word, and an illegal word sets ILL. -/
theorem stepRefusesIllegalWord : Obligations.StepRefusesIllegalWord := by
  intro s w e rest hidle hoffer hillegal
  rw [step_command hidle hoffer, runWord_sets_ill hillegal]

end Sys2Proof.Machine
end

section
/-! The words of an assembly line (30_encoding.md R68, R69). -/

namespace Sys2Proof.Machine

variable {l : AsmLine} {x y v n : Int}

theorem assemble_of_admitted (h : l.wellFormed = true) :
    assemble l = some ((asmExpand l).map encode) := if_pos h

theorem assemble_of_refused (h : l.wellFormed = false) : assemble l = none := by
  rw [assemble, h]
  rfl

/-! ### The fields of a word -/

/-- A coordinate operand: -1, or what fits in 16 bits (30_encoding.md R68). -/
def AsmFits (n : Int) : Prop := -1 ≤ n ∧ n ≤ 0xFFFF

theorem asmCoordOk_iff : asmCoordOk n = true ↔ AsmFits n := decide_eq_true_iff

/-- A coordinate operand in its field, -1 as 0xFFFF (30_encoding.md R68). -/
def asmField (n : Int) : Coord := if n = -1 then 0xFFFF else BitVec.ofNat 16 n.toNat

theorem asmCoord_eq_field (h : AsmFits n) : asmCoord n = asmField n := by
  obtain ⟨hlow, -⟩ := h
  unfold asmField asmCoord
  split
  · next hneg => rw [hneg]; rfl
  · next hneg =>
    obtain ⟨k, rfl⟩ := Int.eq_ofNat_of_zero_le (show 0 ≤ n by omega)
    exact BitVec.ofInt_natCast 16 k

/-- A word as R68 writes it. -/
def asmWord (op : CmdWord) (x y : Coord) (v : Bool) : CmdWord :=
  op <<< 60 ||| (BitVec.ofBool v).setWidth 64 <<< 32 ||| y.setWidth 64 <<< 16 ||| x.setWidth 64

/-! ### Lines with two coordinates -/

/-- A line whose operands are two coordinates, and the word it stands for. -/
structure CoordLine (l : AsmLine) (op : BitVec 4) (x y : Int) (v : Bool) : Prop where
  wellFormed : l.wellFormed = (asmCoordOk x && asmCoordOk y)
  words : (asmExpand l).map encode = [packWord op (asmCoord x) (asmCoord y) v]

theorem CoordLine.admitted {op : BitVec 4} {b : Bool} (h : CoordLine l op x y b)
    (hx : AsmFits x) (hy : AsmFits y) :
    assemble l = some [asmWord (op.setWidth 64) (asmField x) (asmField y) b] := by
  have hwf : l.wellFormed = true := by
    rw [h.wellFormed, asmCoordOk_iff.2 hx, asmCoordOk_iff.2 hy]
    rfl
  rw [assemble_of_admitted hwf, h.words, packWord_eq, asmCoord_eq_field hx, asmCoord_eq_field hy]
  rfl

theorem CoordLine.refused {op : BitVec 4} {b : Bool} (h : CoordLine l op x y b)
    (hxy : ¬ (AsmFits x ∧ AsmFits y)) : assemble l = none := by
  refine assemble_of_refused ?_
  rw [h.wellFormed, ← Bool.not_eq_true, Bool.and_eq_true, asmCoordOk_iff, asmCoordOk_iff]
  exact hxy

theorem coordLine_xlate : CoordLine (.xlate x y) 0x1 x y false := ⟨rfl, rfl⟩
theorem coordLine_get : CoordLine (.get x y) 0x2 x y false := ⟨rfl, rfl⟩
theorem coordLine_sget : CoordLine (.sget x y) 0x8 x y false := ⟨rfl, rfl⟩
theorem coordLine_mget : CoordLine (.mget x y) 0x9 x y false := ⟨rfl, rfl⟩
theorem coordLine_plot : CoordLine (.plot x y) 0x3 x y true := ⟨rfl, rfl⟩
theorem coordLine_unplot : CoordLine (.unplot x y) 0x3 x y false := ⟨rfl, rfl⟩

theorem coordLine_set (h : asmBitOk v = true) : CoordLine (.set x y v) 0x3 x y (v == 1) :=
  ⟨by rw [AsmLine.wellFormed, h, Bool.and_true], rfl⟩

/-! ### The other forms -/

/-- SET with another v than 0 or 1 has no words (30_encoding.md R68). -/
theorem assemble_set_of_bit (h : asmBitOk v = false) : assemble (.set x y v) = none := by
  refine assemble_of_refused ?_
  rw [AsmLine.wellFormed, h, Bool.and_false]

/-- SET refuses the coordinates that every form refuses, whatever its v. -/
theorem assemble_set_of_coords (hxy : ¬ (AsmFits x ∧ AsmFits y)) (v : Int) :
    assemble (.set x y v) = none := by
  cases hv : asmBitOk v with
  | true => exact (coordLine_set hv).refused hxy
  | false => exact assemble_set_of_bit hv

theorem assemble_ticks (n : Nat) :
    assemble (.ticks n) = some (List.replicate n (asmWord 0x7 0 0 false)) := by
  have hwf : (AsmLine.ticks n).wellFormed = true := decide_eq_true (Int.natCast_nonneg n)
  rw [assemble_of_admitted hwf, asmExpand, List.map_replicate, Int.toNat_natCast,
    show encode .tick = asmWord 0x7 0 0 false by decide]

/-- The decoder reads a line's words as its commands. -/
theorem map_decode_map_encode (is : List Instr) : (is.map encode).map decode = is.map Except.ok := by
  rw [List.map_map]
  exact List.map_congr_left fun i _ => decode_encode i

/-- Settles O5: the forms with coordinates are `CoordLine`s; the words of the others are fixed. -/
theorem assembledLinesDecode : Obligations.AssembledLinesDecode := by
  refine ⟨by decide, ?admitted, ?refused, ?bit, assemble_ticks, ?ticks, fun _ => assemble_of_refused,
    fun l hl => ⟨_, assemble_of_admitted hl, map_decode_map_encode _⟩⟩
  case admitted =>
    rintro x y ⟨hx, hy⟩
    exact ⟨coordLine_xlate.admitted hx hy, coordLine_get.admitted hx hy,
      coordLine_sget.admitted hx hy, coordLine_mget.admitted hx hy, coordLine_plot.admitted hx hy,
      coordLine_unplot.admitted hx hy, (coordLine_set rfl).admitted hx hy,
      (coordLine_set rfl).admitted hx hy⟩
  case refused =>
    intro x y hxy
    exact ⟨coordLine_xlate.refused hxy, coordLine_get.refused hxy, coordLine_sget.refused hxy,
      coordLine_mget.refused hxy, coordLine_plot.refused hxy, coordLine_unplot.refused hxy,
      assemble_set_of_coords hxy⟩
  case bit =>
    intro x y v h0 h1
    exact assemble_set_of_bit (by simp [asmBitOk, h0, h1])
  case ticks =>
    intro n hn
    exact assemble_of_refused (decide_eq_false (not_le.2 hn))

end Sys2Proof.Machine
end

section
/-! The text of a program (30_encoding.md R68, R69; log entry 18). Laws/Assembler.lean cuts a line
into its mnemonic and its operands and looks the mnemonic up (`asmEntry`); here stand the operands as
literals, the forms by name, lines with a comment or an unknown mnemonic, and programs. -/

namespace Sys2Proof.Machine

/-! ### Operands -/

/-- A decimal literal. -/
theorem decLiteral_iff {t : List Char} {n : Int} : (∃ m : Nat, asmNumber 10 t = some m ∧ n = m) ↔
    ∃ ds : List Nat, ds ≠ [] ∧ (∀ d ∈ ds, d < 10) ∧ t = ds.map Nat.digitChar ∧
      n = (ds.foldl (fun n d => n * 10 + d) 0 : Nat) := by
  simp only [asmNumber_eq, asmDigits_dec]
  constructor
  · rintro ⟨_, ⟨hne, ds, ⟨hds, rfl⟩, rfl⟩, hn⟩
    exact ⟨ds, by simpa using hne, hds, rfl, hn⟩
  · rintro ⟨ds, hne, hds, rfl, hn⟩
    exact ⟨_, ⟨by simpa using hne, ds, ⟨hds, rfl⟩, rfl⟩, hn⟩

/-- A hexadecimal literal. -/
theorem hexLiteral_iff {t : List Char} {n : Int} :
    (∃ (cs : List Char) (m : Nat), t = '0' :: 'x' :: cs ∧ asmNumber 16 cs = some m ∧ n = m) ↔
    ∃ (ds : List Nat) (cs : List Char), ds ≠ [] ∧ (∀ d ∈ ds, d < 16) ∧ t = '0' :: 'x' :: cs ∧
      cs.map Char.toLower = ds.map Nat.digitChar ∧
      n = (ds.foldl (fun n d => n * 16 + d) 0 : Nat) := by
  have hnil : ∀ (cs : List Char) (ds : List Nat), cs.map Char.toLower = ds.map Nat.digitChar →
      (cs = [] ↔ ds = []) := by
    intro cs ds h
    rw [← List.map_eq_nil_iff (f := Char.toLower), h, List.map_eq_nil_iff]
  simp only [asmNumber_eq, asmDigits_hex]
  constructor
  · rintro ⟨cs, _, ht, ⟨hne, ds, ⟨hds, hcs⟩, rfl⟩, hn⟩
    exact ⟨ds, cs, (hnil cs ds hcs).not.1 hne, hds, ht, hcs, hn⟩
  · rintro ⟨ds, cs, hne, hds, ht, hcs, hn⟩
    exact ⟨cs, _, ht, ⟨(hnil cs ds hcs).not.2 hne, ds, ⟨hds, hcs⟩, rfl⟩, hn⟩

theorem asmNumber_dec_of_hex (cs : List Char) : asmNumber 10 ('0' :: 'x' :: cs) = none := rfl

/-- An operand is -1, a decimal number or a number behind 0x; no text is two of them. -/
theorem asmOperand_eq_some_iff {t : List Char} {n : Int} : asmOperand t = some n ↔
    (t = ['-', '1'] ∧ n = -1) ∨ (∃ m : Nat, asmNumber 10 t = some m ∧ n = m) ∨
    (∃ (cs : List Char) (m : Nat), t = '0' :: 'x' :: cs ∧ asmNumber 16 cs = some m ∧ n = m) := by
  unfold asmOperand
  split
  · have hdec : asmNumber 10 ['-', '1'] = none := rfl
    simp [hdec, eq_comm]
  · next digits => simp [asmNumber_dec_of_hex, eq_comm]
  · next hminus hhex =>
    simp [show ∀ cs, t ≠ '0' :: 'x' :: cs from hhex, show t ≠ ['-', '1'] from hminus, eq_comm]

/-! ### Mnemonics -/

/-- The forms of 30_encoding.md R68 and R69 by name, those without operands first. -/
def textForms : List (String × (List Int → Option AsmLine)) :=
  [("NOP", asmForm0 .nop), ("SNAPSHOT", asmForm0 .snapshot), ("BUILD_MASK", asmForm0 .buildMask),
   ("STEP", asmForm0 .step), ("TICK", asmForm0 .tick), ("CLRSTAT", asmForm0 .clrstat),
   ("TICK3", asmForm0 .tick3), ("XLATE", asmForm2 .xlate), ("GET", asmForm2 .get),
   ("SGET", asmForm2 .sget), ("MGET", asmForm2 .mget), ("SET", asmForm3 .set),
   ("PLOT", asmForm2 .plot), ("UNPLOT", asmForm2 .unplot), ("TICKS", asmForm1 .ticks)]

theorem textForms_eq : textForms.map (fun form => (form.1.toList, form.2)) =
    [0, 4, 5, 6, 7, 10, 14, 1, 2, 8, 9, 3, 11, 12, 13].filterMap (asmForms[·]?) := rfl

theorem mem_asmForms {form : String × (List Int → Option AsmLine)} (h : form ∈ textForms) :
    (form.1.toList, form.2) ∈ asmForms := by
  have hmem := List.mem_map_of_mem (f := fun form => (form.1.toList, form.2)) h
  rw [textForms_eq, List.mem_filterMap] at hmem
  obtain ⟨k, -, hk⟩ := hmem
  exact List.mem_of_getElem? hk

theorem mnemonics_subset : ∀ name ∈ asmForms.map Prod.fst,
    name ∈ textForms.map fun form => form.1.toList := by
  decide

/-! ### Lines -/

/-- A form's mnemonic and its operands are parsed as the form says, with or without a comment. -/
theorem asmParse_form {form : List Char × (List Int → Option AsmLine)} (hform : form ∈ asmForms)
    {ops : List (List Char)} (hops : ∀ t ∈ ops, asmPlain t) {line : List Char}
    (hline : asmCode line = form.1 ++ ' ' :: asmJoin ops ∨
      asmCode line = (form.1 ++ ' ' :: asmJoin ops) ++ [' ']) :
    asmParse line = ((ops.mapM asmOperand).bind form.2).map fun l => [l] := by
  obtain ⟨hplain, hentry⟩ := asmEntry_form form hform
  rw [asmParse_line hplain hops hline, hentry]

theorem line_ne_semicolon {name : List Char} {ops : List (List Char)} (hname : asmPlain name)
    (hops : ∀ t ∈ ops, asmPlain t) : ∀ c ∈ name ++ ' ' :: asmJoin ops, c ≠ ';' := by
  intro c hc
  rcases List.mem_append.1 hc with hc | hc
  · exact hname.ne_semicolon hc
  · rcases List.mem_cons.1 hc with rfl | hc
    · decide
    · exact asmJoin_no_semicolon hops c hc

/-- A line whose mnemonic is none of the forms' is refused, whatever stands behind a blank. -/
theorem asmParse_unknown {name : List Char} (hname : asmPlain name)
    (hunknown : ∀ form ∈ asmForms, form.1 ≠ name) (rest : List Char) :
    asmParse (name ++ ' ' :: rest) = none := by
  have hcode : asmCode (name ++ ' ' :: rest) = name ++ ' ' :: asmCode rest := by
    unfold asmCode
    rw [List.takeWhile_append_of_pos (by simpa using fun c hc => hname.ne_semicolon hc)]
    rfl
  obtain ⟨rest', htrim, hblank⟩ := asmTrim_mnemonic hname (asmCode rest)
  rw [asmParse_of_code hname (hcode ▸ htrim) hblank, asmEntry_none hunknown]

/-! ### Programs -/

/-- The words of a program are its lines' words in order; one refused line refuses it. -/
theorem assembleText_cons (line : List Char) (more : List (List Char)) :
    assembleText (line :: more) =
      (asmParse line).bind fun ls => (ls.mapM assemble).bind fun ws =>
        (assembleText more).map fun rest => ws.flatten ++ rest := by
  unfold assembleText
  rw [List.mapM_cons]
  cases asmParse line with
  | none => rfl
  | some ls =>
    cases more.mapM asmParse with
    | none => cases ls.mapM assemble <;> simp
    | some parsed =>
      simp only [Option.bind_eq_bind, Option.pure_def, Option.bind_some, List.flatten_cons,
        List.mapM_append]
      cases ls.mapM assemble with
      | none => rfl
      | some ws => cases parsed.flatten.mapM assemble <;> simp

/-- Settles O58: the operands by `asmOperand_eq_some_iff`, the lines by the laws of `asmParse`, the
programs by `assembleText_cons`. -/
theorem assemblerReadsText : Obligations.AssemblerReadsText := by
  unfold Obligations.AssemblerReadsText
  intro forms plain value
  have hforms : forms = textForms := rfl
  clear_value forms
  subst hforms
  refine ⟨?operand, ?line, ?bare, ?unknown, fun _ => ⟨rfl, rfl⟩, rfl, assembleText_cons⟩
  case operand =>
    intro t n
    rw [asmOperand_eq_some_iff, decLiteral_iff, hexLiteral_iff]
  case line =>
    intro form hform ops hops remark line parsed
    have hmem := mem_asmForms hform
    have hne := line_ne_semicolon (asmEntry_form _ hmem).1 hops
    have hblank : ∀ c ∈ line ++ [' '], c ≠ ';' := by
      intro c hc
      rcases List.mem_append.1 hc with hc | hc
      · exact hne c hc
      · rw [List.mem_singleton.1 hc]
        decide
    refine ⟨asmParse_form hmem hops (.inl (asmCode_self hne)),
      asmParse_form hmem hops (.inl (asmCode_comment hne remark)), ?_⟩
    rw [List.append_cons]
    exact asmParse_form hmem hops (.inr (asmCode_comment hblank remark))
  case bare =>
    intro form hform remark
    obtain ⟨hplain, hentry⟩ := asmEntry_form _ (mem_asmForms hform)
    obtain ⟨hbare, hcomment⟩ := asmParse_bare hplain
    exact ⟨hbare.trans (hentry _), (hcomment remark).trans (hentry _)⟩
  case unknown =>
    intro name rest hname hother
    have hunknown : ∀ form ∈ asmForms, form.1 ≠ name := by
      rintro form hform rfl
      obtain ⟨form', hform', heq⟩ :=
        List.mem_map.1 (mnemonics_subset _ (List.mem_map_of_mem hform))
      exact hother form' hform' heq
    obtain ⟨hbare, hcomment⟩ := asmParse_bare hname
    have hnone := asmEntry_none hunknown (some [])
    exact ⟨hbare.trans hnone, asmParse_unknown hname hunknown rest, (hcomment rest).trans hnone⟩

end Sys2Proof.Machine
end

section
/-! The AddressTranslator and the accessor commands (40_translate_access.md): the mask's one bit,
the translator as a bijection with the display's scan as its inverse, and what XLATE, GET, SET and
SGET answer in numbers and bits. -/

namespace Sys2Proof.Machine

/-! ### The mask (R82) -/

/-- The mask counts from the left: the byte's bit 7 is the leftmost cell. -/
theorem bitMask_eq_ushiftRight (x : Coord) : bitMask x = 0x80#8 >>> (x.toNat % 8) := by
  have hshift : ∀ k < 8, 1#8 <<< (7 - k) = 0x80#8 >>> k := by decide
  unfold bitMask
  rw [bitIndex_eq]
  exact hshift _ (Nat.mod_lt _ (by decide))

theorem bitMask_getLsbD_iff (x : Coord) {k : Nat} (hk : k < 8) :
    (bitMask x).getLsbD k = true ↔ k = 7 - x.toNat % 8 := by
  rw [bitMask_eq, bitIndex_eq, BitVec.getLsbD_twoPow, Bool.and_eq_true, decide_eq_true_eq,
    decide_eq_true_eq]
  omega

theorem bitMask_toNat (x : Coord) : (bitMask x).toNat = 2 ^ (7 - x.toNat % 8) := by
  rw [bitMask_eq, BitVec.toNat_twoPow_of_lt (bitIndex_lt x), bitIndex_eq]

/-- Settles O13: both shifts and the bit are laws of `bitMask`. -/
theorem maskHasOneBit : Obligations.MaskHasOneBit := by
  intro x
  have hlow : (x.extractLsb' 0 3).toNat = x.toNat % 8 := by
    rw [extract_toNat]
    omega
  exact ⟨rfl, rfl, hlow ▸ bitMask_eq_ushiftRight x, fun _ => bitMask_getLsbD_iff x⟩

/-! ### The bijection and its inverse (R83, R90) -/

/-- Every offset and bit is some cell's, namely the one the display's scan names. -/
theorem exists_pixel {o b : Nat} (ho : o < 6144) (hb : b < 8) :
    ∃ x y, inRange x y = true ∧ (offset x y).toNat = o ∧ bitIndex x = b := by
  have ho' : (BitVec.ofNat 13 o).toNat = o := Nat.mod_eq_of_lt (by omega)
  have hb' : (BitVec.ofNat 3 b).toNat = b := Nat.mod_eq_of_lt hb
  obtain ⟨hin, hoff, hbit⟩ :=
    scan_spec (BitVec.ofNat 13 o) (BitVec.ofNat 3 b) (by rw [ho']; exact ho)
  exact ⟨_, _, hin, hoff.symm ▸ ho', hbit.trans hb'⟩

/-- The scan of a cell's own offset and bit is the cell: both are translated alike. -/
theorem scan_offset {x y : Coord} (h : inRange x y = true) :
    scanX (offset x y) (BitVec.ofNat 3 (bitIndex x)) = x ∧ scanY (offset x y) = y := by
  obtain ⟨hin, hoff, hbit⟩ := scan_spec _ (BitVec.ofNat 3 (bitIndex x)) (offset_lt h)
  rw [BitVec.toNat_ofNat, Nat.mod_eq_of_lt (bitIndex_lt x)] at hbit
  exact pixel_inj hin h (congrArg BitVec.toNat hoff) hbit

/-- Settles O14: one-to-one by `pixel_inj`, onto by `exists_pixel`. -/
theorem translatorIsBijection : Obligations.TranslatorIsBijection :=
  ⟨fun x _ h => ⟨offset_lt h, bitIndex_lt x⟩,
    fun _ _ _ _ h h' ho => pixel_inj h h' (congrArg BitVec.toNat ho),
    fun _ _ => exists_pixel, rfl⟩

/-- Settles O15: one direction is `scan_spec`, the other `scan_offset`. -/
theorem scanInvertsTranslator : Obligations.ScanInvertsTranslator :=
  ⟨scan_spec, fun _ _ => scan_offset⟩

/-! ### XLATE (R81, R89) -/

theorem resultOfAddress_toNat (m : Byte) (o : PortOffset) :
    (resultOfAddress m o).toNat = 0x80000000 + m.toNat * 0x10000 + o.toNat := by
  unfold resultOfAddress
  rw [append_toNat, append_toNat, append_toNat, append_toNat]
  simp only [BitVec.toNat_ofNat]
  omega

theorem resultOfAddress_eq (m : Byte) (o : PortOffset) : resultOfAddress m o =
    BitVec.ofNat 32 (0x80000000 + m.toNat * 0x10000 + o.toNat) := by
  rw [← resultOfAddress_toNat, BitVec.ofNat_toNat, BitVec.setWidth_eq]

/-- In range the top groups of R81 are whole: no remainder cuts them. -/
theorem offset_weights {x y : Coord} (hx : x.toNat < 256) (hy : y.toNat < 192) :
    (offset x y).toNat =
      y.toNat / 64 * 2048 + y.toNat % 8 * 256 + y.toNat / 8 % 8 * 32 + x.toNat / 8 := by
  rw [offset_toNat, Nat.mod_eq_of_lt (show y.toNat / 64 < 4 by omega),
    Nat.mod_eq_of_lt (show x.toNat / 8 < 32 by omega)]

/-- Outside the grid the bounds check fails (R80). -/
theorem inRange_eq_false {x y : Coord} (h : ¬ (x.toNat < 256 ∧ y.toNat < 192)) :
    inRange x y = false :=
  Bool.eq_false_iff.2 ((inRange_iff x y).not.2 h)

/-- Settles O16: RESULT's fields as a number, the mask and the offset each as its own law says. -/
theorem xlateWritesAddress : Obligations.XlateWritesAddress := by
  intro x y s
  refine ⟨fun hin => ?_, fun hout => ?_⟩
  · rw [exec_xlate, if_pos ((inRange_iff x y).2 hin), resultOfAddress_eq, bitMask_toNat,
      offset_weights hin.1 hin.2]
  · rw [exec_xlate, inRange_eq_false hout]
    rfl

/-! ### GET and SGET (R85, R87, R88) -/

/-- RESULT after a cell of FB or SNAP has been read, in terms of the array's bytes. -/
theorem resultOfBit_cellAt (m : Memory) (x y : Coord) : resultOfBit (cellAt m x y) =
    if x.toNat < 256 ∧ y.toNat < 192 ∧
      (Memory.read m (offset x y).toNat).getLsbD (7 - x.toNat % 8) = true then 1 else 0 := by
  simp only [resultOfBit_eq, cellAt_iff]

/-- Settles O17: GET reads the cell of FB. -/
theorem getReadsLiveCell : Obligations.GetReadsLiveCell := by
  intro x y s
  rw [exec_get, resultOfBit_cellAt]

/-- Settles O19: SNAP_VALID decides between the cell of SNAP and SEQERR. -/
theorem sgetReadsFrozenCell : Obligations.SgetReadsFrozenCell := by
  intro x y s
  refine ⟨fun hvalid => ?_, fun hinvalid => ?_⟩
  · rw [exec_sget, if_pos hvalid, resultOfBit_cellAt]
  · rw [exec_sget, hinvalid, ← raise_seqErr_eq]
    rfl

/-! ### SET (R84, R86, R91) -/

theorem setCell_outside (m : Memory) {x y : Coord} (h : inRange x y = false) (v : Bool) :
    Memory.setCell m x y v = m :=
  if_neg (by simp [h])

/-- A bit write in range rewrites the byte at its offset and no other. -/
theorem read_setCell_byte {m : Memory} (hm : m.Pairwise (fun c d => c.1 < d.1)) {x y : Coord}
    (h : inRange x y = true) (v : Bool) (o : Nat) :
    Memory.read (Memory.setCell m x y v) o = if o = (offset x y).toNat
      then mergeBit (Memory.read m (offset x y).toNat) (bitMask x) v else Memory.read m o := by
  unfold Memory.setCell
  rw [if_pos h, Memory.read_write _ _ _ _ hm]

/-- Settles O18: out of range by `setCell_outside`, in range by `read_setCell_byte`. -/
theorem setWritesOneBit : Obligations.SetWritesOneBit := by
  intro x y v s hfb
  refine ⟨fun hout => ?_, fun hin => ⟨_, exec_set s x y v, rfl, fun o ho => ?_, ?_⟩⟩
  · rw [exec_set, setCell_outside _ (inRange_eq_false hout)]
  · exact (read_setCell_byte hfb.1 ((inRange_iff x y).2 hin) v o).trans (if_neg ho)
  · rw [← bitMask_eq_ushiftRight]
    exact (read_setCell_byte hfb.1 ((inRange_iff x y).2 hin) v _).trans (if_pos rfl)

/-- Settles O20: GET reads the written cell by `cellAt_setCell`, which also keeps the others. -/
theorem getAfterSet : Obligations.GetAfterSet := by
  intro x y v s hfb
  refine ⟨_, exec_set s x y v, fun hin => ?_, fun hout => ?_, fun x' y' hne => ?_⟩
  · rw [exec_get, cellAt_setCell hfb.1, if_pos ⟨hin, rfl, rfl⟩, resultOfBit_eq]
  · refine ⟨setCell_outside _ hout v, ?_⟩
    rw [exec_get, cellAt_outside _ hout]
    rfl
  · rw [cellAt_setCell hfb.1, if_neg fun hcell => hne hcell.2]

end Sys2Proof.Machine
end

section
/-! SNAPSHOT, BUILD_MASK and MGET (41_snapshot_mask.md): what each leaves and refuses, how many
cells one live cell flags, and why a dead ring makes the mask cover every change. -/

namespace Sys2Proof.Machine

/-! ### Writing a status bit with its own value -/

theorem setSnapValid_eq_self {s : State} {v : Bool} (h : s.snapValid = v) :
    s.setSnapValid v = s := by
  unfold State.setSnapValid
  rw [putBit_eq_self h]

theorem setMaskValid_eq_self {s : State} {v : Bool} (h : s.maskValid = v) :
    s.setMaskValid v = s := by
  unfold State.setMaskValid
  rw [putBit_eq_self h]

/-! ### SNAPSHOT (R100) -/

theorem snapshotTaken_eq_self {s : State} (hsnap : s.snapValid = true)
    (hmask : s.maskValid = false) : s.snapshotTaken = s := by
  unfold State.snapshotTaken
  rw [setSnapValid_eq_self hsnap, setMaskValid_eq_self hmask]

/-- FB is not written, so a second snapshot copies the same bytes. -/
theorem snapshotBody_snapshotBody (s : State) : snapshotBody (snapshotBody s) = snapshotBody s :=
  snapshotTaken_eq_self (snapValid_snapshotBody s) (maskValid_snapshotBody s)

theorem snapshotBody_status_bit (s : State) {k : Nat} (hk : k < 32) (hsnap : k ≠ 1)
    (hmask : k ≠ 2) : (snapshotBody s).status.getLsbD k = s.status.getLsbD k := by
  rw [snapshotBody_status, putBit_getLsbD _ _ _ hk, if_neg hmask, putBit_getLsbD _ _ _ hk,
    if_neg hsnap]

/-- Settles O23: the bytes by `read_copyBytes`, twice by `snapshotBody_snapshotBody`. -/
theorem snapshotCopiesEveryByte : Obligations.SnapshotCopiesEveryByte := by
  intro s
  refine ⟨snapshotBody s, exec_snapshot s, fun o ho => Memory.read_copyBytes s.fb ho,
    snapValid_snapshotBody s, maskValid_snapshotBody s,
    fun k hk hsnap hmask => snapshotBody_status_bit s hk hsnap hmask, rfl, ?_⟩
  rw [exec_snapshot, snapshotBody_snapshotBody]

/-! ### BUILD_MASK (R103, R106) -/

/-- The state BUILD_MASK answers when it is not refused. -/
def withBuiltMask (s : State) : State :=
  { s with mask := maskOf s.build s.snap }.setMaskValid true

theorem exec_buildMask_of_snapValid {s : State} (h : s.snapValid = true) :
    exec .buildMask s = .next (withBuiltMask s) := by
  rw [exec_buildMask, if_pos h]
  rfl

theorem snapValid_withBuiltMask (s : State) : (withBuiltMask s).snapValid = s.snapValid :=
  snapValid_setMaskValid _ _

/-- SNAP is not written, so a second BUILD_MASK sets the same flags. -/
theorem withBuiltMask_withBuiltMask (s : State) :
    withBuiltMask (withBuiltMask s) = withBuiltMask s :=
  setMaskValid_eq_self (s := withBuiltMask s) (maskValid_setMaskValid _ _)

/-- The flags of a completed BUILD_MASK. -/
theorem get_mask_of_buildMask {s t : State} (hsnap : s.snapValid = true)
    (hexec : exec .buildMask s = .next t) (i j : Nat) : DirtyMask.get t.mask i j = true ↔
      i < s.build.R ∧ j < s.build.R ∧ nearLive s.build s.snap i j := by
  cases hexec.symm.trans (exec_buildMask_of_snapValid hsnap)
  exact get_maskOf s.build s.snap i j

/-- Settles O24: the flags by `get_mask_of_buildMask`, twice by `withBuiltMask_withBuiltMask`. -/
theorem buildMaskFlagsNeighbourhoods : Obligations.BuildMaskFlagsNeighbourhoods := by
  intro s
  refine ⟨fun hvalid => ?_, fun hinvalid => ?_⟩
  · have hexec := exec_buildMask_of_snapValid hvalid
    refine ⟨withBuiltMask s, hexec, get_mask_of_buildMask hvalid hexec, rfl, ?_⟩
    rw [exec_buildMask_of_snapValid ((snapValid_withBuiltMask s).trans hvalid),
      withBuiltMask_withBuiltMask]
  · rw [exec_buildMask, hinvalid, ← raise_seqErr_eq]
    rfl

/-! ### The flags of one live cell (R106) -/

/-- The region cells with a property are counted as a set: `regionCells` lists each once. -/
theorem countP_regionCells (b : Build) (p : Nat × Nat → Bool) (cells : Finset (Nat × Nat))
    (h : ∀ i j, (i, j) ∈ cells ↔ i < b.R ∧ j < b.R ∧ p (i, j) = true) :
    (regionCells b).countP p = cells.card := by
  have hcells : ((regionCells b).filter p).toFinset = cells := by
    ext ⟨i, j⟩
    rw [List.mem_toFinset, List.mem_filter, mem_regionCells, h, and_assoc]
  rw [List.countP_eq_length_filter, ← hcells,
    List.toFinset_card_of_nodup ((nodup_regionCells b).filter p)]

/-- The columns (or rows) of the region at or beside `a`. -/
def besideInRegion (R a : Nat) : Finset Nat := Finset.Icc (a - 1) (min (a + 1) (R - 1))

theorem mem_besideInRegion {R a : Nat} (ha : a < R) (i : Nat) :
    i ∈ besideInRegion R a ↔ i < R ∧ a ≤ i + 1 ∧ i ≤ a + 1 := by
  rw [besideInRegion, Finset.mem_Icc]
  omega

/-- Two at an edge of the region, three inside: the region is at least two cells wide. -/
theorem card_besideInRegion {R a : Nat} (hR : 2 ≤ R) (ha : a < R) :
    (besideInRegion R a).card = if a = 0 ∨ a + 1 = R then 2 else 3 := by
  rw [besideInRegion, Nat.card_Icc]
  split <;> omega

/-- With one live region cell, near a live cell is near that one. -/
theorem nearLive_iff_of_isolated {b : Build} {snap : Memory} {a c : Nat} (ha : a < b.R)
    (hc : c < b.R) (honly : ∀ i j, i < b.R → j < b.R →
      (cellAt snap (cellX b i) (cellY b j) = true ↔ i = a ∧ j = c)) (i j : Nat) :
    nearLive b snap i j ↔ (a ≤ i + 1 ∧ i ≤ a + 1) ∧ (c ≤ j + 1 ∧ j ≤ c + 1) := by
  constructor
  · rintro ⟨a', c', ha', hc', hai, hia, hcj, hjc, hlive⟩
    obtain ⟨rfl, rfl⟩ := (honly a' c' ha' hc').1 hlive
    exact ⟨⟨hai, hia⟩, hcj, hjc⟩
  · rintro ⟨⟨hai, hia⟩, hcj, hjc⟩
    exact ⟨a, c, ha, hc, hai, hia, hcj, hjc, (honly a c ha hc).2 ⟨rfl, rfl⟩⟩

/-- Settles O25: the flagged cells are the product of the columns beside `a` and the rows beside
`c`. -/
theorem isolatedCellFlagCounts : Obligations.IsolatedCellFlagCounts := by
  intro s t a c ha hc honly hvalid hexec
  have hR := (build_legal s.build).2.1
  rw [← card_besideInRegion hR ha, ← card_besideInRegion hR hc, ← Finset.card_product]
  refine countP_regionCells s.build _ _ fun i j => ?_
  rw [Finset.mem_product, mem_besideInRegion ha, mem_besideInRegion hc,
    get_mask_of_buildMask hvalid hexec, nearLive_iff_of_isolated ha hc honly]
  tauto

/-! ### MGET (R105) -/

/-- Settles O26: MASK_VALID decides between the flag and SEQERR. -/
theorem mgetReadsFlag : Obligations.MgetReadsFlag := by
  intro i j s
  refine ⟨fun hvalid => ?_, fun hinvalid => ?_⟩
  · rw [exec_mget, if_pos hvalid]
    simp only [resultOfBit_eq, ← ite_and, and_assoc]
  · rw [exec_mget, hinvalid, ← raise_seqErr_eq]
    rfl

/-! ### The mask covers every change (R104) -/

/-- A cell that is dead, with all its neighbours dead, stays dead. -/
theorem live_or_neighbour_of_change {m : Memory} {x y : Coord}
    (h : nextValue m x y ≠ cellAt m x y) :
    cellAt m x y = true ∨ ∃ d ∈ mooreOffsets, cellAt m (x + d.1) (y + d.2) = true := by
  by_contra hdead
  obtain ⟨hcell, hneighbours⟩ := not_or.1 hdead
  have hcount : liveNeighbours m x y = 0 :=
    List.countP_eq_zero.2 fun d hd hlive => hneighbours ⟨d, hd, hlive⟩
  exact h (by simp [nextValue, hcount, hcell])

theorem mooreOffsets_small : ∀ d ∈ mooreOffsets,
    (d.1 = 0xFFFF ∨ d.1 = 0 ∨ d.1 = 1) ∧ (d.2 = 0xFFFF ∨ d.2 = 0 ∨ d.2 = 1) := by
  simp [mooreOffsets]

/-- The wrapping sum moves by at most one when it stays on the grid. -/
theorem add_small_toNat {x e : Coord} (he : e = 0xFFFF ∨ e = 0 ∨ e = 1) (hx : x.toNat < 256)
    (hsum : (x + e).toNat < 256) : (x + e).toNat ≤ x.toNat + 1 ∧ x.toNat ≤ (x + e).toNat + 1 := by
  rcases he with rfl | rfl | rfl
  · bv_omega
  · bv_omega
  · bv_omega

/-- With the ring dead, a live cell in or just outside the region is in it. -/
theorem inRegion_of_live {b : Build} {m : Memory} (hring : ringDead b m) {x y : Coord}
    (hlive : cellAt m x y = true) (hx : b.x0 ≤ x.toNat + 1 ∧ x.toNat ≤ b.x0 + b.R)
    (hy : b.y0 ≤ y.toNat + 1 ∧ y.toNat ≤ b.y0 + b.R) : inRegion b x y = true := by
  by_contra hout
  have hin : inRing b x y = true := by
    rw [inRing, Bool.eq_false_iff.2 hout]
    simp [hx, hy]
  rw [hring x y hin] at hlive
  exact Bool.false_ne_true hlive

/-- With the ring dead, a live neighbour of a region cell is a region cell; one beyond the grid's
edge, where the coordinates wrap, is dead. -/
theorem nearLive_of_live_neighbour {b : Build} {m : Memory} (hring : ringDead b m) {i j : Nat}
    (hi : i < b.R) (hj : j < b.R) {d : Coord × Coord} (hd : d ∈ mooreOffsets)
    (hlive : cellAt m (cellX b i + d.1) (cellY b j + d.2) = true) : nearLive b m i j := by
  obtain ⟨hdx, hdy⟩ := mooreOffsets_small d hd
  obtain ⟨hx, hy⟩ := (inRange_iff _ _).1 (cell_inRange b hi hj)
  obtain ⟨hx', hy', -⟩ := (cellAt_iff _ _ _).1 hlive
  have hxnear := add_small_toNat hdx hx hx'
  have hynear := add_small_toNat hdy (hy.trans (by decide)) (hy'.trans (by decide))
  rw [cellX_toNat b hi] at hxnear
  rw [cellY_toNat b hj] at hynear
  obtain ⟨a, c, ha, hc, hxa, hyc⟩ :=
    cell_of_inRegion (inRegion_of_live hring hlive (by omega) (by omega))
  rw [hxa, cellX_toNat b ha] at hxnear
  rw [hyc, cellY_toNat b hc] at hynear
  exact ⟨a, c, ha, hc, by omega, by omega, by omega, by omega, hxa ▸ hyc ▸ hlive⟩

/-- Settles O27: a cell that changes is live or has a live neighbour, and the dead ring puts that
neighbour in the region. -/
theorem maskCoversChanges : Obligations.MaskCoversChanges := by
  intro s t hvalid hring hexec i j hi hj hchange
  refine (get_mask_of_buildMask hvalid hexec i j).2 ⟨hi, hj, ?_⟩
  rcases live_or_neighbour_of_change hchange with hlive | ⟨d, hd, hlive⟩
  · exact ⟨i, j, hi, hj, by omega, by omega, by omega, by omega, hlive⟩
  · exact nearLive_of_live_neighbour hring hi hj hd hlive

end Sys2Proof.Machine
end

section
/-! The AutomatonStepper (42_stepper.md): the counter as a sum of eight cells, the write-back as one
port write, what STEP and TICK leave in every cell and byte, and the cells outside the region. -/

namespace Sys2Proof.Machine

/-! ### The rule (R121) -/

theorem lifeRule_iff (alive : Bool) (n : BitVec 4) :
    lifeRule alive n = true ↔ n = 3 ∨ (alive = true ∧ n = 2) := by
  simp [lifeRule]

/-- Settles O29: the table is read off the closed form `lifeRule_iff`. -/
theorem lifeRuleIsTheTable : Obligations.LifeRuleIsTheTable := by
  intro alive n _
  have hfalse : ¬ (n = 3 ∨ (alive = true ∧ n = 2)) → lifeRule alive n = false := fun h =>
    Bool.eq_false_iff.2 ((lifeRule_iff alive n).not.2 h)
  refine ⟨fun halive hn => ?survives, fun _ hn => hfalse ?dies, fun _ hn => ?born,
    fun hdead hn => hfalse ?stays, lifeRule_iff alive n⟩
  case survives => exact (lifeRule_iff alive n).2 (hn.symm.imp_right fun h2 => ⟨halive, h2⟩)
  case dies =>
    rintro (rfl | ⟨-, rfl⟩)
    · exact absurd hn (by decide)
    · exact absurd hn (by decide)
  case born => exact (lifeRule_iff alive n).2 (.inl hn)
  case stays =>
    rintro (h3 | ⟨halive, -⟩)
    · exact hn h3
    · exact Bool.false_ne_true (hdead.symm.trans halive)

/-! ### The neighbour counter (R120, R131) -/

/-- The coordinate 0xFFFF of R120 is -1: sums wrap in 16 bits. -/
theorem coord_add_allOnes (x : Coord) : x + 0xFFFF = x - 1 :=
  (BitVec.sub_eq_add_neg x 1).symm

/-- The count, neighbour by neighbour. -/
theorem liveNeighbours_eq_sum (m : Memory) (x y : Coord) : liveNeighbours m x y =
    (cellAt m (x - 1) (y - 1)).toNat + (cellAt m x (y - 1)).toNat +
      (cellAt m (x + 1) (y - 1)).toNat + (cellAt m (x - 1) y).toNat + (cellAt m (x + 1) y).toNat +
      (cellAt m (x - 1) (y + 1)).toNat + (cellAt m x (y + 1)).toNat +
      (cellAt m (x + 1) (y + 1)).toNat := by
  have hzero : ∀ z : Coord, z + 0 = z := add_zero
  have hone : ∀ v : Bool, (if v = true then 1 else 0) = v.toNat := by decide
  simp only [liveNeighbours, mooreOffsets, List.countP_cons, List.countP_nil, coord_add_allOnes,
    hzero, hone]
  omega

/-- Settles O30: the counter completes by `neighbourCount_eq`, at most 8 by `liveNeighbours_le`. -/
theorem neighbourCounterCounts : Obligations.NeighbourCounterCounts := by
  intro m x y
  refine ⟨_, neighbourCount_eq m x y, ?_, ?_⟩
  · rw [count_toNat]
    exact liveNeighbours_le m x y
  · rw [count_toNat, liveNeighbours_eq_sum]

/-- A column outside the grid is dead (R131). -/
theorem cellAt_column_outside (m : Memory) {x : Coord} (hx : 256 ≤ x.toNat) (y : Coord) :
    cellAt m x y = false :=
  cellAt_outside m (inRange_eq_false (by omega))

/-- A row outside the grid is dead (R131). -/
theorem cellAt_row_outside (m : Memory) (x : Coord) {y : Coord} (hy : 192 ≤ y.toNat) :
    cellAt m x y = false :=
  cellAt_outside m (inRange_eq_false (by omega))

/-- Settles O31: of the eight summands the three beyond the edge are 0. -/
theorem noWraparound : Obligations.NoWraparound := by
  intro m x
  have htop : ∀ x, cellAt m x (0 - 1) = false := fun x => cellAt_row_outside m x (by decide)
  have hbottom : ∀ x, cellAt m x (191 + 1) = false := fun x => cellAt_row_outside m x (by decide)
  have hleft : ∀ y, cellAt m (0 - 1) y = false := cellAt_column_outside m (by decide)
  have hright : ∀ y, cellAt m (255 + 1) y = false := cellAt_column_outside m (by decide)
  have hbelow : (0 + 1 : Coord) = 1 := rfl
  have habove : (191 - 1 : Coord) = 190 := rfl
  have hbefore : (255 - 1 : Coord) = 254 := rfl
  refine ⟨?_, ?_, ?_, ?_⟩ <;> rw [liveNeighbours_eq_sum]
  · simp only [htop, hbelow, Bool.toNat_false]
    omega
  · simp only [hbottom, habove, Bool.toNat_false]
    omega
  · simp only [hleft, hbelow, Bool.toNat_false]
    omega
  · simp only [hright, hbefore, Bool.toNat_false]
    omega

/-! ### The write-back (R122) -/

/-- A bit write in range is one port write of the merged byte (40_translate_access.md R84). -/
theorem fbSetBit_eq_portWrite (fb : Memory) {x y : Coord} (h : inRange x y = true) (v : Bool) :
    fbSetBit fb x y v = portWrite fb (offset x y)
      (mergeBit (Memory.read fb (offset x y).toNat) (bitMask x) v) := by
  unfold fbSetBit
  rw [if_pos h, portRead_ok fb (offset_lt h)]
  rfl

/-- Settles O32: the visit of a flagged cell is a bit write of the rule's result. -/
theorem writeBackReplacesOneBit : Obligations.WriteBackReplacesOneBit := by
  intro b mask snap fb i j hi hj hflag
  refine ⟨_, neighbourCount_eq _ _ _, ?_⟩
  unfold stepVisit
  rw [if_pos hflag, stepCell_eq, ← fbSetBit_eq, fbSetBit_eq_portWrite fb (cell_inRange b hi hj),
    lifeRule_count]
  rfl

/-! ### The bytes STEP leaves alone (R128) -/

theorem read_setCell_of_ne {m : Memory} (hm : Memory.wf m) {x y : Coord} (v : Bool) {o : Nat}
    (ho : (offset x y).toNat ≠ o) :
    Memory.read (Memory.setCell m x y v) o = Memory.read m o := by
  cases hin : inRange x y
  · rw [setCell_outside m hin]
  · rw [read_setCell_byte hm.1 hin, if_neg ho.symm]

section bytes
variable (b : Build) (mask : DirtyMask) (snap : Memory) {fb : Memory} {o : Nat}

theorem read_stepOne_of_ne (hfb : Memory.wf fb) {c : Nat × Nat}
    (ho : DirtyMask.get mask c.1 c.2 = true → (offset (cellX b c.1) (cellY b c.2)).toNat ≠ o) :
    Memory.read (stepOne b mask snap fb c) o = Memory.read fb o := by
  unfold stepOne
  split
  · next hflag => exact read_setCell_of_ne hfb _ (ho hflag)
  · rfl

theorem read_stepFold_of_ne (hfb : Memory.wf fb) (l : List (Nat × Nat))
    (ho : ∀ c ∈ l, DirtyMask.get mask c.1 c.2 = true →
      (offset (cellX b c.1) (cellY b c.2)).toNat ≠ o) :
    Memory.read (l.foldl (stepOne b mask snap) fb) o = Memory.read fb o := by
  induction l generalizing fb with
  | nil => rfl
  | cons c l ih =>
    obtain ⟨hc, hl⟩ := List.forall_mem_cons.1 ho
    rw [List.foldl_cons, ih (stepOne_wf b mask snap c hfb) hl,
      read_stepOne_of_ne b mask snap hfb hc]

theorem read_stepFb_of_ne (hfb : Memory.wf fb)
    (ho : ∀ i j, i < b.R → j < b.R → DirtyMask.get mask i j = true →
      (offset (cellX b i) (cellY b j)).toNat ≠ o) :
    Memory.read (stepFb b mask snap fb) o = Memory.read fb o := by
  unfold stepFb
  refine read_stepFold_of_ne b mask snap hfb _ fun c hc => ?_
  obtain ⟨hi, hj⟩ := (mem_regionCells b c.1 c.2).1 hc
  exact ho c.1 c.2 hi hj

end bytes

/-! ### STEP (R123, R124, R127, R129) -/

/-- The state STEP answers when it is not refused. -/
def withSteppedFb (s : State) : State :=
  { s with fb := stepFb s.build s.mask s.snap s.fb }

theorem exec_step_of_maskValid {s : State} (h : s.maskValid = true) :
    exec .step s = .next (withSteppedFb s) := by
  rw [exec_step, if_pos h]
  rfl

/-- Settles O33: the cells and the bytes of FB after STEP are a law of `stepFb` each. -/
theorem stepAppliesRuleToFlaggedCells : Obligations.StepAppliesRuleToFlaggedCells := by
  intro s hfb
  refine ⟨fun hvalid => ?_, fun hinvalid => ?_⟩
  · exact ⟨withSteppedFb s, exec_step_of_maskValid hvalid, rfl,
      fun i j => cellAt_stepFb_cell s.build s.mask s.snap hfb,
      fun x y => cellAt_stepFb_outside s.build s.mask s.snap hfb,
      fun o => read_stepFb_of_ne s.build s.mask s.snap hfb⟩
  · rw [exec_step, hinvalid, ← raise_seqErr_eq]
    rfl

/-- A cell after visits depends only on which cells were visited, so their order does not matter. -/
theorem stepFold_perm (b : Build) (mask : DirtyMask) (snap : Memory) {fb : Memory}
    (hfb : Memory.wf fb) {l l' : List (Nat × Nat)} (hperm : l.Perm l') :
    l.foldl (stepOne b mask snap) fb = l'.foldl (stepOne b mask snap) fb := by
  refine memory_ext_cells (stepFold_wf b mask snap l hfb) (stepFold_wf b mask snap l' hfb)
    fun x y hin => ?_
  simp only [cellAt_stepFold b mask snap _ hfb x y hin, hperm.mem_iff]

/-- Settles O34 by `stepFold_perm`. -/
theorem stepIgnoresVisitOrder : Obligations.StepIgnoresVisitOrder := by
  intro b mask snap fb cells hfb hperm
  refine ⟨_, stepCells_eq b mask snap fb _, ?_⟩
  rw [stepCells_eq, stepFold_perm b mask snap hfb hperm]

/-- Equal in the region and equal outside it, two arrays in canonical form are equal. -/
theorem memory_ext_region (b : Build) {m n : Memory} (hm : Memory.wf m) (hn : Memory.wf n)
    (hregion : ∀ i j, i < b.R → j < b.R →
      cellAt m (cellX b i) (cellY b j) = cellAt n (cellX b i) (cellY b j))
    (houtside : ∀ x y, inRegion b x y = false → cellAt m x y = cellAt n x y) : m = n := by
  refine memory_ext_cells hm hn fun x y _ => ?_
  cases h : inRegion b x y with
  | false => exact houtside x y h
  | true =>
    obtain ⟨i, j, hi, hj, rfl, rfl⟩ := cell_of_inRegion h
    exact hregion i j hi hj

/-- STEP reads MASK and SNAP, which it does not write: the second pass writes what is there. -/
theorem stepFb_stepFb (b : Build) (mask : DirtyMask) (snap : Memory) {fb : Memory}
    (hfb : Memory.wf fb) :
    stepFb b mask snap (stepFb b mask snap fb) = stepFb b mask snap fb := by
  have hstepped := stepFb_wf b mask snap hfb
  refine memory_ext_region b (stepFb_wf b mask snap hstepped) hstepped (fun i j hi hj => ?_)
    fun x y hout => cellAt_stepFb_outside b mask snap hstepped hout
  rw [cellAt_stepFb_cell b mask snap hstepped hi hj]
  split
  · next hflag => rw [cellAt_stepFb_cell b mask snap hfb hi hj, if_pos hflag]
  · rfl

/-- Settles O35 by `stepFb_stepFb`. -/
theorem stepIsIdempotent : Obligations.StepIsIdempotent := by
  intro s t hfb hvalid hexec
  cases hexec.symm.trans (exec_step_of_maskValid hvalid)
  have hsame : withSteppedFb (withSteppedFb s) = withSteppedFb s := by
    simp only [withSteppedFb, stepFb_stepFb _ _ _ hfb]
  have hvalid' : (withSteppedFb s).maskValid = true := hvalid
  rw [exec_step_of_maskValid hvalid', hsame]

/-! ### TICK (R133) -/

/-- The state before TICK's STEP: SNAP is FB, MASK is rebuilt from it. -/
def preparedTick (s : State) : State := withBuiltMask (snapshotBody s)

theorem exec_buildMask_snapshotBody (s : State) :
    exec .buildMask (snapshotBody s) = .next (preparedTick s) :=
  exec_buildMask_of_snapValid (snapValid_snapshotBody s)

theorem snapValid_preparedTick (s : State) : (preparedTick s).snapValid = true :=
  (snapValid_withBuiltMask _).trans (snapValid_snapshotBody s)

theorem maskValid_preparedTick (s : State) : (preparedTick s).maskValid = true :=
  maskValid_setMaskValid _ _

theorem exec_step_preparedTick (s : State) :
    exec .step (preparedTick s) = .next (withSteppedFb (preparedTick s)) :=
  exec_step_of_maskValid (maskValid_preparedTick s)

theorem exec_tick_eq_three (s : State) :
    exec .tick s = .next (withSteppedFb (preparedTick s)) :=
  exec_eq_effect .tick s

theorem preparedTick_status_bit (s : State) {k : Nat} (hk : k < 32) (hsnap : k ≠ 1)
    (hmask : k ≠ 2) : (preparedTick s).status.getLsbD k = s.status.getLsbD k := by
  have hstatus : (preparedTick s).status = putBit (snapshotBody s).status maskValidBit true := rfl
  rw [hstatus, putBit_getLsbD _ _ _ hk, if_neg hmask, snapshotBody_status_bit s hk hsnap hmask]

/-- Settles O36: each of the three completes, the last in TICK's state. -/
theorem tickIsThreeCommands : Obligations.TickIsThreeCommands := fun s =>
  ⟨snapshotBody s, preparedTick s, withSteppedFb (preparedTick s), exec_snapshot s,
    exec_buildMask_snapshotBody s, exec_step_preparedTick s, exec_tick_eq_three s,
    snapValid_preparedTick s, maskValid_preparedTick s,
    fun _ hk hsnap hmask => preparedTick_status_bit s hk hsnap hmask, rfl⟩

/-! ### One generation (R126, R132) -/

section tick
variable {s : State} (hfb : Memory.wf s.fb)
include hfb

theorem preparedTick_snap : (preparedTick s).snap = s.fb :=
  Memory.copyBytes_eq hfb

theorem tick_fb_wf : Memory.wf (withSteppedFb (preparedTick s)).fb :=
  stepFb_wf _ _ _ hfb

theorem cellAt_tick_outside {x y : Coord} (h : inRegion s.build x y = false) :
    cellAt (withSteppedFb (preparedTick s)).fb x y = cellAt s.fb x y :=
  cellAt_stepFb_outside _ _ _ hfb h

/-- An unflagged region cell would not change: `maskCoversChanges` flags the others. -/
theorem cellAt_tick_cell (hring : ringDead s.build s.fb) {i j : Nat} (hi : i < s.build.R)
    (hj : j < s.build.R) :
    cellAt (withSteppedFb (preparedTick s)).fb (cellX s.build i) (cellY s.build j) =
      nextValue s.fb (cellX s.build i) (cellY s.build j) := by
  have hsnap : (snapshotBody s).snap = s.fb := Memory.copyBytes_eq hfb
  have hcovers := maskCoversChanges (snapshotBody s) (preparedTick s) (snapValid_snapshotBody s)
    (hsnap.symm ▸ hring) (exec_buildMask_snapshotBody s) i j hi hj
  rw [hsnap] at hcovers
  refine (cellAt_stepFb_cell _ _ _ hfb hi hj).trans ?_
  rw [preparedTick_snap hfb]
  split
  · rfl
  · next hunflagged => exact (not_imp_comm.1 hcovers hunflagged).symm

end tick

/-- Settles O38: a cell in the region by `cellAt_tick_cell`, another by `cellAt_tick_outside`. -/
theorem tickIsOneGeneration : Obligations.TickIsOneGeneration := by
  intro s hfb hring
  refine ⟨_, exec_tick_eq_three s, fun x y hin => ?_, fun x y => cellAt_tick_outside hfb⟩
  obtain ⟨i, j, hi, hj, rfl, rfl⟩ := cell_of_inRegion hin
  exact cellAt_tick_cell hfb hring hi hj

/-! ### FullStep (R125) -/

/-- The MASK that flags every cell. -/
def DirtyMask.full : DirtyMask := Vector.replicate Config.maxSide (BitVec.allOnes Config.maxSide)

theorem get_full {i j : Nat} (hi : i < Config.maxSide) (hj : j < Config.maxSide) :
    DirtyMask.get DirtyMask.full i j = true := by
  unfold DirtyMask.get DirtyMask.full
  rw [dif_pos hj, Vector.getElem_replicate, BitVec.getLsbD_allOnes]
  exact decide_eq_true hi

theorem get_full_region (b : Build) {i j : Nat} (hi : i < b.R) (hj : j < b.R) :
    DirtyMask.get DirtyMask.full i j = true :=
  get_full (hi.trans_le b.legal.2.2) (hj.trans_le b.legal.2.2)

/-- FullStep is STEP under the full mask. -/
theorem fullStep_eq_stepFb (b : Build) (snap fb : Memory) :
    fullStep b snap fb = .ok (stepFb b DirtyMask.full snap fb) := by
  rw [fullStep_eq]
  unfold stepFb
  refine congrArg _ (List.foldl_ext _ _ _ fun m c hc => ?_)
  obtain ⟨hi, hj⟩ := (mem_regionCells b c.1 c.2).1 hc
  exact (if_pos (get_full_region b hi hj)).symm

/-- Settles O37: both leave the next value in every region cell and the others alone. -/
theorem maskedStepEqualsFullStep : Obligations.MaskedStepEqualsFullStep := by
  intro s hfb hring
  have hfull : stepFb s.build DirtyMask.full (preparedTick s).snap s.fb =
      (withSteppedFb (preparedTick s)).fb := by
    refine memory_ext_region s.build (stepFb_wf _ _ _ hfb) (tick_fb_wf hfb) (fun i j hi hj => ?_)
      fun x y hout => ?_
    · rw [cellAt_stepFb_cell _ _ _ hfb hi hj, if_pos (get_full_region _ hi hj),
        preparedTick_snap hfb, cellAt_tick_cell hfb hring hi hj]
    · rw [cellAt_stepFb_outside _ _ _ hfb hout, cellAt_tick_outside hfb hout]
  exact ⟨snapshotBody s, preparedTick s, _, _, exec_snapshot s, exec_buildMask_snapshotBody s,
    exec_step_preparedTick s, exec_tick_eq_three s,
    (fullStep_eq_stepFb _ _ _).trans (congrArg _ hfull), rfl⟩

/-! ### The isolated point (R132) -/

theorem nodup_mooreOffsets : mooreOffsets.Nodup := by decide

/-- A single live cell is the neighbour of a cell at most once. -/
theorem liveNeighbours_le_one {m : Memory} {x y : Coord}
    (honly : ∀ x' y', cellAt m x' y' = true → x' = x ∧ y' = y) (x' y' : Coord) :
    liveNeighbours m x' y' ≤ 1 := by
  have hoffset : ∀ d ∈ mooreOffsets, cellAt m (x' + d.1) (y' + d.2) = true →
      (d == (x - x', y - y')) = true := by
    intro d _ hlive
    obtain ⟨rfl, rfl⟩ := honly _ _ hlive
    simp
  calc liveNeighbours m x' y'
      ≤ mooreOffsets.count (x - x', y - y') := List.countP_mono_left hoffset
    _ ≤ 1 := List.nodup_iff_count_le_one.1 nodup_mooreOffsets _

/-- A cell lives on only with two live neighbours or three. -/
theorem nextValue_eq_false {m : Memory} {x y : Coord} (h : liveNeighbours m x y ≤ 1) :
    nextValue m x y = false := by
  have h2 : liveNeighbours m x y ≠ 2 := by omega
  have h3 : liveNeighbours m x y ≠ 3 := by omega
  simp [nextValue, h2, h3]

/-- The ring is outside the region. -/
theorem inRegion_of_inRing {b : Build} {x y : Coord} (h : inRing b x y = true) :
    inRegion b x y = false := by
  unfold inRing at h
  exact (Bool.not_eq_true' _).mp (Bool.and_eq_true_iff.1 h).2

/-- Settles O39: the ring is dead, so TICK is one generation, in which no cell has two live
neighbours. -/
theorem isolatedCellDies : Obligations.IsolatedCellDies := by
  intro s t x y hfb hin honly hexec x' y'
  cases hexec.symm.trans (exec_tick_eq_three s)
  have houtside : ∀ x' y', inRegion s.build x' y' = false → cellAt s.fb x' y' = false := by
    intro x' y' hout
    by_contra hlive
    obtain ⟨rfl, rfl⟩ := (honly x' y').1 (Bool.not_eq_false _ ▸ hlive)
    exact Bool.false_ne_true (hout.symm.trans hin)
  have hring : ringDead s.build s.fb := fun x' y' h => houtside x' y' (inRegion_of_inRing h)
  cases hregion : inRegion s.build x' y' with
  | false => exact (cellAt_tick_outside hfb hregion).trans (houtside x' y' hregion)
  | true =>
    obtain ⟨i, j, hi, hj, rfl, rfl⟩ := cell_of_inRegion hregion
    exact (cellAt_tick_cell hfb hring hi hj).trans
      (nextValue_eq_false (liveNeighbours_le_one (fun _ _ => (honly _ _).1) _ _))

/-! ### Outside the region (R127, R130) -/

theorem cellAt_effect_outside {i : Instr} {s : State} (hfb : Memory.wf s.fb)
    (hset : ∀ x y v, i ≠ .set x y v) {x y : Coord} (hout : inRegion s.build x y = false) :
    cellAt (effect i s).fb x y = cellAt s.fb x y := by
  by_cases hstep : i = .step
  · subst hstep
    dsimp only [effect]
    split
    · exact cellAt_stepFb_outside _ _ _ hfb hout
    · rfl
  by_cases htick : i = .tick
  · subst htick
    exact cellAt_tick_outside hfb hout
  · rw [effect_fb s hset hstep htick]

/-- Settles O44 by `cellAt_effect_outside`. -/
theorem onlySetWritesOutsideRegion : Obligations.OnlySetWritesOutsideRegion := by
  intro i s t hfb hset hexec x y hout
  rw [eq_effect_of_exec hexec, cellAt_effect_outside hfb hset hout]

/-- Settles O40: the ring lies outside the region, and no command moves the region. -/
theorem ringStaysDead : Obligations.RingStaysDead := by
  intro i s t hfb hset hring hexec x y hin
  obtain rfl := eq_effect_of_exec hexec
  obtain ⟨hbuild, -⟩ := effect_outside i s
  rw [hbuild] at hin
  rw [cellAt_effect_outside hfb hset (inRegion_of_inRing hin), hring x y hin]

end Sys2Proof.Machine
end

section
/-! The control commands (43_control.md). A word whose opcode takes no operand is legal only with every
other bit 0; CLRSTAT lowers the two sticky bits. -/

namespace Sys2Proof.Machine

/-! ### Words of a command without operands -/

/-- A legal word of format N holds its opcode alone (30_encoding.md R66). -/
theorem eq_packWord_of_format_n {w : CmdWord} {i : Instr} (hlegal : decode w = .ok i)
    (hformat : Format.ofOpcode (w.extractLsb' 60 4) = some .n) :
    w = packWord (w.extractLsb' 60 4) 0 0 false := by
  obtain ⟨hwf, hcommand⟩ := (decode_eq_ok_iff w i).1 hlegal
  simp only [Fields.wellFormed, Bool.and_eq_true] at hwf
  obtain ⟨-, hunused⟩ := hwf
  have hword := (encode_of_decode hlegal).symm.trans (encode_of_command hunused hcommand)
  have hop : Format.ofOpcode (Fields.ofWord w).op = some .n := hformat
  simp only [Fields.unusedOk, hop, Bool.and_eq_true, beq_iff_eq, Bool.not_eq_true'] at hunused
  obtain ⟨⟨hx, hy⟩, hv⟩ := hunused
  rwa [hx, hy, hv] at hword

/-- Every other word with an opcode of format N sets ILL and nothing else. -/
theorem runWord_sets_ill_of_format_n {w : CmdWord} {op : BitVec 4}
    (hformat : Format.ofOpcode op = some .n) (hop : w.extractLsb' 60 4 = op)
    (hne : w ≠ packWord op 0 0 false) (s : State) :
    runWord w s = .next { s with status := s.status ||| 0x100 } := by
  subst hop
  cases hdecode : decode w with
  | ok i => exact absurd (eq_packWord_of_format_n hdecode hformat) hne
  | error e => exact runWord_sets_ill hdecode s

/-- Settles O11: 0 is the one legal word with opcode 0. -/
theorem nopDoesNothing : Obligations.NopDoesNothing :=
  ⟨exec_nop, rfl, fun _ s hop hne => runWord_sets_ill_of_format_n rfl hop hne s⟩

/-! ### The sticky bits -/

theorem lower_eq_self {s : State} {c : Cause} (h : s.status.getLsbD c.bit = false) :
    s.lower c = s := by
  unfold State.lower
  rw [putBit_eq_self h]

/-- Bits 8 and 9 lowered, as one mask. -/
theorem lower_ill_seqErr_eq (s : State) :
    (s.lower .ill).lower .seqErr = { s with status := s.status &&& 0xFFFFFCFF } := by
  have hmask : putBit (putBit s.status 8 false) 9 false = s.status &&& 0xFFFFFCFF :=
    BitVec.and_assoc _ _ _
  exact congrArg (fun status => { s with status := status }) hmask

theorem exec_clrstat_eq (s : State) :
    exec .clrstat s = .next { s with status := s.status &&& 0xFFFFFCFF } := by
  rw [exec_clrstat, lower_ill_seqErr_eq]

theorem exec_clrstat_of_clear {s : State} (hill : s.ill = false) (hseqErr : s.seqErr = false) :
    exec .clrstat s = .next s := by
  rw [exec_clrstat, lower_eq_self (c := .ill) hill, lower_eq_self (c := .seqErr) hseqErr]

/-- Settles O12: both bits go by one mask, and lowering a bit that is 0 changes nothing. -/
theorem clrstatClearsStickyBits : Obligations.ClrstatClearsStickyBits := by
  refine ⟨exec_clrstat_eq, rfl, fun _ s hop hne => runWord_sets_ill_of_format_n rfl hop hne s,
    fun _ => exec_clrstat_of_clear, fun s hstatus => ?_⟩
  rw [exec_clrstat_eq, hstatus]
  rfl

end Sys2Proof.Machine
end

section
/-! Errors and power (60_exceptions.md): every command completes, a word raises at most one cause, a
coordinate out of range is no error, a power cycle clears the registers. -/

namespace Sys2Proof.Machine

/-- Settles O42: the next state is `effect`. -/
theorem everyCommandCompletes : Obligations.EveryCommandCompletes := fun i s =>
  ⟨effect i s, exec_eq_effect i s⟩

/-! ### One cause at a time (R160, R162) -/

/-- A command that sets SEQERR is one of the four refusals, which have no other effect. -/
theorem effect_eq_raise_of_seqErr {i : Instr} {s : State} (hclear : s.seqErr = false)
    (hset : (effect i s).seqErr = true) : effect i s = s.raise .seqErr := by
  obtain ⟨-, -, -, hseqErr⟩ := statusBitsOfEveryCommand i s _ (exec_eq_effect i s)
  rcases hseqErr.1 hset with
    ⟨hold, -⟩ | ⟨hsnap, rfl | ⟨x, y, rfl⟩⟩ | ⟨hmask, rfl | ⟨i, j, rfl⟩⟩
  · exact absurd hold (Bool.eq_false_iff.1 hclear)
  · exact if_neg (Bool.eq_false_iff.1 hsnap)
  · exact if_neg (Bool.eq_false_iff.1 hsnap)
  · exact if_neg (Bool.eq_false_iff.1 hmask)
  · exact if_neg (Bool.eq_false_iff.1 hmask)

/-- A word that sets SEQERR has no other effect: an illegal one leaves SEQERR alone. -/
theorem runWord_eq_raise_of_seqErr {w : CmdWord} {s t : State} (hrun : runWord w s = .next t)
    (hclear : s.seqErr = false) (hset : t.seqErr = true) : t = s.raise .seqErr := by
  cases hw : decode w with
  | error e =>
    rw [runWord_of_illegal hw] at hrun
    cases hrun
    simp [hclear] at hset
  | ok i =>
    rw [runWord_of_legal hw] at hrun
    obtain rfl := eq_effect_of_exec hrun
    exact effect_eq_raise_of_seqErr hclear hset

/-- A legal word never sets ILL. -/
theorem ill_of_runWord_legal {w : CmdWord} {i : Instr} {s t : State} (hlegal : decode w = .ok i)
    (hrun : runWord w s = .next t) (hset : t.ill = true) : s.ill = true := by
  rw [runWord_of_legal hlegal] at hrun
  obtain ⟨-, -, hill, -⟩ := statusBitsOfEveryCommand i s t hrun
  rw [hset] at hill
  exact (Bool.and_eq_true_iff.1 hill.symm).1

/-- Settles O46: the state after SEQERR is set is the refusal's, in which ILL is unchanged, so no
word sets both. -/
theorem illIsCheckedFirst : Obligations.IllIsCheckedFirst := by
  intro w s t hrun
  refine ⟨fun ⟨e, hillegal⟩ => ?_, fun ⟨i, hlegal⟩ => ill_of_runWord_legal hlegal hrun,
    fun ⟨hillClear, hillSet, hseqClear, hseqSet⟩ => ?_,
    runWord_eq_raise_of_seqErr hrun⟩
  · exact Host.Outcome.next.inj (hrun.symm.trans (runWord_sets_ill hillegal s))
  · obtain rfl := runWord_eq_raise_of_seqErr hrun hseqClear hseqSet
    simp [hillClear] at hillSet

/-! ### Coordinates out of range (R161) -/

/-- A cell outside the grid reads as the word 0. -/
theorem resultOfBit_cellAt_outside (m : Memory) {x y : Coord} (h : inRange x y = false) :
    resultOfBit (cellAt m x y) = 0 := by
  rw [cellAt_outside m h]
  rfl

/-- Settles O22: each command's equation, with the bounds check failed. -/
theorem outOfRangeIsNoError : Obligations.OutOfRangeIsNoError := by
  intro x y v s
  refine ⟨fun hout => ?_, fun hregion hvalid => ?_⟩
  · have hrange := inRange_eq_false hout
    refine ⟨?_, ?_, ?_, fun hvalid => ?_⟩
    · rw [exec_set, setCell_outside _ hrange]
    · rw [exec_get, resultOfBit_cellAt_outside _ hrange]
    · rw [exec_xlate, hrange]
      rfl
    · rw [exec_sget, if_pos hvalid, resultOfBit_cellAt_outside _ hrange]
  · rw [exec_mget, if_pos hvalid, if_neg (by omega)]

/-! ### Power off and on (R171) -/

/-- A power cycle never waits. -/
theorem step_powerCycle {s : State} {rest : List HostInput}
    (hpower : s.inputs = .powerCycle :: rest) :
    step s = .next (powerCycle { s with inputs := rest }) := by
  unfold step takeInput
  rw [hpower]

/-- Settles O50: the step is `powerCycle`, whose arrays are tabulated and so well formed. -/
theorem powerCycleClearsRegisters : Obligations.PowerCycleClearsRegisters := fun s _ hpower =>
  ⟨_, step_powerCycle hpower, rfl, rfl, rfl, rfl, rfl, Memory.tabulate_wf _, Memory.tabulate_wf _,
    maskInside_unspecified s.draws s.build⟩

end Sys2Proof.Machine
end

section
/-! Idling and sequences of commands (70_reset_and_hazards.md): the idle block, the stale MASK, and a
SET between SNAPSHOT and STEP. -/

namespace Sys2Proof.Machine

/-- Settles O8: with nothing offered the step is `advance`, which leaves an idle block alone. -/
theorem idleBlockStays : Obligations.IdleBlockStays := by
  intro s hidle hinputs
  unfold step takeInput
  rw [hinputs]
  exact advance_idle hidle

/-! ### The stale MASK (R188) -/

theorem exec_step_of_not_maskValid {s : State} (h : s.maskValid = false) :
    exec .step s = .next { s with status := s.status ||| 0x200 } := by
  rw [exec_step, h, ← raise_seqErr_eq]
  rfl

/-- Settles O28: SNAPSHOT clears MASK_VALID, which STEP and MGET check, and sets SNAP_VALID, which
BUILD_MASK checks. -/
theorem staleMaskIsRefused : Obligations.StaleMaskIsRefused := by
  intro s
  have hstale := maskValid_snapshotBody s
  refine ⟨snapshotBody s, exec_snapshot s, exec_step_of_not_maskValid hstale, fun i j => ?_,
    preparedTick s, exec_buildMask_snapshotBody s, maskValid_preparedTick s⟩
  obtain ⟨-, hrefused⟩ := mgetReadsFlag i j (snapshotBody s)
  exact hrefused hstale

/-! ### A SET between SNAPSHOT and STEP (R185) -/

/-- The state before STEP, when SNAPSHOT, BUILD_MASK and one SET precede it. SET touches FB alone and
BUILD_MASK reads SNAP alone, so their order makes no difference. -/
def preparedWithSet (s : State) (x y : Coord) (v : Bool) : State :=
  { preparedTick s with fb := Memory.setCell s.fb x y v }

theorem exec_set_preparedTick (s : State) (x y : Coord) (v : Bool) :
    exec (.set x y v) (preparedTick s) = .next (preparedWithSet s x y v) :=
  exec_set _ x y v

theorem exec_buildMask_after_set (s : State) (x y : Coord) (v : Bool) :
    exec .buildMask { snapshotBody s with fb := Memory.setCell s.fb x y v } =
      .next (preparedWithSet s x y v) :=
  exec_buildMask_of_snapValid (snapValid_snapshotBody s)

theorem exec_step_preparedWithSet (s : State) (x y : Coord) (v : Bool) :
    exec .step (preparedWithSet s x y v) = .next (withSteppedFb (preparedWithSet s x y v)) :=
  exec_step_of_maskValid (maskValid_preparedTick s)

section set
variable {s : State} (hfb : Memory.wf s.fb) {i j : Nat} (hi : i < s.build.R) (hj : j < s.build.R)
  (v : Bool)
include hfb hi hj

/-- The SET is performed (40_translate_access.md R91). -/
theorem cellAt_setCell_cell : cellAt
    (Memory.setCell s.fb (cellX s.build i) (cellY s.build j) v) (cellX s.build i)
    (cellY s.build j) = v := by
  rw [cellAt_setCell hfb.1, if_pos ⟨cell_inRange s.build hi hj, rfl, rfl⟩]

/-- STEP overwrites the cell with its next value on SNAP where it is flagged, and only there. -/
theorem cellAt_step_preparedWithSet :
    cellAt (withSteppedFb (preparedWithSet s (cellX s.build i) (cellY s.build j) v)).fb
      (cellX s.build i) (cellY s.build j) =
      if DirtyMask.get (preparedTick s).mask i j
      then nextValue s.fb (cellX s.build i) (cellY s.build j) else v := by
  refine (cellAt_stepFb_cell s.build _ _ (setCell_wf _ _ v hfb) hi hj).trans ?_
  have hsnap : (preparedWithSet s (cellX s.build i) (cellY s.build j) v).snap = s.fb :=
    preparedTick_snap hfb
  rw [cellAt_setCell_cell hfb hi hj, hsnap]
  rfl

end set

/-- Settles O41: both orders end their preparation in `preparedWithSet`, from which STEP goes on. -/
theorem setBetweenSnapshotAndStep : Obligations.SetBetweenSnapshotAndStep := by
  intro s i j v hfb hi hj
  have hset := cellAt_setCell_cell hfb hi hj v
  have hstep := cellAt_step_preparedWithSet hfb hi hj v
  refine ⟨⟨snapshotBody s, preparedTick s, _, _, exec_snapshot s, exec_buildMask_snapshotBody s,
    exec_set_preparedTick .., exec_step_preparedWithSet .., hset, hstep⟩, ?_⟩
  exact ⟨snapshotBody s, _, _, _, exec_snapshot s, exec_set .., exec_buildMask_after_set ..,
    exec_step_preparedWithSet .., hset, rfl, hstep⟩

end Sys2Proof.Machine
end

section
/-! A reset during a command (70_reset_and_hazards.md R182). On the run of an issued word the word and
the FB of its acceptance stay recorded, and what the command's effect on FB reads beside FB is not
written before its end (`UnderWay`): so the FB that the reset takes for the completed command's is the
transaction's. -/

namespace Sys2Proof.Machine

/-! ### What a command's effect on FB reads -/

/-- What STEP reads beside FB (42_stepper.md R123). -/
def State.stepData (s : State) : Build × DirtyMask × Memory × Bool :=
  (s.build, s.mask, s.snap, s.maskValid)

theorem stepData_eq_iff {s u : State} : u.stepData = s.stepData ↔
    u.build = s.build ∧ u.mask = s.mask ∧ u.snap = s.snap ∧ u.maskValid = s.maskValid := by
  simp [State.stepData]

/-- FB after a command is made of R and FB before it, and for STEP of its data. -/
theorem effect_fb_congr {i : Instr} {s u : State} (hbuild : u.build = s.build) (hfb : u.fb = s.fb)
    (hstep : i = .step → u.stepData = s.stepData) : (effect i u).fb = (effect i s).fb := by
  cases i with
  | set x y v => exact congrArg (Memory.setCell · x y v) hfb
  | step =>
    obtain ⟨-, hmask, hsnap, hvalid⟩ := stepData_eq_iff.1 (hstep rfl)
    dsimp only [effect]
    rw [hvalid, hbuild, hmask, hsnap, hfb]
    split
    · rfl
    · exact hfb
  | tick =>
    show stepFb u.build (maskOf u.build (Memory.copyBytes u.fb)) (Memory.copyBytes u.fb) u.fb = _
    rw [hbuild, hfb]
    rfl
  | _ => rw [effect_fb u, effect_fb s, hfb] <;> nofun

theorem runWord_fb_congr {w : CmdWord} {s u a b : State} (ha : runWord w s = .next a)
    (hb : runWord w u = .next b) (hbuild : u.build = s.build) (hfb : u.fb = s.fb)
    (hstep : decode w = .ok .step → u.stepData = s.stepData) : b.fb = a.fb := by
  cases hw : decode w with
  | error e =>
    rw [runWord_of_illegal hw] at ha hb
    cases ha
    cases hb
    exact hfb
  | ok i =>
    rw [runWord_of_legal hw] at ha hb
    rw [eq_effect_of_exec ha, eq_effect_of_exec hb]
    exact effect_fb_congr hbuild hfb fun hi => hstep (hi ▸ hw)

/-! ### No micro-step of the command writes it -/

@[simp] theorem complete_stepData (s : State) : (complete s).stepData = s.stepData := by
  simp [State.stepData]

@[simp] theorem raise_stepData (s : State) (c : Cause) : (s.raise c).stepData = s.stepData := by
  simp [State.stepData]

@[simp] theorem accept_stepData (w : CmdWord) (s : State) :
    (accept w s).stepData = s.stepData :=
  congrArg (fun valid => (s.build, s.mask, s.snap, valid)) (maskValid_setBusy s true)

theorem afterStepping_stepData (f : InFlight) (s : State) :
    (afterStepping f s).stepData = s.stepData := by
  unfold afterStepping
  split
  · rfl
  · exact complete_stepData s

theorem afterWriting_stepData (f : InFlight) (s : State) :
    (afterWriting f s).stepData = s.stepData := by
  unfold afterWriting
  split
  · exact complete_stepData s
  · exact afterStepping_stepData f s

theorem afterFlagging_build (f : InFlight) (s : State) : (afterFlagging f s).build = s.build := by
  unfold afterFlagging
  split
  · rfl
  · dsimp only
    split <;> rfl

theorem afterCopying_build (f : InFlight) (s : State) : (afterCopying f s).build = s.build := by
  unfold afterCopying
  split <;> rfl

section micro
variable {f : InFlight} {s t : State}

theorem startCommand_build (h : startCommand f s = .next t) : t.build = s.build := by
  unfold startCommand at h
  cases hw : decode f.word with
  | error e =>
    rw [hw] at h
    cases h
    rfl
  | ok i =>
    rw [hw] at h
    cases i <;> dsimp only at h
    case set | buildMask | step => split at h <;> cases h <;> rfl
    case snapshot | tick => cases h; rfl
    all_goals
      rw [exec_eq_effect] at h
      cases h
      exact (effect_outside _ s).1

theorem startCommand_stepData (hrun : f.runs .step) (h : startCommand f s = .next t) :
    t.stepData = s.stepData := by
  unfold startCommand at h
  rw [show decode f.word = .ok .step from hrun] at h
  dsimp only at h
  split at h <;> cases h
  · rfl
  · exact (complete_stepData _).trans (raise_stepData s .seqErr)

/-- A micro-step keeps the host's acts (20_memory.md R50). -/
theorem microStep_inputs (h : microStep f s = .next t) : t.inputs = s.inputs := by
  have hkeep : outcomeWithInputs s.inputs (microStep f s) = .next t :=
    (microStep_withInputs f s s.inputs).symm.trans h
  obtain ⟨u, -, rfl⟩ := eq_withInputs_of_next hkeep
  rfl

variable (hsound : InFlight.Sound f s) (h : microStep f s = .next t)
include hsound h

/-- A visit of STEP, in a TICK too, and a bit write read STEP's data and write FB alone. -/
theorem visit_stepData (hp : f.phase = .eval ∨ f.phase = .readByte ∨ f.phase = .writeBack) :
    t.stepData = s.stepData := by
  unfold microStep at h
  rcases hp with hp | hp | hp <;> rw [hp] at h <;> dsimp only at h
  · rw [evalStep_eq] at h
    cases h
    split
    · rfl
    · exact afterStepping_stepData f s
  · rw [readStep_eq f s (writeOffset_lt hsound (.inl hp))] at h
    cases h
    rfl
  · rw [writeStep_eq f s (writeOffset_lt hsound (.inr hp))] at h
    cases h
    exact afterWriting_stepData f _

/-- R is fixed (00_scope.md R9). -/
theorem microStep_build : t.build = s.build := by
  have hvisit := fun hp => congrArg Prod.fst (visit_stepData hsound h hp)
  unfold microStep at h
  cases hp : f.phase <;> rw [hp] at h <;> dsimp only at h
  case start => exact startCommand_build h
  case copy =>
    rw [copyStep_eq f s hsound.counter_lt] at h
    cases h
    split
    · rfl
    · exact afterCopying_build f _
  case flag =>
    rw [flagStep_eq] at h
    cases h
    exact afterFlagging_build f _
  case eval => exact hvisit (.inl hp)
  case readByte => exact hvisit (.inr (.inl hp))
  case writeBack => exact hvisit (.inr (.inr hp))

/-- STEP has no copy and no flag phase. -/
theorem microStep_stepData (hrun : f.runs .step) : t.stepData = s.stepData := by
  have hfits := hsound.phase_fits
  have hother : ∀ i, f.runs i → i = .step := fun i hi => Except.ok.inj (hi.symm.trans hrun)
  cases hp : f.phase with
  | start =>
    rw [microStep_start hp] at h
    exact startCommand_stepData hrun h
  | copy =>
    rcases (phaseFits_copy hp).1 hfits with hi | hi <;> cases hother _ hi
  | flag =>
    rcases ((phaseFits_flag hp).1 hfits).1 with hi | hi <;> cases hother _ hi
  | eval => exact visit_stepData hsound h (.inl hp)
  | readByte => exact visit_stepData hsound h (.inr (.inl hp))
  | writeBack => exact visit_stepData hsound h (.inr (.inr hp))

end micro

/-! ### The run of an issued word -/

/-- `u` lies on the run of the word `w` issued to `s`, from its acceptance on: what the command's
effect on FB reads is as it was in `s`, and while it executes its word and FB are the accepted. -/
structure UnderWay (w : CmdWord) (s u : State) : Prop where
  inv : State.Inv u
  inputs : u.inputs = []
  build : u.build = s.build
  stepData : decode w = .ok .step → u.stepData = s.stepData
  accepted : ∀ f, u.flight = some f → f.word = w ∧ f.fbBefore = s.fb

section run
variable {w : CmdWord} {s u v : State}

theorem underWay_step (h : UnderWay w s u) (hstep : step u = .next v) : UnderWay w s v := by
  cases hf : u.flight with
  | none =>
    rw [idleBlockStays u hf h.inputs] at hstep
    cases hstep
    exact h
  | some f =>
    have hinv := stepKeepsInvariant u v h.inv hstep
    have hsound := h.inv.flight_sound f hf
    obtain ⟨hword, hbefore⟩ := h.accepted f hf
    rw [step_busy h.inputs hf] at hstep
    refine ⟨hinv, (microStep_inputs hstep).trans h.inputs,
      (microStep_build hsound hstep).trans h.build, fun hw => ?_, fun g hg => ?_⟩
    · have hrun : f.runs .step := (congrArg decode hword).trans hw
      exact (microStep_stepData hsound hstep hrun).trans (h.stepData hw)
    · obtain ⟨hword', hbefore'⟩ := microStep_continues hsound hstep g hg
      exact ⟨hword'.trans hword, hbefore'.trans hbefore⟩

theorem underWay_run (h : UnderWay w s u) (n : Nat)
    (hrun : Sys2Proof.core.run n u = .next v) : UnderWay w s v := by
  induction n generalizing u with
  | zero =>
    cases hrun
    exact h
  | succ n ih =>
    obtain ⟨t, ht⟩ := soundStatesNeverStop u h.inv
    rw [run_succ ht] at hrun
    exact ih (underWay_step h ht) hrun

theorem underWay_accept (hinv : State.Inv s) : UnderWay w s (accept w { s with inputs := [] }) where
  inv := accept_inv (hinv.withInputs []) w
  inputs := rfl
  build := rfl
  stepData := fun _ => accept_stepData w { s with inputs := [] }
  accepted := fun _ hf => by cases hf; exact ⟨rfl, rfl⟩

theorem underWay_of_issue (hinv : State.Inv s) (hidle : s.flight = none) {n : Nat}
    (hrun : Sys2Proof.core.run (n + 1) { s with inputs := [.issue w] } = .next u) :
    UnderWay w s u := by
  rw [run_succ (step_issue (s := { s with inputs := [.issue w] }) hidle rfl)] at hrun
  exact underWay_run (underWay_accept hinv) n hrun

end run

/-! ### A reset during a command (R182) -/

theorem fbAfterReset_busy {s : State} {f : InFlight} (hf : s.flight = some f) : fbAfterReset s =
    Memory.mix (Config.resetWritten s.draws) f.fbBefore (fbIfCompleted f s) := by
  unfold fbAfterReset
  rw [hf]

theorem fbIfCompleted_eq {f : InFlight} {s t : State}
    (h : runWord f.word { s with fb := f.fbBefore, flight := none } = .next t) :
    fbIfCompleted f s = t.fb := by
  unfold fbIfCompleted
  rw [h]

theorem oldOrNew_mix (pick : Nat → Byte) (before after : Memory) :
    OldOrNew before after (Memory.mix pick before after) := by
  intro o ho
  unfold Memory.mix
  rw [Memory.read_tabulate _ ho]
  exact (displayMaySee_iff _ _ _).1 (displayMaySee_mixByte _ _ _)

/-- While a command executes, a reset leaves a mix of the FB recorded at its acceptance and the FB of
the whole command. -/
theorem oldOrNew_fbAfterReset {s t : State} {f : InFlight} (hf : s.flight = some f)
    (hrun : runWord f.word { s with fb := f.fbBefore, flight := none } = .next t) :
    OldOrNew f.fbBefore t.fb (fbAfterReset s) := by
  rw [fbAfterReset_busy hf, fbIfCompleted_eq hrun]
  exact oldOrNew_mix _ _ _

/-- On the run of an issued word that FB is the transaction's, as the command's effect on FB reads
what it would have read in `s`. -/
theorem UnderWay.oldOrNew {w : CmdWord} {s u a : State} {f : InFlight}
    (h : UnderWay w s u) (hf : u.flight = some f)
    (ha : runWord w { s with inputs := [] } = .next a) (rest : List HostInput) :
    OldOrNew s.fb a.fb (fbAfterReset { u with inputs := rest }) := by
  obtain ⟨rfl, hbefore⟩ := h.accepted f hf
  obtain ⟨b, hb⟩ :=
    runWord_completes f.word { u with fb := f.fbBefore, flight := none, inputs := rest }
  have hfb : b.fb = a.fb := runWord_fb_congr ha hb h.build hbefore h.stepData
  rw [← hfb, ← hbefore]
  exact oldOrNew_fbAfterReset (s := { u with inputs := rest }) hf hb

/-- After any number of steps of an issued word a reset finds R as it was, and leaves an FB that is
old or new in every bit: on the way by `UnderWay.oldOrNew`, and at a command boundary,
where it leaves FB alone, by `oldOrNew_of_issue`. -/
theorem reset_of_issue {w : CmdWord} {s u a : State} {n : Nat} (hinv : State.Inv s)
    (hidle : s.flight = none) (ha : step { s with inputs := [.command w] } = .next a)
    (hrun : Sys2Proof.core.run n { s with inputs := [.issue w] } = .next u)
    (rest : List HostInput) :
    u.build = s.build ∧ OldOrNew s.fb a.fb (fbAfterReset { u with inputs := rest }) := by
  have hboundary : u.flight = none → fbAfterReset { u with inputs := rest } = u.fb :=
    fun hf => fbAfterReset_idle hf
  cases n with
  | zero =>
    cases hrun
    rw [hboundary hidle]
    exact ⟨rfl, fun _ _ _ _ => .inl rfl⟩
  | succ n =>
    have hway := underWay_of_issue hinv hidle hrun
    refine ⟨hway.build, ?_⟩
    obtain hf | ⟨f, hf⟩ := Option.eq_none_or_eq_some u.flight
    · rw [hboundary hf]
      exact oldOrNew_of_issue hinv hidle ha (n + 1) hrun
    · have hword := step_command (s := { s with inputs := [.command w] }) hidle rfl
      exact hway.oldOrNew hf (hword.symm.trans ha) rest

/-- Settles O51: the step is `resetBlock`; its FB by `oldOrNew_fbAfterReset` and by
`reset_of_issue`. -/
theorem resetDuringCommand : Obligations.ResetDuringCommand := by
  refine ⟨fun s f rest hf hreset => ?_, fun s u w n rest hinv hidle hrun => ?_⟩
  · obtain ⟨a, ha⟩ :=
      runWord_completes f.word { s with fb := f.fbBefore, flight := none, inputs := rest }
    refine ⟨_, step_reset hreset, rfl, rfl, rfl, rfl, rfl, fun o k ho hk => ?_⟩
    have hmix := oldOrNew_fbAfterReset (s := { s with inputs := rest }) hf ha
    exact (hmix o ho k hk).imp_right fun hnew => ⟨a, ha, hnew⟩
  · obtain ⟨a, ha, -, -⟩ := issue_passes hinv hidle w
    obtain ⟨hbuild, hfb⟩ := reset_of_issue hinv hidle ha hrun rest
    exact ⟨a, _, ha, step_reset rfl, rfl, rfl, rfl, hbuild, rfl, fun o k ho hk => hfb o ho k hk⟩

end Sys2Proof.Machine
end
